-- ==== Sys2Proof/Word.lean ====
section
/-! DEFINITION. The word of the engine: every register and every DMEM word is 32 bits wide
(00_scope.md R5 `CW`, 10_state.md R32), a bus byte lane is 8 bits (20_memory.md R89), and a
window offset is 17 bits, since the window is 0x20000 bytes (20_memory.md R80). -/

namespace Sys2Proof

/-- A 32-bit register or DMEM word (R5 `CW`, R10). -/
abbrev Word := BitVec 32

/-- One byte lane of a word (R89). -/
abbrev Byte := BitVec 8

/-- A byte offset inside the window 0x00000 to 0x1FFFF (R80). -/
abbrev Offset := BitVec 17

/-- A sequence of integers; read as a polynomial, element 0 is the leading coefficient (R13). -/
abbrev Poly := List Int

end Sys2Proof
end

