-- ==== Sys2Proof/Syntax.lean ====
section
/-! DEFINITION. The commands (30_encoding.md R113), the register names (10_state.md R32) and the
host-script statements (30_encoding.md R118, R119). -/

namespace Sys2Proof

/-- The sixteen commands, one per row of the opcode table (R113). A command word carries no
register number and no immediate (R111), so no constructor has an argument: every operand is in
the operand registers (R114). -/
inductive Instr where
  | nop
  | egcd
  | modinv
  | trim
  | add
  | sub
  | conv
  | pmod
  | divp
  | invp
  | inv2k
  | bmod
  | b3enc
  | b3dec
  | pack
  | unpack
  deriving DecidableEq, Repr

/-- The 26 named registers of the register map (R32), in the order of their offsets. -/
inductive Reg where
  | id | version | dmemSize | nmax
  | ctrl | status | errInfo | cmd
  | mod | ringN | width
  | aAddr | aLen | bAddr | bLen
  | dAddr | dCap | dLen
  | eAddr | eCap | eLen
  | sa | sb
  | r0 | r1 | r2
  deriving DecidableEq, Repr

/-- The two source descriptors (R49, R50). -/
inductive Src where
  | a | b
  deriving DecidableEq, Repr

/-- The two destinations (R51, R53). -/
inductive Dst where
  | d | e
  deriving DecidableEq, Repr

/-- A statement of a host script: the four of R118 and the pseudo-statements of R119. A number may
be negative; the word written is then `enc32` of it. -/
inductive Stmt where
  /-- `WR REG, v`. -/
  | wr (r : Reg) (v : Int)
  /-- `RD REG`. -/
  | rd (r : Reg)
  /-- `WRM i, v0, ..., vk`. -/
  | wrm (i : Nat) (vs : List Int)
  /-- `RDM i, n`. -/
  | rdm (i n : Nat)
  /-- `GO mnem`. -/
  | go (i : Instr)
  /-- `SRC A, addr, len` and `SRC B, addr, len`. -/
  | src (x : Src) (addr len : Int)
  /-- `DST D, addr, cap` and `DST E, addr, cap`. -/
  | dst (x : Dst) (addr cap : Int)
  /-- `WAIT`: read STATUS until its bit 0 reads 0. -/
  | wait
  /-- `ACK`. -/
  | ack
  /-- `SRST`. -/
  | srst
  deriving DecidableEq, Repr

end Sys2Proof
end

