-- ==== Sys2Proof/Decode.lean ====
section
/-! DEFINITION. The decoder of a command word and, after it, the encoder (30_encoding.md R110 to
R113, R116, R117). -/

namespace Sys2Proof

/-- Why a word is no command (R116). -/
inductive Reject where
  /-- Bits [31:8] are not 0. -/
  | reservedBits
  /-- Bits [31:8] are 0 and bits [7:0] are not one of the sixteen opcodes. -/
  | reservedOpcode
  deriving DecidableEq, Repr

/-- The field OPC, bits [7:0] of the command word (R111). -/
def opcField (w : Word) : BitVec 8 := w.extractLsb' 0 8

/-- The field RSVD, bits [31:8] of the command word (R111). -/
def rsvdField (w : Word) : BitVec 24 := w.extractLsb' 8 24

/-- The opcode map of R113: the column OPC and the command. -/
def opcodeMap : List (BitVec 8 × Instr) :=
  [(0x00#8, .nop), (0x01#8, .egcd), (0x02#8, .modinv),
   (0x10#8, .trim), (0x11#8, .add), (0x12#8, .sub), (0x13#8, .conv), (0x14#8, .pmod),
   (0x15#8, .divp), (0x16#8, .invp), (0x17#8, .inv2k), (0x18#8, .bmod),
   (0x20#8, .b3enc), (0x21#8, .b3dec), (0x22#8, .pack), (0x23#8, .unpack)]

/-- Decode a command word (R112): total, and a word that is no command is rejected by name. -/
def decode (w : Word) : Except Reject Instr :=
  if rsvdField w = 0#24 then
    match opcodeMap.lookup (opcField w) with
    | some i => .ok i
    | none => .error .reservedOpcode
  else .error .reservedBits

/-- The command word of a command: the column `word` of R113. -/
def encode : Instr → Word
  | .nop => 0x00000000#32
  | .egcd => 0x00000001#32
  | .modinv => 0x00000002#32
  | .trim => 0x00000010#32
  | .add => 0x00000011#32
  | .sub => 0x00000012#32
  | .conv => 0x00000013#32
  | .pmod => 0x00000014#32
  | .divp => 0x00000015#32
  | .invp => 0x00000016#32
  | .inv2k => 0x00000017#32
  | .bmod => 0x00000018#32
  | .b3enc => 0x00000020#32
  | .b3dec => 0x00000021#32
  | .pack => 0x00000022#32
  | .unpack => 0x00000023#32

/-- The instruction the decoder reads from a row of the opcode table: the command word has 32 bits
(R110), the bits above `nbits` are 0, and no command is longer. -/
def decodeTableWord (nbits w : Nat) : Option Instr :=
  if nbits ≤ 32 ∧ w < 2 ^ nbits then (decode (BitVec.ofNat 32 w)).toOption else none

end Sys2Proof
end

