-- ==== Sys2Proof/Config.lean ====
section
/-! DEFINITION. The implementation parameters of 00_scope.md R5 and the constant registers of
10_state.md R33 to R36. -/

namespace Sys2Proof

/-- The implementation parameters that a model takes as arguments (R5, D5, D6, I10). The engine's
state carries them and no step changes them, so that what is stated of every state is stated of
every engine; the platform's `BASE` is apart (below). -/
structure Params where
  /-- `DMEM_WORDS`, the number of 32-bit words of DMEM. -/
  dmemWords : Nat
  /-- `N_MAX`, the largest ring degree a command accepts. -/
  nMax : Nat
  deriving DecidableEq, Repr

/-- The parameters of this hardware: the value column of R5. -/
def Config.thisHardware : Params := { dmemWords := 16384, nMax := 4096 }

/-- `W_MAX`, the largest bit-field width of PACK and UNPACK (R5, D7). -/
def Config.wMax : Nat := 31

/-- The constant read from ID: the bytes "NTRU" (R33). -/
def Config.idValue : Word := 0x4E545255#32

/-- The constant read from VERSION: major 1, minor 0 (R34). -/
def Config.versionValue : Word := 0x00010000#32

/-- The size in bytes of the window on the host bus (R80, D22). -/
def Config.windowBytes : Nat := 0x20000

/-- The platform's choice of `BASE`, counted in windows. It has no body: R5 leaves `BASE` OPEN, so
nothing may rest on its value (log 7). -/
opaque Config.baseWindow : Nat

/-- `BASE`, the byte address of the window; a multiple of 0x20000 (R5, R81). -/
def Config.base : Nat := Config.windowBytes * Config.baseWindow

end Sys2Proof
end

