-- ==== Sys2Proof/Machine/State.lean ====
section
/-! DEFINITION. The state of the engine as plain data (10_state.md R30), the host actions that
reach it (20_memory.md R82, R105), and the machine right after a hardware reset
(70_reset_and_hazards.md R341, R342). -/

namespace Sys2Proof.Machine

open Sys2Proof

/-- The error codes a completion reports in STATUS.ERR (R301). Codes 7 to 15 do not exist. -/
inductive ErrCode where
  | none | illegalOpcode | noInverse | divByZero | operandRange | overflow | bounds
  deriving DecidableEq, Repr

/-- The operand identifiers a completion reports in ERR_INFO (R302). No other value exists. -/
inductive Info where
  | none | a | b | d | e | mod | ringN | width | sa | sb
  deriving DecidableEq, Repr

/-- The operand registers a command reads (R46 to R51, R53, R55); LATCH holds a copy (R58). -/
structure Operands where
  mod : Word
  ringN : Word
  width : Word
  aAddr : Word
  aLen : Word
  bAddr : Word
  bLen : Word
  dAddr : Word
  dCap : Word
  eAddr : Word
  eCap : Word
  sa : Word
  sb : Word
  deriving DecidableEq, Repr

/-- All operand registers at 0, their reset value (R341). -/
def Operands.zero : Operands :=
  { mod := 0, ringN := 0, width := 0, aAddr := 0, aLen := 0, bAddr := 0, bLen := 0,
    dAddr := 0, dCap := 0, eAddr := 0, eCap := 0, sa := 0, sb := 0 }

/-- LATCH: the command word and the operands as they were at acceptance (R58). -/
structure Latch where
  cmd : Word
  ops : Operands
  deriving DecidableEq, Repr

/-- DMEM as the bytes written since the last hardware reset, keyed by `4 * word + lane`, lane k
holding bits [8k+7:8k] of the word (R86, R89). An unlisted byte has no value (R93; log 1, log 8). -/
abbrev Memory := List Host.Cell

/-- A host bus access (R82): a kind, a byte offset in the window, a size in bytes, and the data
word of a write. -/
inductive Access where
  | read (off : Offset) (size : Nat)
  | write (off : Offset) (size : Nat) (data : Word)
  deriving DecidableEq, Repr

/-- The response to an access (R82, R84). -/
inductive Response where
  /-- OKAY to a read, with the data read. -/
  | data (w : Word)
  /-- OKAY to a write. -/
  | ack
  /-- SLVERR; the read data is 0x00000000. -/
  | slverr
  deriving DecidableEq, Repr

/-- What the outside world does to the engine (R105, R340). -/
inductive Input where
  /-- An access the platform has routed to the window, named by its offset (R82). -/
  | access (a : Access)
  /-- A read at a bus address, which reaches the engine only inside its window (R81). -/
  | busRead (addr size : Nat)
  /-- A write at a bus address, which reaches the engine only inside its window (R81). -/
  | busWrite (addr size : Nat) (data : Word)
  /-- The loop WAIT of a host script: read STATUS until its bit 0 reads 0 (R119). -/
  | wait
  /-- The platform's reset input (R340). -/
  | hardReset
  deriving DecidableEq, Repr

/-- The whole state. `inputs`, `schedule`, `hostTurns` and `responses` are the model's own: the
outside world and the order in which the agents move (log 3, log 4, log 5). -/
structure State where
  /-- The engine's implementation parameters (R5; log 15): no step and no reset changes them. -/
  params : Params
  /-- CTRL.IRQ_EN (R37). -/
  irqEn : Bool
  /-- STATUS.BUSY (R38). -/
  busy : Bool
  /-- STATUS.DONE (R39). -/
  done : Bool
  /-- STATUS.ERR (R40). -/
  err : ErrCode
  /-- STATUS.CMD_OVR (R41). -/
  cmdOvr : Bool
  /-- STATUS.BUSERR (R42). -/
  busErr : Bool
  /-- ERR_INFO (R44). -/
  errInfo : Info
  /-- CMD (R45). -/
  cmd : Word
  /-- The live operand registers (R46 to R51, R53, R55). -/
  ops : Operands
  /-- D_LEN (R52). -/
  dLen : Word
  /-- E_LEN (R54). -/
  eLen : Word
  /-- R0, R1, R2 (R56). -/
  r0 : Word
  r1 : Word
  r2 : Word
  /-- LATCH (R58). -/
  latch : Latch
  /-- DMEM (R86). -/
  dmem : Memory
  /-- The host actions still to come, in arrival order (R97; log 3). -/
  inputs : List Input
  /-- For each coming acceptance, how many host actions are ordered before its completion (R62;
  log 4). -/
  schedule : List Nat
  /-- How many host actions are still ordered before the completion of the command in flight
  (R62; log 4). -/
  hostTurns : Nat
  /-- The responses given so far, newest first (R82; log 5). -/
  responses : List Response
  deriving DecidableEq, Repr

/-- The engine reports every error and goes on (R300, R315): no fault of the spec stops it, so
there is no reason of this kind. -/
inductive Fault where
  deriving DecidableEq, Repr

/-- Why a step is refused. -/
inductive Refusal where
  /-- Raised by an arm of `exec` whose command has no meaning yet; safe, since nothing is proved of
  a step that is refused. No arm raises it. -/
  | notModelled (mnemonic : String)
  /-- Raised by a host read, or by a command source, that touches the DMEM word `word`, which
  nothing has written since the last hardware reset: the treatment 93_implementation_defined.md I2
  recommends for the unspecified contents of R93 and R342. Safe: the hardware goes on with some
  value where the model stops. -/
  | unwrittenDmem (word : Nat)
  deriving DecidableEq, Repr

/-- How a command's computation ends before its result is written. -/
inductive Stop where
  /-- `raise Error(code, info)` (R304). -/
  | error (code : ErrCode) (info : Info)
  /-- A source word that nothing has written (R93, I2). -/
  | unwritten (word : Nat)
  deriving DecidableEq, Repr

/-- The result registers a command may write (R124 `rwrites`). -/
inductive ResultReg where
  | dLen | eLen | r0 | r1 | r2
  deriving DecidableEq, Repr

/-- `Ok(dwrites, rwrites)` of R61: the sequences to write to DMEM in order, each at a word address,
and the result registers to write. -/
structure Writes where
  dmem : List (Nat × Poly)
  regs : List (ResultReg × Int)
  deriving DecidableEq, Repr

/-- The machine right after a hardware reset (R341, R342): every register at its reset value, no
DMEM word written, and nothing pending outside. LATCH is irrelevant while BUSY = 0; the model
zeroes it (log 6). -/
def State.reset : State :=
  { params := Config.thisHardware
    irqEn := false, busy := false, done := false, err := .none, cmdOvr := false, busErr := false,
    errInfo := .none, cmd := 0, ops := Operands.zero, dLen := 0, eLen := 0, r0 := 0, r1 := 0,
    r2 := 0, latch := { cmd := 0, ops := Operands.zero }, dmem := [], inputs := [],
    schedule := [], hostTurns := 0, responses := [] }

end Sys2Proof.Machine
end

