-- ==== Sys2Proof/Machine/Flags.lean ====
section
/-! DEFINITION. The STATUS and CTRL words, the numbers of the error codes and operand identifiers,
and the interrupt output (10_state.md R37 to R44, R59; 60_exceptions.md R301, R302, R313). -/

namespace Sys2Proof.Machine

open Sys2Proof

/-- The number of an error code (R301). -/
def ErrCode.code : ErrCode → Nat
  | .none => 0
  | .illegalOpcode => 1
  | .noInverse => 2
  | .divByZero => 3
  | .operandRange => 4
  | .overflow => 5
  | .bounds => 6

/-- The number of an operand identifier (R302). -/
def Info.code : Info → Nat
  | .none => 0
  | .a => 1
  | .b => 2
  | .d => 3
  | .e => 4
  | .mod => 8
  | .ringN => 9
  | .width => 10
  | .sa => 11
  | .sb => 12

/-- A flag as a bit of a word. -/
def flagBit (b : Bool) (pos : Nat) : Word := if b then BitVec.ofNat 32 (2 ^ pos) else 0#32

/-- The read value of STATUS: BUSY | DONE<<1 | ERR<<8 | CMD_OVR<<16 | BUSERR<<17 (R43). -/
def State.statusWord (s : State) : Word :=
  flagBit s.busy 0 ||| flagBit s.done 1 ||| (BitVec.ofNat 32 s.err.code <<< 8) |||
    flagBit s.cmdOvr 16 ||| flagBit s.busErr 17

/-- The read value of CTRL: IRQ_EN in bit 0 and 0 elsewhere (R37, R88). -/
def State.ctrlWord (s : State) : Word := flagBit s.irqEn 0

/-- The read value of ERR_INFO (R44). -/
def State.errInfoWord (s : State) : Word := BitVec.ofNat 32 s.errInfo.code

/-- A bus write to STATUS: bits 1, 16 and 17 clear DONE, CMD_OVR and BUSERR together; BUSY, ERR and
the reserved bits ignore it (R38 to R43). The host's acknowledge is this write with bit 1 (R316). -/
def State.writeStatus (s : State) (v : Word) : State :=
  { s with
    done := s.done && !v.getLsbD 1
    cmdOvr := s.cmdOvr && !v.getLsbD 16
    busErr := s.busErr && !v.getLsbD 17 }

/-- The interrupt output, a level (R59, R313). -/
def State.irq (s : State) : Bool := s.irqEn && s.done

end Sys2Proof.Machine
end

