-- ==== Sys2Proof/Machine/Ops.lean ====
section
/-! DEFINITION. The shared operations: word interpretations (00_scope.md R11), DMEM
(20_memory.md R86, R89, R91), acceptance, completion and error report (10_state.md R60, R61;
60_exceptions.md R304), the two resets (70_reset_and_hazards.md R340 to R343) and the register
file (10_state.md R32). -/

namespace Sys2Proof.Machine

open Sys2Proof

/-! ### Word interpretations -/

/-- `u32(w)`: the word read unsigned (R11). -/
def u32 (w : Word) : Nat := w.toNat

/-- `s32(w)`: the word read in two's complement (R11). -/
def s32 (w : Word) : Int := w.toInt

/-- `enc32(v)`: the word that denotes v, for v in [-2^31, 2^32 - 1] (R11). -/
def enc32 (v : Int) : Word := BitVec.ofInt 32 v

/-- `fits32(v)`: v has an `s32` word (R11). -/
def fits32 (v : Int) : Bool := decide (-2147483648 ≤ v) && decide (v ≤ 2147483647)

/-! ### DMEM -/

/-- What one byte of DMEM reads as; `none` when nothing has written it (R93). -/
def Memory.readByte : Memory → Nat → Option Byte
  | [], _ => none
  | (a, b) :: m, x => if x = a then some b else Memory.readByte m x

/-- Store one byte, keeping the addresses strictly rising. -/
def Memory.writeByte : Memory → Nat → Byte → Memory
  | [], x, v => [(x, v)]
  | (a, b) :: m, x, v =>
    if x < a then (x, v) :: (a, b) :: m
    else if x = a then (x, v) :: m
    else (a, b) :: Memory.writeByte m x v

/-- Lane k of a word: its bits [8k+7:8k] (R89). -/
def laneOf (w : Word) (k : Nat) : Byte := w.extractLsb' (8 * k) 8

/-- The word with the given lanes, lane 0 first (R89). -/
def ofLanes (b0 b1 b2 b3 : Byte) : Word := b3 ++ b2 ++ b1 ++ b0

/-- DMEM word i; `none` when it is not written (R86, R93). -/
def Memory.readWord (m : Memory) (i : Nat) : Option Word :=
  match m.readByte (4 * i), m.readByte (4 * i + 1), m.readByte (4 * i + 2),
    m.readByte (4 * i + 3) with
  | some b0, some b1, some b2, some b3 => some (ofLanes b0 b1 b2 b3)
  | _, _, _, _ => none

/-- Store a whole word at DMEM word i (R86). -/
def Memory.writeWord (m : Memory) (i : Nat) (w : Word) : Memory :=
  (((m.writeByte (4 * i) (laneOf w 0)).writeByte (4 * i + 1) (laneOf w 1)).writeByte
    (4 * i + 2) (laneOf w 2)).writeByte (4 * i + 3) (laneOf w 3)

/-- `MemRead(addr, n)`: n words from word address addr, each read with `s32` (R15, R91). An
unwritten word stops the read (R93). -/
def Memory.readSeq (m : Memory) : Nat → Nat → Except Stop Poly
  | _, 0 => .ok []
  | addr, n + 1 =>
    match m.readWord addr with
    | none => .error (.unwritten addr)
    | some w =>
      match Memory.readSeq m (addr + 1) n with
      | .error e => .error e
      | .ok vs => .ok (s32 w :: vs)

/-- `MemWrite(addr, n, V)`: `enc32(V[i])` to word addr + i (R15, R91). -/
def Memory.writeSeq : Memory → Nat → Poly → Memory
  | m, _, [] => m
  | m, addr, v :: vs => Memory.writeSeq (m.writeWord addr (enc32 v)) (addr + 1) vs

/-- Write the sequences of a completion in order, D's first and then E's (R61, R95). -/
def Memory.writeAll : Memory → List (Nat × Poly) → Memory
  | m, [] => m
  | m, (addr, vs) :: rest => Memory.writeAll (m.writeSeq addr vs) rest

/-- The addresses of a memory are strictly rising and above `lo`. -/
def Memory.risingFrom : Nat → Memory → Bool
  | _, [] => true
  | lo, (a, _) :: m => decide (lo ≤ a) && Memory.risingFrom (a + 1) m

/-- The canonical form: addresses strictly rising. An unlisted byte has no value, so no entry can
equal what an unlisted address reads as. -/
def Memory.wf (m : Memory) : Bool := Memory.risingFrom 0 m

/-- Every listed byte is one that a DMEM of n words has (R80). -/
def Memory.within (n : Nat) (m : Memory) : Bool := m.all (fun c => decide (c.1 < 4 * n))

/-- DMEM is written word by word (R83, R95): the word of every listed byte is wholly written. -/
def Memory.wholeWords (m : Memory) : Bool := m.all (fun c => (m.readWord (c.1 / 4)).isSome)

/-! ### The life of a command -/

/-- The acceptance step (R60): CMD and LATCH take the word and the operand registers, DONE, ERR and
ERR_INFO clear, BUSY sets. It never fails. -/
def State.accept (s : State) (v : Word) : State :=
  { s with
    cmd := v, latch := { cmd := v, ops := s.ops }
    done := false, err := .none, errInfo := .none, busy := true }

/-- Load the number of host actions ordered before the completion of the command just accepted
(R62; log 4). -/
def State.drawTurns (s : State) : State :=
  { s with hostTurns := s.schedule.headD 0, schedule := s.schedule.tail }

/-- A bus write of v to CMD: accepted while idle, an overrun while BUSY (R45, R312). -/
def State.writeCmd (s : State) (v : Word) : State :=
  if s.busy then { s with cmdOvr := true } else (s.accept v).drawTurns

/-- The error report, the only thing that happens when a command raises an error (R300, R304,
R315): ERR and ERR_INFO take the code and the operand, BUSY clears, DONE sets; no DMEM word and no
other register changes, and nothing is entered or saved. -/
def State.reportError (s : State) (code : ErrCode) (info : Info) : State :=
  { s with err := code, errInfo := info, busy := false, done := true }

/-- Write one result register with `enc32` (R61). -/
def State.writeResult (s : State) : ResultReg × Int → State
  | (.dLen, v) => { s with dLen := enc32 v }
  | (.eLen, v) => { s with eLen := enc32 v }
  | (.r0, v) => { s with r0 := enc32 v }
  | (.r1, v) => { s with r1 := enc32 v }
  | (.r2, v) => { s with r2 := enc32 v }

/-- Write the result registers of a completion in order (R61). -/
def State.writeResults : State → List (ResultReg × Int) → State
  | s, [] => s
  | s, w :: ws => State.writeResults (s.writeResult w) ws

/-- The successful completion (R61, branch Ok). -/
def State.commit (s : State) (w : Writes) : State :=
  { (State.writeResults { s with dmem := s.dmem.writeAll w.dmem } w.regs) with
    err := .none, errInfo := .none, busy := false, done := true }

/-- The completion step of a command whose outcome is `r` (R61). -/
def complete (s : State) (r : Except Stop Writes) : Host.Outcome State Fault Refusal :=
  match r with
  | .ok w => .next (s.commit w)
  | .error (.error code info) => .next (s.reportError code info)
  | .error (.unwritten word) => .refused (.unwrittenDmem word)

/-- The completion of a word that is no command (R116, R310). -/
def completeIllegal (s : State) : Host.Outcome State Fault Refusal :=
  .next (s.reportError .illegalOpcode .none)

/-- The word the completion step decodes: the latched command (R58, R112). -/
def State.fetch (s : State) : Word := s.latch.cmd

/-! ### Reset -/

/-- The soft reset (R341, R343): every register at its reset value, a running command discarded,
DMEM kept. The outside world is not the engine's to reset (log 11). -/
def State.softReset (s : State) : State :=
  { State.reset with
    params := s.params, dmem := s.dmem
    inputs := s.inputs, schedule := s.schedule, responses := s.responses }

/-- The hardware reset (R340 to R343): as the soft reset, and every DMEM word is unspecified
afterwards, that is, unwritten (R342; log 1). -/
def State.hardReset (s : State) : State := { s.softReset with dmem := State.reset.dmem }

/-! ### The register file -/

/-- A bus write to CTRL (R37): bit 1 performs the soft reset and nothing else; otherwise bit 0 is
stored into IRQ_EN. -/
def State.writeCtrl (s : State) (v : Word) : State :=
  if v.getLsbD 1 then s.softReset else { s with irqEn := v.getLsbD 0 }

/-- The value a bus read of a register returns (R32 to R56, R88). A read changes nothing. -/
def State.readReg (s : State) : Reg → Word
  | .id => Config.idValue
  | .version => Config.versionValue
  | .dmemSize => BitVec.ofNat 32 s.params.dmemWords
  | .nmax => BitVec.ofNat 32 s.params.nMax
  | .ctrl => s.ctrlWord
  | .status => s.statusWord
  | .errInfo => s.errInfoWord
  | .cmd => s.cmd
  | .mod => s.ops.mod
  | .ringN => s.ops.ringN
  | .width => s.ops.width
  | .aAddr => s.ops.aAddr
  | .aLen => s.ops.aLen
  | .bAddr => s.ops.bAddr
  | .bLen => s.ops.bLen
  | .dAddr => s.ops.dAddr
  | .dCap => s.ops.dCap
  | .dLen => s.dLen
  | .eAddr => s.ops.eAddr
  | .eCap => s.ops.eCap
  | .eLen => s.eLen
  | .sa => s.ops.sa
  | .sb => s.ops.sb
  | .r0 => s.r0
  | .r1 => s.r1
  | .r2 => s.r2

/-- The effect of a bus write to a register (R37 to R57, R88): RW registers store all 32 bits,
read-only ones ignore the write. -/
def State.writeReg (s : State) (r : Reg) (v : Word) : State :=
  match r with
  | .id => s
  | .version => s
  | .dmemSize => s
  | .nmax => s
  | .ctrl => s.writeCtrl v
  | .status => s.writeStatus v
  | .errInfo => s
  | .cmd => s.writeCmd v
  | .mod => { s with ops := { s.ops with mod := v } }
  | .ringN => { s with ops := { s.ops with ringN := v } }
  | .width => { s with ops := { s.ops with width := v } }
  | .aAddr => { s with ops := { s.ops with aAddr := v } }
  | .aLen => { s with ops := { s.ops with aLen := v } }
  | .bAddr => { s with ops := { s.ops with bAddr := v } }
  | .bLen => { s with ops := { s.ops with bLen := v } }
  | .dAddr => { s with ops := { s.ops with dAddr := v } }
  | .dCap => { s with ops := { s.ops with dCap := v } }
  | .dLen => s
  | .eAddr => { s with ops := { s.ops with eAddr := v } }
  | .eCap => { s with ops := { s.ops with eCap := v } }
  | .eLen => s
  | .sa => { s with ops := { s.ops with sa := v } }
  | .sb => { s with ops := { s.ops with sb := v } }
  | .r0 => s
  | .r1 => s
  | .r2 => s

end Sys2Proof.Machine
end

