-- ==== Sys2Proof/Machine/Bus.lean ====
section
/-! DEFINITION. The host bus: the address map, valid and invalid accesses, and what each host
action does (10_state.md R32; 20_memory.md R80 to R88, R97; 30_encoding.md R118, R119;
60_exceptions.md R311). -/

namespace Sys2Proof.Machine

open Sys2Proof

/-- The byte offset of a register (R32). -/
def Reg.offset : Reg → Nat
  | .id => 0x000
  | .version => 0x004
  | .dmemSize => 0x008
  | .nmax => 0x00C
  | .ctrl => 0x010
  | .status => 0x014
  | .errInfo => 0x018
  | .cmd => 0x01C
  | .mod => 0x020
  | .ringN => 0x024
  | .width => 0x028
  | .aAddr => 0x030
  | .aLen => 0x034
  | .bAddr => 0x038
  | .bLen => 0x03C
  | .dAddr => 0x040
  | .dCap => 0x044
  | .dLen => 0x048
  | .eAddr => 0x04C
  | .eCap => 0x050
  | .eLen => 0x054
  | .sa => 0x058
  | .sb => 0x05C
  | .r0 => 0x060
  | .r1 => 0x064
  | .r2 => 0x068

/-- The registers in the order of the register map (R32). -/
def regMap : List Reg :=
  [.id, .version, .dmemSize, .nmax, .ctrl, .status, .errInfo, .cmd, .mod, .ringN, .width,
   .aAddr, .aLen, .bAddr, .bLen, .dAddr, .dCap, .dLen, .eAddr, .eCap, .eLen,
   .sa, .sb, .r0, .r1, .r2]

/-- The byte offset of DMEM word 0 (R86). -/
def dmemOffset : Nat := 0x10000

/-- What a mapped offset names. -/
inductive Target where
  | reg (r : Reg)
  | word (i : Nat)
  deriving DecidableEq, Repr

/-- The address map (R32, R85, R86): the register or the DMEM word at an aligned offset; `none`
where the offset is misaligned or unmapped. -/
def targetAt (par : Params) (off : Nat) : Option Target :=
  if off % 4 ≠ 0 then none
  else if off < dmemOffset then
    match regMap.find? (fun r => decide (Reg.offset r = off)) with
    | some r => some (.reg r)
    | none => none
  else if (off - dmemOffset) / 4 < par.dmemWords then some (.word ((off - dmemOffset) / 4))
  else none

/-- What a valid access acts on; `none` when the access is not valid (R83): the size is 4, the
offset is aligned and mapped, and DMEM is closed while BUSY (R87). -/
def State.target (s : State) (off : Offset) (size : Nat) : Option Target :=
  if size ≠ 4 then none
  else
    match targetAt s.params off.toNat with
    | some (.reg r) => some (.reg r)
    | some (.word i) => if s.busy then none else some (.word i)
    | none => none

/-- The data a master reads from a response: the word of an OKAY read, 0x00000000 with SLVERR, and
none from an OKAY write (R82, R84). -/
def Response.readData : Response → Option Word
  | .data w => some w
  | .ack => none
  | .slverr => some 0#32

/-- Record the response to an access (R82; log 5). -/
def State.respond (s : State) (r : Response) : State := { s with responses := r :: s.responses }

/-- An invalid access, of whatever kind (R84, R311): SLVERR, BUSERR sets, nothing else changes. -/
def State.busError (s : State) : State := State.respond { s with busErr := true } .slverr

/-- Serve one access (R82 to R88). A read of an unwritten DMEM word is refused (R93, I2). -/
def State.serve (s : State) (a : Access) : Host.Outcome State Fault Refusal :=
  match a with
  | .read off size =>
    match s.target off size with
    | none => .next s.busError
    | some (.reg r) => .next (s.respond (.data (s.readReg r)))
    | some (.word i) =>
      match s.dmem.readWord i with
      | none => .refused (.unwrittenDmem i)
      | some w => .next (s.respond (.data w))
  | .write off size v =>
    match s.target off size with
    | none => .next s.busError
    | some (.reg r) => .next ((s.writeReg r v).respond .ack)
    | some (.word i) => .next (State.respond { s with dmem := s.dmem.writeWord i v } .ack)

/-- The routing of R81: the window offset of a bus address, where the platform routes it here. -/
def route (addr : Nat) : Option Offset :=
  if Config.base ≤ addr ∧ addr < Config.base + Config.windowBytes then
    some (BitVec.ofNat 17 (addr - Config.base))
  else none

/-- One read of STATUS in the loop WAIT (R119): the loop goes on while bit 0 of the value read
is 1. -/
def State.poll (s : State) : State :=
  let v := s.readReg .status
  let s' := s.respond (.data v)
  if v.getLsbD 0 then { s' with inputs := .wait :: s'.inputs } else s'

/-- The access a host action brings to the engine's port; `none` where it brings none, which
includes a bus address outside the window (R81, R82). -/
def Input.reaching : Input → Option Access
  | .access a => some a
  | .busRead addr size => (route addr).map (fun off => .read off size)
  | .busWrite addr size v => (route addr).map (fun off => .write off size v)
  | .wait => none
  | .hardReset => none

/-- Serve the access that reaches the port, if any; an access the platform routes elsewhere does
nothing to the engine (R81). -/
def State.serveRouted (s : State) : Option Access → Host.Outcome State Fault Refusal
  | some a => s.serve a
  | none => .next s

/-- What one host action does (R82, R97, R105, R340). -/
def State.host (s : State) (i : Input) : Host.Outcome State Fault Refusal :=
  match i with
  | .access a => s.serve a
  | .busRead addr size => s.serveRouted (Input.reaching (.busRead addr size))
  | .busWrite addr size v => s.serveRouted (Input.reaching (.busWrite addr size v))
  | .wait => .next s.poll
  | .hardReset => .next s.hardReset

/-- It is the engine's turn: a command is in flight, and either no host action is ordered before
its completion any more or none will come (R62; log 4). -/
def State.enginesTurn (s : State) : Bool :=
  s.busy && (decide (s.hostTurns = 0) || s.inputs.isEmpty)

/-- Take one host action off the list, counting it towards the running command's completion. -/
def State.takeInput (s : State) (rest : List Input) : State :=
  { s with inputs := rest, hostTurns := s.hostTurns - 1 }

/-- The step in which the engine does not move: the next host action in arrival order (R97), or,
where none is pending, nothing (R345; log 13). -/
def State.hostStep (s : State) : Host.Outcome State Fault Refusal :=
  match s.inputs with
  | [] => .next s
  | i :: rest => (s.takeInput rest).host i

/-! ### Host scripts (R118, R119) -/

/-- A register write of a script; a number outside the domain of `enc32` is taken modulo 2^32
(log 16). -/
def regWrite (r : Reg) (v : Int) : Input :=
  .access (.write (BitVec.ofNat 17 (Reg.offset r)) 4 (enc32 v))

/-- A register read of a script. -/
def regRead (r : Reg) : Input := .access (.read (BitVec.ofNat 17 (Reg.offset r)) 4)

/-- The window offset of DMEM word i (R86). For a word index from 16384 up, which R118 gives no
meaning, the offset is taken modulo the window's 0x20000, the model's DESIGN CHOICE (log 16):
`Stmt.wellFormed` refuses a statement with such an index. -/
def wordOffset (i : Nat) : Offset := BitVec.ofNat 17 (dmemOffset + 4 * i)

/-- The writes of `WRM i, v0, ..., vk`, in order (word indices from 16384 up: log 16). -/
def wordWrites : Nat → List Int → List Input
  | _, [] => []
  | i, v :: vs => .access (.write (wordOffset i) 4 (enc32 v)) :: wordWrites (i + 1) vs

/-- The reads of `RDM i, n`, in order (word indices from 16384 up: log 16). -/
def wordReads (i n : Nat) : List Input :=
  (List.range n).map (fun j => .access (.read (wordOffset (i + j)) 4))

/-- The host actions a statement expands to, `opcode` giving the command word of R113. -/
def expandStmt (opcode : Instr → Word) : Stmt → List Input
  | .wr r v => [regWrite r v]
  | .rd r => [regRead r]
  | .wrm i vs => wordWrites i vs
  | .rdm i n => wordReads i n
  | .go i => [.access (.write (BitVec.ofNat 17 (Reg.offset .cmd)) 4 (opcode i))]
  | .src .a addr len => [regWrite .aAddr addr, regWrite .aLen len]
  | .src .b addr len => [regWrite .bAddr addr, regWrite .bLen len]
  | .dst .d addr cap => [regWrite .dAddr addr, regWrite .dCap cap]
  | .dst .e addr cap => [regWrite .eAddr addr, regWrite .eCap cap]
  | .wait => [.wait]
  | .ack => [regWrite .status 2]
  | .srst => [regWrite .ctrl 2]

/-- The host actions of a script (R118). -/
def expandScript (opcode : Instr → Word) (p : List Stmt) : List Input :=
  p.flatMap (expandStmt opcode)

end Sys2Proof.Machine
end

