-- ==== Sys2Proof/Machine/Operands.lean ====
section
/-! DEFINITION. How a command reads and checks its operands and ends: parameter checks, source
reads, content checks and `Finish` (30_encoding.md R115, R120 to R124; 60_exceptions.md R303,
R307 to R309). -/

namespace Sys2Proof.Machine

open Sys2Proof

/-- `raise Error(code, info)` (R304). -/
def raise {α : Type} (code : ErrCode) (info : Info) : Except Stop α := .error (.error code info)

/-- Raise the error unless the condition holds. -/
def need (ok : Bool) (code : ErrCode) (info : Info) : Except Stop Unit :=
  if ok then .ok () else raise code info

/-! ### Operands as integers (R115) -/

/-- The modulus p, q or m. -/
def Operands.modulus (o : Operands) : Int := s32 o.mod

/-- The ring degree N. -/
def Operands.degree (o : Operands) : Nat := u32 o.ringN

/-- The field width w. -/
def Operands.fieldWidth (o : Operands) : Nat := u32 o.width

/-- The word address of a source (R49, R50). -/
def Operands.srcAddr (o : Operands) : Src → Nat
  | .a => u32 o.aAddr
  | .b => u32 o.bAddr

/-- The length of a source (R49, R50). -/
def Operands.srcLen (o : Operands) : Src → Nat
  | .a => u32 o.aLen
  | .b => u32 o.bLen

/-- The word address of a destination (R51, R53). -/
def Operands.dstAddr (o : Operands) : Dst → Nat
  | .d => u32 o.dAddr
  | .e => u32 o.eAddr

/-- The capacity of a destination (R51, R53). -/
def Operands.dstCap (o : Operands) : Dst → Nat
  | .d => u32 o.dCap
  | .e => u32 o.eCap

/-- The identifier an error on a source records (R302). -/
def srcInfo : Src → Info
  | .a => .a
  | .b => .b

/-- The identifier an error on a destination records (R302). -/
def dstInfo : Dst → Info
  | .d => .d
  | .e => .e

/-! ### Parameter checks (R121) -/

/-- `needMod(lo)`. -/
def needMod (o : Operands) (lo : Int) : Except Stop Unit :=
  need (decide (lo ≤ o.modulus)) .operandRange .mod

/-- q is 2^k for a k in 1 to 30, the powers of two from 2 up that `s32` can hold (R121, R204). -/
def isPow2 (q : Int) : Bool := (List.range 30).any (fun k => decide (q = 2 ^ (k + 1)))

/-- `needPow2Mod()`. -/
def needPow2Mod (o : Operands) : Except Stop Unit := need (isPow2 o.modulus) .operandRange .mod

/-- `needN()`. -/
def needN (par : Params) (o : Operands) : Except Stop Unit :=
  need (decide (1 ≤ o.degree) && decide (o.degree ≤ par.nMax)) .operandRange .ringN

/-- `needW()`. -/
def needW (o : Operands) : Except Stop Unit :=
  need (decide (1 ≤ o.fieldWidth) && decide (o.fieldWidth ≤ Config.wMax)) .operandRange .width

/-! ### Sources (R92, R122) -/

/-- A range of DMEM words is in bounds: empty, or inside DMEM, on unbounded integers (R92). -/
def inBounds (par : Params) (addr n : Nat) : Bool :=
  decide (n = 0) || decide (addr + n ≤ par.dmemWords)

/-- The bounds check of a source (R122). -/
def checkSrc (par : Params) (o : Operands) (x : Src) : Except Stop Unit :=
  need (inBounds par (o.srcAddr x) (o.srcLen x)) .bounds (srcInfo x)

/-- `readSrc(S)` (R122). -/
def readSrc (par : Params) (o : Operands) (m : Memory) (x : Src) : Except Stop Poly := do
  checkSrc par o x
  m.readSeq (o.srcAddr x) (o.srcLen x)

/-- `readSrc(A)` and then `readSrc(B)` (R122). Both bounds are checked before a word is read: the
values of A cannot matter to a command that reports BOUNDS on B (R303; log 2). -/
def readSrcs (par : Params) (o : Operands) (m : Memory) : Except Stop (Poly × Poly) := do
  checkSrc par o .a
  checkSrc par o .b
  let p ← m.readSeq (o.srcAddr .a) (o.srcLen .a)
  let q ← m.readSeq (o.srcAddr .b) (o.srcLen .b)
  return (p, q)

/-! ### Content checks (R123) -/

/-- v is a byte (R90). -/
def isByte (v : Int) : Bool := decide (0 ≤ v) && decide (v ≤ 255)

/-- v is a balanced ternary digit (R123). -/
def isTernary (v : Int) : Bool := decide (-1 ≤ v) && decide (v ≤ 1)

/-- `needBytes(V, INFO_A)`. -/
def needBytes (vs : Poly) : Except Stop Unit := need (vs.all isByte) .operandRange .a

/-- `needTernary(V, INFO_A)`. -/
def needTernary (vs : Poly) : Except Stop Unit := need (vs.all isTernary) .operandRange .a

/-! ### Finish (R124) -/

/-- The overflow check on a result sequence (R124, R308). -/
def fitsSeq : Option Poly → Bool
  | none => true
  | some vs => vs.all fits32

/-- `checkDst(S, n)` for a result sequence, where there is one (R124, R309). -/
def checkDst (par : Params) (o : Operands) (x : Dst) : Option Poly → Except Stop Unit
  | none => .ok ()
  | some vs =>
    need (decide (vs.length ≤ o.dstCap x) && inBounds par (o.dstAddr x) vs.length) .bounds
      (dstInfo x)

/-- The DMEM write of a result sequence, where there is one. -/
def dstWrite (o : Operands) (x : Dst) : Option Poly → List (Nat × Poly)
  | none => []
  | some vs => [(o.dstAddr x, vs)]

/-- The length register of a result sequence, where there is one. -/
def lenWrite (r : ResultReg) : Option Poly → List (ResultReg × Int)
  | none => []
  | some vs => [(r, (vs.length : Int))]

/-- `Finish(Dres, Eres, regs)`: overflow of D, of E, of the result registers, then the bounds of D
and of E, then the writes (R124). -/
def finish (par : Params) (o : Operands) (dres eres : Option Poly)
    (regs : List (ResultReg × Int)) : Except Stop Writes := do
  need (fitsSeq dres) .overflow .d
  need (fitsSeq eres) .overflow .e
  need (regs.all (fun w => fits32 w.2)) .overflow .none
  checkDst par o .d dres
  checkDst par o .e eres
  return { dmem := dstWrite o .d dres ++ dstWrite o .e eres
           regs := regs ++ lenWrite .dLen dres ++ lenWrite .eLen eres }

end Sys2Proof.Machine
end

