-- ==== Sys2Proof/Machine/Balanced.lean ====
section
/-! DEFINITION. Balanced reduction and the command BMOD (43_balanced.md R230, R231). -/

namespace Sys2Proof.Machine

open Sys2Proof

/-- `bmod1(c, m)` for m >= 1: the centred representative (R230; `/` and `%` of Int are floor
division and floor remainder for m > 0, R12). -/
def bmod1 (c m : Int) : Int := (c + m / 2) % m - m / 2

/-- `bmod(P, m)`: the centred representative of every coefficient, same length (R230). -/
def bmod (p : Poly) (m : Int) : Poly := p.map (fun c => bmod1 c m)

/-- The body of BMOD (R231). -/
def bmodBody (par : Params) (o : Operands) (m : Memory) : Except Stop Writes := do
  needMod o 1
  let p ← readSrc par o m .a
  finish par o (some (bmod p o.modulus)) none []

/-- BMOD: centred reduction of every coefficient (R231). -/
def execBmod (s : State) : Host.Outcome State Fault Refusal :=
  complete s (bmodBody s.params s.latch.ops s.dmem)

end Sys2Proof.Machine
end

