-- ==== Sys2Proof/Machine/Codec.lean ====
section
/-! DEFINITION. The codec commands B3ENC, B3DEC, PACK and UNPACK (44_codec.md R240 to R249). -/

namespace Sys2Proof.Machine

open Sys2Proof

/-! ### Balanced base-3 coding -/

/-- `intOf(B)`: a byte string as a big-endian integer (R240). -/
def intOf (bs : Poly) : Int := bs.foldl (fun n b => n * 256 + b) 0

/-- The number of base-b digits of n: 0 for n = 0, else the unique k >= 1 with
b^(k-1) <= n < b^k (R240, R242). The fuel n is always enough for b >= 2 (log 10). -/
def numDigits (b : Nat) : Nat → Nat → Nat
  | 0, _ => 0
  | fuel + 1, n => if n = 0 then 0 else numDigits b fuel (n / b) + 1

/-- The digits of n in base b, as many as asked for, most significant first (R240, R242). -/
def topDigits (b n k : Nat) : List Nat := (List.range k).map (fun j => n / b ^ (k - 1 - j) % b)

/-- The minimal base-b representation of n, most significant digit first; [] for 0. -/
def minDigits (b n : Nat) : List Nat := topDigits b n (numDigits b n n)

/-- `b3enc(B)` (R240). -/
def b3encode (bs : Poly) : Poly := (minDigits 3 (intOf bs).toNat).map (fun d => (d : Int) - 1)

/-- The integer that a sequence of balanced ternary digits denotes (R242). -/
def ternaryInt (ts : Poly) : Int := ts.foldl (fun n t => n * 3 + (t + 1)) 0

/-- `b3dec(T)` (R242). -/
def b3decode (ts : Poly) : Poly := (minDigits 256 (ternaryInt ts).toNat).map (fun d => (d : Int))

/-! ### Bit packing -/

/-- The w-bit field of u, most significant bit first (R245, R247). -/
def bitsOf (w u : Nat) : List Nat := (List.range w).map (fun j => u / 2 ^ (w - 1 - j) % 2)

/-- The number a bit field denotes, most significant bit first (R245, R247). -/
def ofBits (bs : List Nat) : Nat := bs.foldl (fun n b => 2 * n + b) 0

/-- The first `count` whole fields of w bits of a bit string, as numbers. -/
def fields (w : Nat) : Nat → List Nat → List Nat
  | 0, _ => []
  | count + 1, bs => ofBits (bs.take w) :: fields w count (bs.drop w)

/-- Zeros appended until the length is a multiple of 8 (R245, 90_conflicts.md C1). -/
def padToByte (bs : List Nat) : List Nat := bs ++ List.replicate ((8 - bs.length % 8) % 8) 0

/-- The bit stream of values of width w, each taken modulo 2^w (R245). -/
def valueBits (vs : Poly) (w : Nat) : List Nat := vs.flatMap (fun v => bitsOf w (v % 2 ^ w).toNat)

/-- The bit stream of a byte string (R247). -/
def byteBits (bs : Poly) : List Nat := bs.flatMap (fun b => bitsOf 8 b.toNat)

/-- `pack(V, w)` (R245). -/
def packBits (vs : Poly) (w : Nat) : Poly :=
  let bs := padToByte (valueBits vs w)
  (fields 8 (bs.length / 8) bs).map (fun n => (n : Int))

/-- `unpack(B, w)` (R247). -/
def unpackBits (bs : Poly) (w : Nat) : Poly :=
  (fields w (8 * bs.length / w) (byteBits bs)).map (fun n => (n : Int))

/-! ### The commands -/

/-- The body of B3ENC (R241). -/
def b3encBody (par : Params) (o : Operands) (m : Memory) : Except Stop Writes := do
  let bs ← readSrc par o m .a
  needBytes bs
  finish par o (some (b3encode bs)) none []

/-- B3ENC: bytes to balanced ternary digits (R241). -/
def execB3enc (s : State) : Host.Outcome State Fault Refusal :=
  complete s (b3encBody s.params s.latch.ops s.dmem)

/-- The body of B3DEC (R243). -/
def b3decBody (par : Params) (o : Operands) (m : Memory) : Except Stop Writes := do
  let ts ← readSrc par o m .a
  needTernary ts
  finish par o (some (b3decode ts)) none []

/-- B3DEC: balanced ternary digits to bytes (R243). -/
def execB3dec (s : State) : Host.Outcome State Fault Refusal :=
  complete s (b3decBody s.params s.latch.ops s.dmem)

/-- The body of PACK (R246). -/
def packBody (par : Params) (o : Operands) (m : Memory) : Except Stop Writes := do
  needW o
  let vs ← readSrc par o m .a
  finish par o (some (packBits vs o.fieldWidth)) none []

/-- PACK: values to a byte string of w-bit big-endian fields (R246). -/
def execPack (s : State) : Host.Outcome State Fault Refusal :=
  complete s (packBody s.params s.latch.ops s.dmem)

/-- The body of UNPACK (R248). -/
def unpackBody (par : Params) (o : Operands) (m : Memory) : Except Stop Writes := do
  needW o
  let bs ← readSrc par o m .a
  needBytes bs
  finish par o (some (unpackBits bs o.fieldWidth)) none []

/-- UNPACK: a byte string of w-bit fields to values (R248). -/
def execUnpack (s : State) : Host.Outcome State Fault Refusal :=
  complete s (unpackBody s.params s.latch.ops s.dmem)

end Sys2Proof.Machine
end

