-- ==== Sys2Proof/Machine/Control.lean ====
section
/-! DEFINITION. The command NOP (45_control.md R270). -/

namespace Sys2Proof.Machine

open Sys2Proof

/-- NOP: completes with no result (R270). -/
def execNop (s : State) : Host.Outcome State Fault Refusal :=
  complete s (finish s.params s.latch.ops none none [])

end Sys2Proof.Machine
end

