-- ==== Sys2Proof/Machine/ModInt.lean ====
section
/-! DEFINITION. The ModularInt commands EGCD and MODINV (40_modint.md R140 to R143). -/

namespace Sys2Proof.Machine

open Sys2Proof

/-- The recursion of R140 on at most `fuel` calls. The first argument strictly decreases (R351), so
`a + 1` calls are always enough (log 10). -/
def egcdGo : Nat → Nat → Nat → Int × Int × Int
  | 0, _, b => (b, 0, 1)
  | fuel + 1, a, b =>
    if a = 0 then (b, 0, 1)
    else
      match egcdGo fuel (b % a) a with
      | (g, y1, x1) => (g, x1 - ((b / a : Nat) : Int) * y1, y1)

/-- `egcd(a, b)`: (g, x, y) with g = gcd(a, b) = a*x + b*y (R140). -/
def egcd (a b : Nat) : Int × Int × Int := egcdGo (a + 1) a b

/-- `modinv(a, m)` for m >= 1 and, when m != 2, a >= -m (R142). The floor remainder of R12 is `%`
of Int, since m > 0. -/
def modinv (a m : Int) : Except Stop Int :=
  if m = 2 then .ok 1
  else
    match egcd (if a < 0 then a + m else a).toNat m.toNat with
    | (g, x, _) => if g = 1 then .ok (x % m) else raise .noInverse .none

/-- The body of EGCD (R141). -/
def egcdBody (par : Params) (o : Operands) : Except Stop Writes := do
  need (decide (0 ≤ s32 o.sa)) .operandRange .sa
  need (decide (0 ≤ s32 o.sb)) .operandRange .sb
  let r := egcd (s32 o.sa).toNat (s32 o.sb).toNat
  finish par o none none [(.r0, r.1), (.r1, r.2.1), (.r2, r.2.2)]

/-- EGCD: integer extended Euclid (R141). -/
def execEgcd (s : State) : Host.Outcome State Fault Refusal :=
  complete s (egcdBody s.params s.latch.ops)

/-- The body of MODINV (R143). -/
def modinvBody (par : Params) (o : Operands) : Except Stop Writes := do
  needMod o 1
  need (decide (o.modulus = 2) || decide (-o.modulus ≤ s32 o.sa)) .operandRange .sa
  let r ← modinv (s32 o.sa) o.modulus
  finish par o none none [(.r0, r)]

/-- MODINV: modular inverse of an integer (R143). -/
def execModinv (s : State) : Host.Outcome State Fault Refusal :=
  complete s (modinvBody s.params s.latch.ops)

end Sys2Proof.Machine
end

