-- ==== Sys2Proof/Machine/PolyRing.lean ====
section
/-! DEFINITION. The PolyRing commands TRIM, ADD, SUB, CONV, PMOD and DIVP (41_polyring.md R160 to
R172) and the helper functions of 00_scope.md R14. -/

namespace Sys2Proof.Machine

open Sys2Proof

/-! ### Sequences (R14) -/

/-- `zext(P, n)`: zeros on the left up to length n (R14). -/
def zext (p : Poly) (n : Nat) : Poly := List.replicate (n - p.length) 0 ++ p

/-- `trim(P)`: P without its leading zero elements (R160). -/
def trim : Poly → Poly
  | [] => []
  | c :: p => if c = 0 then trim p else c :: p

/-- `add(P, Q)` (R162). -/
def polyAdd (p q : Poly) : Poly :=
  trim (List.zipWith (fun x y => x + y) (zext p (max p.length q.length))
    (zext q (max p.length q.length)))

/-- `sub(P, Q)` (R164). -/
def polySub (p q : Poly) : Poly :=
  trim (List.zipWith (fun x y => x - y) (zext p (max p.length q.length))
    (zext q (max p.length q.length)))

/-! ### Ring multiplication (R166)

The functions named `low` work on a sequence with the CONSTANT term first, so that the fold of
R166 counts positions from the constant term (90_conflicts.md C5). -/

/-- Coefficientwise sum, the shorter sequence zero-extended. -/
def lowAdd : List Int → List Int → List Int
  | [], q => q
  | p, [] => p
  | a :: p, b :: q => (a + b) :: lowAdd p q

/-- The ordinary product. -/
def lowMul : List Int → List Int → List Int
  | [], _ => []
  | a :: p, q => lowAdd (q.map (fun b => a * b)) (0 :: lowMul p q)

/-- Add every term of degree d into degree d mod n, one block of n coefficients at a time; the
fuel `p.length` is enough for n >= 1 (log 10). -/
def lowFold (n : Nat) : Nat → List Int → List Int
  | 0, _ => List.replicate n 0
  | fuel + 1, p =>
    if p.isEmpty then List.replicate n 0
    else lowAdd (p.take n) (lowFold n fuel (p.drop n))

/-- `conv_N(P, Q)`: the product in Z[X]/(X^N - 1), exactly N coefficients, not trimmed (R166;
log 9). -/
def convN (n : Nat) (p q : Poly) : Poly :=
  let prod := lowMul p.reverse q.reverse
  (lowFold n prod.length prod).reverse

/-! ### Reduction and division (R168, R170) -/

/-- `pmod(P, m)` for m >= 1: the floor remainder of every coefficient (R168; `%` of Int for
m > 0, R12). -/
def pmod (p : Poly) (m : Int) : Poly := p.map (fun c => c % m)

/-- The division loop of R170 on at most `fuel` passes: `g` is the reduced divisor, `inv` the
inverse of its leading coefficient, `k` the length of the quotient `q`, `r` the remainder so far.
Each pass shortens `r` (R171), so `r.length + 1` passes are always enough (log 10). -/
def divLoop (g : Poly) (inv p : Int) (k : Nat) : Nat → Poly → Poly → Poly × Poly
  | 0, q, r => (q, r)
  | fuel + 1, q, r =>
    if g.length ≤ r.length then
      divLoop g inv p k fuel
        (q.set (k - 1 - (r.length - g.length)) ((r.headD 0 * inv) % p))
        (trim (pmod (polySub r
          (g.map (fun c => (r.headD 0 * inv) % p * c) ++
            List.replicate (r.length - g.length) 0)) p))
    else (q, r)

/-- `divmodp(F, G, p)` on operands already reduced and trimmed (R170, after its first line). -/
def divReduced (f1 g1 : Poly) (p : Int) : Except Stop (Poly × Poly) :=
  match g1 with
  | [] => raise .divByZero .b
  | g0 :: gs =>
    match modinv g0 p with
    | .error e => .error e
    | .ok inv =>
      if f1.length < (g0 :: gs).length then .ok ([], f1)
      else
        let k := f1.length - (g0 :: gs).length + 1
        .ok (divLoop (g0 :: gs) inv p k (f1.length + 1) (List.replicate k 0) f1)

/-- `divmodp(F, G, p)` for p >= 2 (R170). -/
def divmodp (f g : Poly) (p : Int) : Except Stop (Poly × Poly) :=
  divReduced (trim (pmod f p)) (trim (pmod g p)) p

/-! ### The commands -/

/-- The body of TRIM (R161). -/
def trimBody (par : Params) (o : Operands) (m : Memory) : Except Stop Writes := do
  let p ← readSrc par o m .a
  finish par o (some (trim p)) none []

/-- TRIM: drop leading zero coefficients (R161). -/
def execTrim (s : State) : Host.Outcome State Fault Refusal :=
  complete s (trimBody s.params s.latch.ops s.dmem)

/-- The body of ADD (R163). -/
def addBody (par : Params) (o : Operands) (m : Memory) : Except Stop Writes := do
  let x ← readSrcs par o m
  finish par o (some (polyAdd x.1 x.2)) none []

/-- ADD: polynomial addition over the integers (R163). -/
def execAdd (s : State) : Host.Outcome State Fault Refusal :=
  complete s (addBody s.params s.latch.ops s.dmem)

/-- The body of SUB (R165). -/
def subBody (par : Params) (o : Operands) (m : Memory) : Except Stop Writes := do
  let x ← readSrcs par o m
  finish par o (some (polySub x.1 x.2)) none []

/-- SUB: polynomial subtraction over the integers, D = A - B (R165). -/
def execSub (s : State) : Host.Outcome State Fault Refusal :=
  complete s (subBody s.params s.latch.ops s.dmem)

/-- The body of CONV (R167). -/
def convBody (par : Params) (o : Operands) (m : Memory) : Except Stop Writes := do
  needN par o
  let x ← readSrcs par o m
  finish par o (some (convN o.degree x.1 x.2)) none []

/-- CONV: multiplication in Z[X]/(X^N - 1) (R167). -/
def execConv (s : State) : Host.Outcome State Fault Refusal :=
  complete s (convBody s.params s.latch.ops s.dmem)

/-- The body of PMOD (R169). -/
def pmodBody (par : Params) (o : Operands) (m : Memory) : Except Stop Writes := do
  needMod o 1
  let p ← readSrc par o m .a
  finish par o (some (pmod p o.modulus)) none []

/-- PMOD: reduce every coefficient into [0, m-1] (R169). -/
def execPmod (s : State) : Host.Outcome State Fault Refusal :=
  complete s (pmodBody s.params s.latch.ops s.dmem)

/-- The body of DIVP (R172). -/
def divpBody (par : Params) (o : Operands) (m : Memory) : Except Stop Writes := do
  needMod o 2
  let x ← readSrcs par o m
  let r ← divmodp x.1 x.2 o.modulus
  finish par o (some r.1) (some r.2) []

/-- DIVP: polynomial division with remainder over Z/pZ (R172). -/
def execDivp (s : State) : Host.Outcome State Fault Refusal :=
  complete s (divpBody s.params s.latch.ops s.dmem)

end Sys2Proof.Machine
end

