-- ==== Sys2Proof/Machine/PolyInv.lean ====
section
/-! DEFINITION. The ring inversion commands INVP and INV2K (42_polyinv.md R200 to R205). -/

namespace Sys2Proof.Machine

open Sys2Proof

/-- `X^N - 1` as a sequence, for N >= 1 (R14). -/
def ringPoly (n : Nat) : Poly := [1] ++ List.replicate (n - 1) 0 ++ [-1]

/-- The loop of R200 on at most `fuel` passes. R202 item 2 bounds the passes by
max(N + 1, len(X)) + 1, so the arm for no fuel is never reached from `invpoly` (log 10). -/
def invLoop (p : Int) (n : Nat) : Nat → Poly → Poly → Poly → Poly → Except Stop Poly
  | 0, _, _, _, _ => raise .noInverse .none
  | fuel + 1, f, g, t1, t2 =>
    match g with
    | [] => raise .noInverse .none
    | [c] =>
      match modinv c p with
      | .error e => .error e
      | .ok u => .ok (zext (pmod (t2.map (fun x => u * x)) p) n)
    | g0 :: g1 :: gs =>
      match divmodp f (g0 :: g1 :: gs) p with
      | .error e => .error e
      | .ok (q, r) =>
        invLoop p n fuel (g0 :: g1 :: gs) r t2
          (trim (pmod (polySub t1 (convN n t2 q)) p))

/-- `invpoly(X, p, N)` for p >= 2 and N >= 1 (R200). -/
def invpoly (x : Poly) (p : Int) (n : Nat) : Except Stop Poly :=
  invLoop p n (max (n + 1) x.length + 2) (pmod (ringPoly n) p) (trim (pmod x p)) [] [1]

/-- The Hensel loop of R203 on at most `fuel` passes, from the current inverse `g`. -/
def henselLoop (f : Poly) (q : Int) (n : Nat) : Nat → Poly → Except Stop Poly
  | 0, _ => raise .noInverse .none
  | fuel + 1, g =>
    if trim (pmod (convN n g f) q) = [1] then .ok (bmod g q)
    else henselLoop f q n fuel (bmod (convN n g (polySub [2] (convN n g f))) q)

/-- The passes given to the Hensel loop: for q = 2^k with k at most 30 it lifts at most
ceil(log2 k) = 5 times (R205 item 1), so the arm for no fuel is never reached (log 10). -/
def henselPasses : Nat := 32

/-- `inv2k(F, q, N)` for q = 2^k, k >= 1, and N >= 1 (R203). -/
def inv2k (f : Poly) (q : Int) (n : Nat) : Except Stop Poly :=
  match invpoly f 2 n with
  | .error e => .error e
  | .ok g => henselLoop f q n henselPasses g

/-- The body of INVP (R201). -/
def invpBody (par : Params) (o : Operands) (m : Memory) : Except Stop Writes := do
  needMod o 2
  needN par o
  let x ← readSrc par o m .a
  let v ← invpoly x o.modulus o.degree
  finish par o (some v) none []

/-- INVP: inverse in Z/pZ[X]/(X^N - 1) (R201). -/
def execInvp (s : State) : Host.Outcome State Fault Refusal :=
  complete s (invpBody s.params s.latch.ops s.dmem)

/-- The body of INV2K (R204). -/
def inv2kBody (par : Params) (o : Operands) (m : Memory) : Except Stop Writes := do
  needPow2Mod o
  needN par o
  let f ← readSrc par o m .a
  let v ← inv2k f o.modulus o.degree
  finish par o (some v) none []

/-- INV2K: inverse in Z/qZ[X]/(X^N - 1) for q a power of two (R204). -/
def execInv2k (s : State) : Host.Outcome State Fault Refusal :=
  complete s (inv2kBody s.params s.latch.ops s.dmem)

end Sys2Proof.Machine
end

