-- ==== Sys2Proof/Machine/Dispatch.lean ====
section
/-! DEFINITION. `exec`, the completion step of each command: one arm per constructor of Instr
(30_encoding.md R113, R120). -/

namespace Sys2Proof.Machine

open Sys2Proof

def exec (i : Instr) (s : State) : Host.Outcome State Fault Refusal :=
  match i with
  | .nop => Sys2Proof.Machine.execNop s
  | .egcd => Sys2Proof.Machine.execEgcd s
  | .modinv => Sys2Proof.Machine.execModinv s
  | .trim => Sys2Proof.Machine.execTrim s
  | .add => Sys2Proof.Machine.execAdd s
  | .sub => Sys2Proof.Machine.execSub s
  | .conv => Sys2Proof.Machine.execConv s
  | .pmod => Sys2Proof.Machine.execPmod s
  | .divp => Sys2Proof.Machine.execDivp s
  | .invp => Sys2Proof.Machine.execInvp s
  | .inv2k => Sys2Proof.Machine.execInv2k s
  | .bmod => Sys2Proof.Machine.execBmod s
  | .b3enc => Sys2Proof.Machine.execB3enc s
  | .b3dec => Sys2Proof.Machine.execB3dec s
  | .pack => Sys2Proof.Machine.execPack s
  | .unpack => Sys2Proof.Machine.execUnpack s

end Sys2Proof.Machine
end

