-- ==== Sys2Proof/Machine/Step.lean ====
section
/-! DEFINITION. One step of the machine (10_state.md R61, R62; 20_memory.md R97). -/

namespace Sys2Proof.Machine

open Sys2Proof

/-- One step: the engine's completion of the latched command when it is the engine's turn (R61,
R112, R120), else the next host action. -/
def step (s : State) : Host.Outcome State Fault Refusal :=
  if s.enginesTurn then
    match decode s.fetch with
    | .ok i => exec i s
    | .error _ => completeIllegal s
  else s.hostStep

/-- The command of an opcode-table row placed where the next step finds it: accepted with the
operand registers as they stand (R58, R60), the engine to move next (log 4, log 14). -/
def State.withFetchWord (s : State) (nbits w : Nat) : State :=
  { (s.accept (BitVec.ofNat 32 (w % 2 ^ nbits))) with hostTurns := 0 }

end Sys2Proof.Machine
end

