-- ==== Sys2Proof/WellFormed.lean ====
section
/-! DEFINITION. What is well formed: a command, a command word (30_encoding.md R112, R116), the
implementation parameters (00_scope.md R5) and a host-script statement (30_encoding.md R118). -/

namespace Sys2Proof

/-- A command is always well formed: its word has no operand field (R111), so no bit of it can be
out of range. What a command's OPERANDS must satisfy is checked when it completes, and reported as
an error of the command (R121, R307), never as an ill-formed instruction. -/
def Instr.wellFormed (_ : Instr) : Bool := true

/-- The reserved opcode values of R116, as that rule lists them. -/
def reservedOpcode (opc : Nat) : Bool :=
  (0x03 ≤ opc && opc ≤ 0x0F) || (0x19 ≤ opc && opc ≤ 0x1F) || (0x24 ≤ opc && opc ≤ 0xFF)

/-- A command word is legal: bits [31:8] are 0 and bits [7:0] are no reserved opcode (R112, R116).
The decoder is written from the other list, the sixteen opcodes of R113. -/
def legalWord (w : Word) : Bool :=
  w.toNat / 256 == 0 && !reservedOpcode (w.toNat % 256)

/-- The constraints R5 puts on the implementation parameters, and that NMAX can read as N_MAX (R36:
a 32-bit register; log 15). -/
def Params.wellFormed (par : Params) : Bool :=
  decide (1 ≤ par.dmemWords) && decide (par.dmemWords ≤ 16384) && decide (1 ≤ par.nMax) &&
    decide (par.nMax ≤ 4294967295)

/-- A number a script may write: `enc32` is defined on [-2^31, 2^32 - 1] (R11, R118). -/
def writable (v : Int) : Bool :=
  decide (-2147483648 ≤ v) && decide (v ≤ 4294967295)

/-- A statement whose accesses the notation of R118 defines: every written number has an `enc32`,
and every DMEM word it names exists (R80). -/
def Stmt.wellFormed (par : Params) : Stmt → Bool
  | .wr _ v => writable v
  | .rd _ => true
  | .wrm i vs => decide (i + vs.length ≤ par.dmemWords) && vs.all writable
  | .rdm i n => decide (i + n ≤ par.dmemWords)
  | .go i => i.wellFormed
  | .src _ addr len => writable addr && writable len
  | .dst _ addr cap => writable addr && writable cap
  | .wait => true
  | .ack => true
  | .srst => true

end Sys2Proof
end

