-- ==== Sys2Proof/Safety.lean ====
section
/-! DEFINITION. The terms in which claims about the machine are stated: the invariant of a state, a
safe run, what a source and a destination are, and, for each command, the result the rules give it,
said WITHOUT the functions the meanings compute with (by coefficients, digits, bits and
congruences). -/

namespace Sys2Proof.Machine

open Sys2Proof

/-! ### The invariant -/

/-- An error code with an operand identifier it may be reported with (R301, R302, R305 to R310). -/
def reportable : ErrCode → Info → Bool
  | .none, .none => true
  | .illegalOpcode, .none => true
  | .noInverse, .none => true
  | .divByZero, .b => true
  | .operandRange, .mod => true
  | .operandRange, .ringN => true
  | .operandRange, .width => true
  | .operandRange, .sa => true
  | .operandRange, .sb => true
  | .operandRange, .a => true
  | .overflow, .d => true
  | .overflow, .e => true
  | .overflow, .none => true
  | .bounds, .a => true
  | .bounds, .b => true
  | .bounds, .d => true
  | .bounds, .e => true
  | _, _ => false

/-- What holds of every state a run reaches: parameters within R5's constraints; DMEM in its
canonical form, inside its size and written by whole words;
ERR and ERR_INFO a pair that a completion reports; while a command is in flight DONE, ERR and
ERR_INFO are clear and CMD is the latched word (R60); the length registers within DMEM (R124). -/
structure State.Inv (s : State) : Prop where
  params : s.params.wellFormed = true
  memory : s.dmem.wf = true
  within : s.dmem.within s.params.dmemWords = true
  words : s.dmem.wholeWords = true
  report : reportable s.err s.errInfo = true
  flight : s.busy = true →
    s.done = false ∧ s.err = .none ∧ s.errInfo = .none ∧ s.latch.cmd = s.cmd
  dLength : s.dLen.toNat ≤ s.params.dmemWords
  eLength : s.eLen.toNat ≤ s.params.dmemWords

/-- Every DMEM word has been written. -/
def State.allWritten (s : State) : Prop :=
  ∀ i < s.params.dmemWords, (s.dmem.readWord i).isSome = true

/-- A run of k steps from s is safe: it is not refused. No step faults (R300, R315), so a run stops
only where it reads a DMEM word nothing has written (R93, I2). -/
def State.safeFor (k : Nat) (s : State) : Prop := ∃ t, Host.Core.run core k s = .next t

/-! ### Operands and results -/

/-- The words of DMEM from word address `addr` hold the sequence (R91). -/
abbrev Memory.holds (m : Memory) (addr : Nat) (vs : Poly) : Prop :=
  ∀ i < vs.length, (m.readWord (addr + i)).map s32 = vs[i]?

/-- The latched source descriptor x is in bounds and names the written sequence p (R91, R92). -/
abbrev SourceIs (s : State) (x : Src) (p : Poly) : Prop :=
  p.length = s.latch.ops.srcLen x ∧
  (p.length = 0 ∨ s.latch.ops.srcAddr x + p.length ≤ s.params.dmemWords) ∧
  s.dmem.holds (s.latch.ops.srcAddr x) p

/-- The latched source descriptor x passes the end of DMEM (R92). -/
abbrev SourceOut (s : State) (x : Src) : Prop :=
  s.latch.ops.srcLen x ≠ 0 ∧
  s.params.dmemWords < s.latch.ops.srcAddr x + s.latch.ops.srcLen x

/-- The latched destination x takes a result of n words (R92, R124). -/
abbrev DestFits (s : State) (x : Dst) (n : Nat) : Prop :=
  n ≤ s.latch.ops.dstCap x ∧ (n = 0 ∨ s.latch.ops.dstAddr x + n ≤ s.params.dmemWords)

/-- Every element has an `s32` word (R11). -/
abbrev AllFit (vs : Poly) : Prop := ∀ v ∈ vs, -2147483648 ≤ v ∧ v ≤ 2147483647

/-- The byte address a lies outside the n words from word address `addr`. -/
abbrev Outside (a addr n : Nat) : Prop := a < 4 * addr ∨ 4 * (addr + n) ≤ a

/-- The state after a command that reports an error: nothing but STATUS and ERR_INFO changes
(R300, R304). -/
def State.failedWith (s : State) (code : ErrCode) (info : Info) : State :=
  { s with busy := false, done := true, err := code, errInfo := info }

/-- t is s after a success that writes the sequence d at destination D and nothing else: D_LEN is
its length, and every byte outside its words is as before (R61, R95, R114). -/
def Delivered (s t : State) (d : Poly) : Prop :=
  t = { s with
    busy := false, done := true, err := .none, errInfo := .none
    dLen := BitVec.ofNat 32 d.length, dmem := t.dmem } ∧
  t.dmem.holds (s.latch.ops.dstAddr .d) d ∧
  ∀ a, Outside a (s.latch.ops.dstAddr .d) d.length → t.dmem.readByte a = s.dmem.readByte a

/-- t is s after a success that writes q at destination D and then r at destination E (R61, R95,
R172): where the two overlap, r is left. -/
def DeliveredBoth (s t : State) (q r : Poly) : Prop :=
  t = { s with
    busy := false, done := true, err := .none, errInfo := .none
    dLen := BitVec.ofNat 32 q.length, eLen := BitVec.ofNat 32 r.length, dmem := t.dmem } ∧
  t.dmem.holds (s.latch.ops.dstAddr .e) r ∧
  (∀ i < q.length,
    (s.latch.ops.dstAddr .d + i < s.latch.ops.dstAddr .e ∨
      s.latch.ops.dstAddr .e + r.length ≤ s.latch.ops.dstAddr .d + i) →
    (t.dmem.readWord (s.latch.ops.dstAddr .d + i)).map s32 = q[i]?) ∧
  ∀ a, Outside a (s.latch.ops.dstAddr .d) q.length →
    Outside a (s.latch.ops.dstAddr .e) r.length → t.dmem.readByte a = s.dmem.readByte a

/-! ### What each command's result is -/

/-- `coef(P, k)`: the coefficient of X^k, 0 where P has none (R13). -/
def coef (p : Poly) (k : Nat) : Int := p.reverse.getD k 0

/-- The coefficient of X^k in the ordinary product of p and q. -/
def prodCoef (p q : Poly) (k : Nat) : Int :=
  ∑ i ∈ Finset.range p.length, ∑ j ∈ Finset.range q.length,
    if i + j = k then coef p i * coef q j else 0

/-- The coefficient of X^k in the product of p and q in Z[X]/(X^n - 1): the sum of R166. -/
def ringCoef (n : Nat) (p q : Poly) (k : Nat) : Int :=
  ∑ i ∈ Finset.range p.length, ∑ j ∈ Finset.range q.length,
    if (i + j) % n = k then coef p i * coef q j else 0

/-- d is p without its leading zeros (R160). -/
abbrev TrimOf (p d : Poly) : Prop :=
  p = List.replicate (p.length - d.length) 0 ++ d ∧ d.head? ≠ some 0

/-- d is the trimmed polynomial whose coefficients are those of p plus `sign` times those of q
(R162, R164). -/
abbrev SumOf (sign : Int) (p q d : Poly) : Prop :=
  d.head? ≠ some 0 ∧ d.length ≤ max p.length q.length ∧
  ∀ k < max p.length q.length, coef d k = coef p k + sign * coef q k

/-- d is the product of p and q in Z[X]/(X^n - 1), in exactly n coefficients (R166). -/
abbrev RingProductOf (n : Nat) (p q d : Poly) : Prop :=
  d.length = n ∧ ∀ k < n, coef d k = ringCoef n p q k

/-- Every element of d lies in [lo, hi] and is congruent modulo m to the element of p at its place
(R168, R230). -/
abbrev ResiduesOf (m lo hi : Int) (p d : Poly) : Prop :=
  d.length = p.length ∧ (∀ v ∈ d, lo ≤ v ∧ v ≤ hi) ∧
  ∀ i < p.length, (d.getD i 0 - p.getD i 0) % m = 0

/-- d is, in n coefficients of [lo, hi], an inverse of x in Z/mZ[X]/(X^n - 1) (R202, R205). -/
abbrev InverseOf (n : Nat) (m lo hi : Int) (x d : Poly) : Prop :=
  d.length = n ∧ (∀ v ∈ d, lo ≤ v ∧ v ≤ hi) ∧
  ∀ k < n, ringCoef n d x k % m = if k = 0 then 1 else 0

/-- q and r are the quotient and the remainder of f by g modulo p, where e is the degree of g modulo
p and its leading coefficient is a unit (R171): both trimmed, with coefficients in [0, p-1], r
shorter than g modulo p, and f = q*g + r coefficientwise modulo p. -/
abbrev QuotientOf (p : Int) (e : Nat) (f g q r : Poly) : Prop :=
  e < g.length ∧ (∀ k < g.length, e < k → coef g k % p = 0) ∧ Int.gcd (coef g e) p = 1 ∧
  q.head? ≠ some 0 ∧ r.head? ≠ some 0 ∧ r.length ≤ e ∧
  (∀ v ∈ q, 0 ≤ v ∧ v ≤ p - 1) ∧ (∀ v ∈ r, 0 ≤ v ∧ v ≤ p - 1) ∧
  ∀ k < max f.length (q.length + g.length),
    (coef f k - prodCoef q g k - coef r k) % p = 0

/-- A sequence read as the digits of a number in base b, most significant first, every element
taken with the offset `off`. -/
def numeral (b off : Int) (vs : Poly) : Int := vs.foldl (fun n v => b * n + (v + off)) 0

/-- d is the minimal balanced base-3 code of the byte string bs (R240). -/
abbrev TernaryCodeOf (bs d : Poly) : Prop :=
  (∀ b ∈ bs, 0 ≤ b ∧ b ≤ 255) ∧ (∀ t ∈ d, -1 ≤ t ∧ t ≤ 1) ∧ d.head? ≠ some (-1) ∧
  numeral 3 1 d = numeral 256 0 bs

/-- d is the minimal big-endian byte string of the balanced ternary digits ts (R242). -/
abbrev BytesOf (ts d : Poly) : Prop :=
  (∀ t ∈ ts, -1 ≤ t ∧ t ≤ 1) ∧ (∀ b ∈ d, 0 ≤ b ∧ b ≤ 255) ∧ d.head? ≠ some 0 ∧
  numeral 256 0 d = numeral 3 1 ts

/-- Bit j, counted from the most significant, of the w-bit field that holds v modulo 2^w. -/
def fieldBit (w : Nat) (v : Int) (j : Nat) : Int := v / 2 ^ (w - 1 - j) % 2

/-- d is the packing of the values vs in w-bit fields (R245): ceil(len * w / 8) bytes, bit j of the
stream being bit j mod 8 of byte j / 8, zeros after the last field. -/
abbrev PackingOf (w : Nat) (vs d : Poly) : Prop :=
  d.length = (vs.length * w + 7) / 8 ∧ (∀ b ∈ d, 0 ≤ b ∧ b ≤ 255) ∧
  ∀ j < 8 * d.length, fieldBit 8 (d.getD (j / 8) 0) (j % 8) =
    if j < vs.length * w then fieldBit w (vs.getD (j / w) 0) (j % w) else 0

/-- d is the unpacking of the byte string bs into w-bit fields (R247): floor(8 * len / w) values,
bit j of value i being bit w*i + j of the stream. -/
abbrev UnpackingOf (w : Nat) (bs d : Poly) : Prop :=
  (∀ b ∈ bs, 0 ≤ b ∧ b ≤ 255) ∧
  d.length = 8 * bs.length / w ∧ (∀ v ∈ d, 0 ≤ v ∧ v ≤ 2 ^ w - 1) ∧
  ∀ i < d.length, ∀ j < w, fieldBit w (d.getD i 0) j =
    fieldBit 8 (bs.getD ((w * i + j) / 8) 0) ((w * i + j) % 8)

/-! ### Which operands a command accepts, and its result -/

/-- RING_N holds a legal ring degree (R47). -/
abbrev DegreeOk (s : State) : Prop := 1 ≤ u32 s.latch.ops.ringN ∧ u32 s.latch.ops.ringN ≤ s.params.nMax

/-- WIDTH holds a legal field width (R48). -/
abbrev WidthOk (s : State) : Prop := 1 ≤ u32 s.latch.ops.width ∧ u32 s.latch.ops.width ≤ 31

/-- The latched scalar operands of a command are in its domain (R307, the rows on registers). -/
def paramsOk (i : Instr) (s : State) : Prop :=
  match i with
  | .nop => True
  | .egcd => 0 ≤ s32 s.latch.ops.sa ∧ 0 ≤ s32 s.latch.ops.sb
  | .modinv => 1 ≤ s32 s.latch.ops.mod ∧
      (s32 s.latch.ops.mod = 2 ∨ -s32 s.latch.ops.mod ≤ s32 s.latch.ops.sa)
  | .trim => True
  | .add => True
  | .sub => True
  | .conv => DegreeOk s
  | .pmod => 1 ≤ s32 s.latch.ops.mod
  | .divp => 2 ≤ s32 s.latch.ops.mod
  | .invp => 2 ≤ s32 s.latch.ops.mod ∧ DegreeOk s
  | .inv2k => (∃ k, 1 ≤ k ∧ s32 s.latch.ops.mod = 2 ^ k) ∧ DegreeOk s
  | .bmod => 1 ≤ s32 s.latch.ops.mod
  | .b3enc => True
  | .b3dec => True
  | .pack => WidthOk s
  | .unpack => WidthOk s

/-- The commands that read source A (R114). -/
def readsA : Instr → Bool
  | .nop => false
  | .egcd => false
  | .modinv => false
  | .trim => true
  | .add => true
  | .sub => true
  | .conv => true
  | .pmod => true
  | .divp => true
  | .invp => true
  | .inv2k => true
  | .bmod => true
  | .b3enc => true
  | .b3dec => true
  | .pack => true
  | .unpack => true

/-- The commands that read source B (R114). -/
def readsB (i : Instr) : Bool := i == .add || i == .sub || i == .conv || i == .divp

/-- The commands that write destination D and D_LEN (R114): those that read A. -/
def writesD (i : Instr) : Bool := readsA i

/-- The commands that write destination E and E_LEN (R114). -/
def writesE (i : Instr) : Bool := i == .divp

/-- The latched operand registers a command reads (R114), the others zeroed. -/
def markedOperands (i : Instr) (o : Operands) : Operands :=
  let a : Operands := { Operands.zero with
    aAddr := o.aAddr, aLen := o.aLen, dAddr := o.dAddr, dCap := o.dCap }
  let ab : Operands := { a with bAddr := o.bAddr, bLen := o.bLen }
  match i with
  | .nop => Operands.zero
  | .egcd => { Operands.zero with sa := o.sa, sb := o.sb }
  | .modinv => { Operands.zero with mod := o.mod, sa := o.sa }
  | .trim => a
  | .add => ab
  | .sub => ab
  | .conv => { ab with ringN := o.ringN }
  | .pmod => { a with mod := o.mod }
  | .divp => { ab with mod := o.mod, eAddr := o.eAddr, eCap := o.eCap }
  | .invp => { a with mod := o.mod, ringN := o.ringN }
  | .inv2k => { a with mod := o.mod, ringN := o.ringN }
  | .bmod => { a with mod := o.mod }
  | .b3enc => a
  | .b3dec => a
  | .pack => { a with width := o.width }
  | .unpack => { a with width := o.width }

/-- The D result the rules give a command that writes D alone, on operands in its domain. For INVP
this is the case of a prime modulus, where R202 says exactly when the command succeeds. -/
def Yields (i : Instr) (s : State) (d : Poly) : Prop :=
  paramsOk i s ∧
  match i with
  | .nop => False
  | .egcd => False
  | .modinv => False
  | .divp => False
  | .trim => ∃ p, SourceIs s .a p ∧ TrimOf p d
  | .add => ∃ p q, SourceIs s .a p ∧ SourceIs s .b q ∧ SumOf 1 p q d
  | .sub => ∃ p q, SourceIs s .a p ∧ SourceIs s .b q ∧ SumOf (-1) p q d
  | .conv => ∃ p q, SourceIs s .a p ∧ SourceIs s .b q ∧
      RingProductOf (u32 s.latch.ops.ringN) p q d
  | .pmod => ∃ p, SourceIs s .a p ∧
      ResiduesOf (s32 s.latch.ops.mod) 0 (s32 s.latch.ops.mod - 1) p d
  | .bmod => ∃ p, SourceIs s .a p ∧
      ResiduesOf (s32 s.latch.ops.mod) (-(s32 s.latch.ops.mod / 2))
        (s32 s.latch.ops.mod - 1 - s32 s.latch.ops.mod / 2) p d
  | .invp => ∃ x, SourceIs s .a x ∧ Nat.Prime (s32 s.latch.ops.mod).toNat ∧
      InverseOf (u32 s.latch.ops.ringN) (s32 s.latch.ops.mod) 0 (s32 s.latch.ops.mod - 1) x d
  | .inv2k => ∃ x, SourceIs s .a x ∧
      InverseOf (u32 s.latch.ops.ringN) (s32 s.latch.ops.mod) (-(s32 s.latch.ops.mod / 2))
        (s32 s.latch.ops.mod / 2 - 1) x d
  | .b3enc => ∃ bs, SourceIs s .a bs ∧ TernaryCodeOf bs d
  | .b3dec => ∃ ts, SourceIs s .a ts ∧ BytesOf ts d
  | .pack => ∃ vs, SourceIs s .a vs ∧ PackingOf (u32 s.latch.ops.width) vs d
  | .unpack => ∃ bs, SourceIs s .a bs ∧ UnpackingOf (u32 s.latch.ops.width) bs d

/-! ### The bus and resets -/

/-- The access shape R83 calls valid: four bytes, aligned, at a register's offset (R32; 0x02C is
unmapped, R85) or at the offset of one of the n words of DMEM (R86) while BUSY = 0 (R87). -/
def ValidAccess (n : Nat) (busy : Bool) (off : Offset) (size : Nat) : Prop :=
  size = 4 ∧ off.toNat % 4 = 0 ∧
  ((off.toNat ≤ 0x068 ∧ off.toNat ≠ 0x02C) ∨
    (0x10000 ≤ off.toNat ∧ off.toNat < 0x10000 + 4 * n ∧ busy = false))

/-- The offset and the size of an access (R82). -/
def Access.shape : Access → Offset × Nat
  | .read off size => (off, size)
  | .write off size _ => (off, size)

/-- The registers with access RW (R32): a bus write stores all 32 bits (R57). -/
def isOperandReg : Reg → Bool
  | .mod | .ringN | .width | .aAddr | .aLen | .bAddr | .bLen | .dAddr | .dCap | .eAddr | .eCap
  | .sa | .sb => true
  | _ => false

/-- The registers with access RO (R32): a bus write has no effect (R57). -/
def isReadOnlyReg : Reg → Bool
  | .id | .version | .dmemSize | .nmax | .errInfo | .dLen | .eLen | .r0 | .r1 | .r2 => true
  | _ => false

/-- The value the register map gives each register after a reset (R32, R341). -/
def resetValue (par : Params) : Reg → Word
  | .id => 0x4E545255#32
  | .version => 0x00010000#32
  | .dmemSize => BitVec.ofNat 32 par.dmemWords
  | .nmax => BitVec.ofNat 32 par.nMax
  | _ => 0#32

/-- A host action that resets the engine: the reset input, or a valid write to CTRL (offset 0x010)
with bit 1 set (R340). -/
def Input.resets (i : Input) : Prop :=
  i = .hardReset ∨ ∃ v : Word, Input.reaching i = some (.write 0x010#17 4 v) ∧ v.getLsbD 1 = true

end Sys2Proof.Machine
end

