-- ==== Sys2Proof/Certificates/Slice0/Obligations.lean ====
section
/-! DEFINITION. The statements for the provers. Each docstring names the rule of spec/ it
formalises; the vocabulary is that of Sys2Proof/Safety.lean. -/

open Sys2Proof Sys2Proof.Machine

/-! ### Encoding -/

/-- R113: the column `word` of the opcode map, row by row. -/
def Obligations.WordsOfTheOpcodeMapDecode : Prop :=
  decode 0x00000000#32 = .ok .nop ∧ decode 0x00000001#32 = .ok .egcd ∧
  decode 0x00000002#32 = .ok .modinv ∧ decode 0x00000010#32 = .ok .trim ∧
  decode 0x00000013#32 = .ok .conv ∧ decode 0x00000017#32 = .ok .inv2k ∧
  decode 0x00000018#32 = .ok .bmod ∧ decode 0x00000020#32 = .ok .b3enc ∧
  decode 0x00000023#32 = .ok .unpack ∧
  decode 0x00000003#32 = .error .reservedOpcode ∧ decode 0x00000099#32 = .error .reservedOpcode ∧
  decode 0x00000111#32 = .error .reservedBits

/-- R112, R113: a command is selected by exactly one word, its encoding; R112, R116: the words that
decode are exactly those that no reserved range excludes; R112, R310: any other word completes with
ILLEGAL_OPCODE and no other effect. -/
def Obligations.DecodeSelectsExactlyTheLegalWords : Prop :=
  (∀ (w : Word) (i : Instr), decode w = .ok i ↔ w = encode i) ∧
  (∀ w : Word, legalWord w = true ↔ ∃ i, decode w = .ok i) ∧
  ∀ s : State, s.busy = true → (s.hostTurns = 0 ∨ s.inputs = []) →
    legalWord s.latch.cmd = false → step s = .next (s.failedWith .illegalOpcode .none)

/-! ### The step -/

/-- R61, R120: when the engine moves, the step is the completion of the command the latched word
decodes to; and a row of the opcode table, placed by `withFetchWord`, is what the next step runs.
WHEN the engine moves (`hostTurns` 0 or no host action pending) is the model's choice of log 4, and
that `withFetchWord` stands for the accepted write of a word to CMD, completing at the very next
step, is the model's choice of log 14: no rule of the spec says either. -/
def Obligations.EnginesTurnRunsTheDecodedCommand : Prop :=
  (∀ (s : State) (i : Instr), s.busy = true → (s.hostTurns = 0 ∨ s.inputs = []) →
    decode s.latch.cmd = .ok i → step s = exec i s) ∧
  ∀ (s : State) (nbits w : Nat) (i : Instr), decodeTableWord nbits w = some i →
    step (s.withFetchWord nbits w) = exec i (s.withFetchWord nbits w)

/-- R97: when the engine does not move, the step serves the next host action in arrival order;
R345: idle with no host action pending, the machine waits. The list of host actions and the count
are the model's own (log 3, 4, 13). -/
def Obligations.HostActionsAreServedInArrivalOrder : Prop :=
  (∀ (s : State) (i : Input) (rest : List Input), s.inputs = i :: rest →
    (s.busy = false ∨ s.hostTurns ≠ 0) →
    step s = State.host { s with inputs := rest, hostTurns := s.hostTurns - 1 } i) ∧
  ∀ s : State, s.inputs = [] → s.busy = false → step s = .next s

/-- R62: unless a reset is among the host actions ordered before its completion, an accepted command
reaches its completion step after finitely many host actions, with the operands, the DMEM and the result registers of its acceptance (R87,
R94). How many is the model's own field (log 4). -/
def Obligations.AcceptedCommandReachesItsCompletion : Prop :=
  ∀ s : State, s.busy = true → (∀ i ∈ s.inputs.take s.hostTurns, ¬ Input.resets i) →
    ∃ k ≤ s.hostTurns, ∃ t, Host.Core.run core k s = .next t ∧ t.enginesTurn = true ∧
      t.latch = s.latch ∧ t.dmem = s.dmem ∧ t.cmd = s.cmd ∧ t.dLen = s.dLen ∧ t.eLen = s.eLen ∧
      t.r0 = s.r0 ∧ t.r1 = s.r1 ∧ t.r2 = s.r2

/-! ### The invariant -/

/-- The state after reset meets the invariant. -/
def Obligations.ResetMeetsTheInvariant : Prop := State.reset.Inv

/-- Every step keeps the invariant: parameters within R5's constraints, the canonical form of DMEM,
whole words inside its size, a reportable ERR and ERR_INFO, clear report flags while BUSY, lengths
within DMEM; and no step changes the parameters of R5. -/
def Obligations.EveryStepKeepsTheInvariant : Prop :=
  ∀ s t : State, s.Inv → step s = .next t → t.Inv ∧ t.params = s.params

/-! ### Resets -/

/-- R341: both resets set every register to its reset value and lower IRQ; the soft reset's write
gets OKAY and keeps DMEM. -/
def Obligations.BothResetsSetEveryRegisterToItsResetValue : Prop :=
  ∀ s : State,
    (∀ v : Word, v.getLsbD 1 = true → ∃ t, s.serve (.write 0x010#17 4 v) = .next t ∧
      (∀ r, t.readReg r = resetValue s.params r) ∧ t.irq = false ∧ t.dmem = s.dmem ∧
      t.responses = .ack :: s.responses ∧ t.inputs = s.inputs) ∧
    ∃ t, s.host .hardReset = .next t ∧ (∀ r, t.readReg r = resetValue s.params r) ∧ t.irq = false

/-- R343: a reset served while BUSY discards the running command: no completion is due any more,
DONE and ERR are clear, and a soft reset leaves every DMEM word as it was. -/
def Obligations.ResetWhileBusyDiscardsTheCommand : Prop :=
  ∀ (s t : State) (i : Input) (rest : List Input), s.busy = true → s.hostTurns ≠ 0 →
    s.inputs = i :: rest → Input.resets i → step s = .next t →
    t.busy = false ∧ t.enginesTurn = false ∧ t.done = false ∧ t.err = .none ∧
    t.dLen = 0 ∧ t.eLen = 0 ∧ t.r0 = 0 ∧ t.r1 = 0 ∧ t.r2 = 0 ∧ (i ≠ .hardReset → t.dmem = s.dmem)

/-- R342 with the model's choice of log 1: after a hardware reset no DMEM word has a value, and a
host read of any of them is refused. -/
def Obligations.HardResetLeavesNoDmemWordReadable : Prop :=
  ∀ (s : State) (i : Nat), s.params.wellFormed = true → i < s.params.dmemWords →
    ∃ t, s.host .hardReset = .next t ∧
    t.dmem.readWord i = none ∧
    t.serve (.read (BitVec.ofNat 17 (0x10000 + 4 * i)) 4) = .refused (.unwrittenDmem i)

/-- R344: what each command does on operand registers that are all 0. -/
def Obligations.ZeroOperandsSucceedOrReportTheirRange : Prop :=
  ∀ s : State, s.latch.ops = Operands.zero →
    exec .nop s = .next (s.failedWith .none .none) ∧
    (∀ i ∈ [Instr.trim, .add, .sub, .b3enc, .b3dec],
      exec i s = .next { s with busy := false, done := true, err := .none, errInfo := .none,
                                dLen := 0 }) ∧
    exec .egcd s = .next { s with busy := false, done := true, err := .none, errInfo := .none,
                                  r0 := 0, r1 := 0, r2 := 1 } ∧
    exec .conv s = .next (s.failedWith .operandRange .ringN) ∧
    (∀ i ∈ [Instr.pmod, .divp, .invp, .inv2k, .bmod, .modinv],
      exec i s = .next (s.failedWith .operandRange .mod)) ∧
    exec .pack s = .next (s.failedWith .operandRange .width) ∧
    exec .unpack s = .next (s.failedWith .operandRange .width)

/-! ### The bus -/

/-- R88: a read of a register returns its value and has no side effect; R32: the offset of each of
the 26 registers; R33 to R36: what the four constant registers read, whatever the state, for every
choice of the parameters of R5; R45 to R56: that CMD, each operand register and each result register
reads the field of the state that goes by its name, the one acceptance latches or a completion
writes. -/
def Obligations.RegisterReadsHaveNoSideEffect : Prop :=
  (Reg.offset .id = 0x000 ∧ Reg.offset .version = 0x004 ∧ Reg.offset .dmemSize = 0x008 ∧
    Reg.offset .nmax = 0x00C ∧ Reg.offset .ctrl = 0x010 ∧ Reg.offset .status = 0x014 ∧
    Reg.offset .errInfo = 0x018 ∧ Reg.offset .cmd = 0x01C ∧ Reg.offset .mod = 0x020 ∧
    Reg.offset .ringN = 0x024 ∧ Reg.offset .width = 0x028 ∧ Reg.offset .aAddr = 0x030 ∧
    Reg.offset .aLen = 0x034 ∧ Reg.offset .bAddr = 0x038 ∧ Reg.offset .bLen = 0x03C ∧
    Reg.offset .dAddr = 0x040 ∧ Reg.offset .dCap = 0x044 ∧ Reg.offset .dLen = 0x048 ∧
    Reg.offset .eAddr = 0x04C ∧ Reg.offset .eCap = 0x050 ∧ Reg.offset .eLen = 0x054 ∧
    Reg.offset .sa = 0x058 ∧ Reg.offset .sb = 0x05C ∧ Reg.offset .r0 = 0x060 ∧
    Reg.offset .r1 = 0x064 ∧ Reg.offset .r2 = 0x068) ∧
  (∀ s : State,
    (s.readReg .cmd = s.cmd ∧ s.readReg .dLen = s.dLen ∧ s.readReg .eLen = s.eLen ∧
      s.readReg .r0 = s.r0 ∧ s.readReg .r1 = s.r1 ∧ s.readReg .r2 = s.r2) ∧
    s.readReg .mod = s.ops.mod ∧ s.readReg .ringN = s.ops.ringN ∧
    s.readReg .width = s.ops.width ∧ s.readReg .aAddr = s.ops.aAddr ∧
    s.readReg .aLen = s.ops.aLen ∧ s.readReg .bAddr = s.ops.bAddr ∧
    s.readReg .bLen = s.ops.bLen ∧ s.readReg .dAddr = s.ops.dAddr ∧
    s.readReg .dCap = s.ops.dCap ∧ s.readReg .eAddr = s.ops.eAddr ∧
    s.readReg .eCap = s.ops.eCap ∧ s.readReg .sa = s.ops.sa ∧ s.readReg .sb = s.ops.sb) ∧
  (∀ (s : State) (r : Reg),
    s.serve (.read (BitVec.ofNat 17 (Reg.offset r)) 4) =
      .next { s with responses := .data (s.readReg r) :: s.responses }) ∧
  ∀ s : State, s.readReg .id = 0x4E545255#32 ∧ s.readReg .version = 0x00010000#32 ∧
    (s.params.wellFormed = true → (s.readReg .dmemSize).toNat = s.params.dmemWords ∧
      (s.readReg .nmax).toNat = s.params.nMax)

/-- R43: where STATUS reads its fields, that its reserved bits read 0, and that one write applies
its three clears together and nothing else. -/
def Obligations.StatusReadsItsFieldsAndClearsOnOnes : Prop :=
  ∀ s : State,
    ((s.readReg .status).getLsbD 0 = s.busy ∧ (s.readReg .status).getLsbD 1 = s.done ∧
      ((s.readReg .status).extractLsb' 8 4).toNat = s.err.code ∧
      (s.readReg .status).getLsbD 16 = s.cmdOvr ∧ (s.readReg .status).getLsbD 17 = s.busErr ∧
      ∀ k, (2 ≤ k ∧ k ≤ 7 ∨ 12 ≤ k ∧ k ≤ 15 ∨ 18 ≤ k) →
        (s.readReg .status).getLsbD k = false) ∧
    ∀ v : Word, s.serve (.write 0x014#17 4 v) =
      .next { s with
        done := s.done && !v.getLsbD 1, cmdOvr := s.cmdOvr && !v.getLsbD 16
        busErr := s.busErr && !v.getLsbD 17, responses := .ack :: s.responses }

/-- R301, R302, R44: number by number, what STATUS[11:8] reads for each error code and ERR_INFO for
each operand identifier, that neither reads another value, and that ERR_INFO reads 0 after an
acceptance, after a success and after a reset. -/
def Obligations.ErrorReportReadsTheNumbersOfTheTables : Prop :=
  (∀ s : State,
    (∀ row ∈ [(ErrCode.none, 0), (.illegalOpcode, 1), (.noInverse, 2), (.divByZero, 3),
        (.operandRange, 4), (.overflow, 5), (.bounds, 6)],
      s.err = row.1 → ((s.readReg .status).extractLsb' 8 4).toNat = row.2) ∧
    ((s.readReg .status).extractLsb' 8 4).toNat ≤ 6 ∧
    (∀ row ∈ [(Info.none, 0x00000000#32), (.a, 0x00000001#32), (.b, 0x00000002#32),
        (.d, 0x00000003#32), (.e, 0x00000004#32), (.mod, 0x00000008#32), (.ringN, 0x00000009#32),
        (.width, 0x0000000A#32), (.sa, 0x0000000B#32), (.sb, 0x0000000C#32)],
      s.errInfo = row.1 → s.readReg .errInfo = row.2) ∧
    (s.readReg .errInfo).toNat ∈ [0, 1, 2, 3, 4, 8, 9, 10, 11, 12]) ∧
  (∀ (s t : State) (v : Word), s.busy = false → s.serve (.write 0x01C#17 4 v) = .next t →
    t.readReg .errInfo = 0#32 ∧ (t.readReg .status).extractLsb' 8 4 = 0#4) ∧
  (∀ (i : Instr) (s t : State), exec i s = .next t → t.err = .none →
    t.readReg .errInfo = 0#32 ∧ (t.readReg .status).extractLsb' 8 4 = 0#4) ∧
  ∀ (s t : State) (i : Input), Input.resets i → s.host i = .next t →
    t.readReg .errInfo = 0#32 ∧ (t.readReg .status).extractLsb' 8 4 = 0#4

/-- R37: CTRL. -/
def Obligations.CtrlWriteResetsOrStoresTheEnable : Prop :=
  ∀ (s : State) (v : Word),
    ((s.readReg .ctrl).getLsbD 0 = s.irqEn ∧
      ∀ k, 1 ≤ k → (s.readReg .ctrl).getLsbD k = false) ∧
    (v.getLsbD 1 = false → s.serve (.write 0x010#17 4 v) =
      .next { s with irqEn := v.getLsbD 0, responses := .ack :: s.responses }) ∧
    (v.getLsbD 1 = true → ∃ t, s.serve (.write 0x010#17 4 v) = .next t ∧
      (∀ r, t.readReg r = resetValue s.params r) ∧ t.dmem = s.dmem ∧
      t.responses = .ack :: s.responses ∧ t.inputs = s.inputs)

/-- R60, R312 (and R45): a write to CMD is accepted while idle, with LATCH taking the operand registers,
and dropped with CMD_OVR set while BUSY; a read returns the last accepted word. The two scheduling
fields are the model's own (log 4). -/
def Obligations.CmdWriteIsAcceptedIdleAndDroppedBusy : Prop :=
  ∀ (s : State) (v : Word),
    (s.busy = false → ∃ t, s.serve (.write 0x01C#17 4 v) = .next t ∧
      t = { s with
        cmd := v, latch := { cmd := v, ops := s.ops }, done := false, err := .none
        errInfo := .none, busy := true, responses := .ack :: s.responses
        hostTurns := t.hostTurns, schedule := t.schedule } ∧
      t.readReg .cmd = v) ∧
    (s.busy = true → s.serve (.write 0x01C#17 4 v) =
      .next { s with cmdOvr := true, responses := .ack :: s.responses })

/-- R83, R84, R85, R87: an access that is not valid gets SLVERR with read data 0, sets BUSERR and
changes nothing else; a valid one never gets SLVERR. -/
def Obligations.ExactlyTheInvalidAccessesGetSlverr : Prop :=
  ∀ (s : State) (a : Access),
    (¬ ValidAccess s.params.dmemWords s.busy a.shape.1 a.shape.2 →
      s.serve a = .next { s with busErr := true, responses := .slverr :: s.responses } ∧
      Response.readData .slverr = some 0#32) ∧
    (ValidAccess s.params.dmemWords s.busy a.shape.1 a.shape.2 → ∀ t, s.serve a = .next t →
      ∃ r, r ≠ .slverr ∧ t.responses = r :: s.responses)

/-- R86: a DMEM word is plain storage for the host while idle: a read returns the stored word and
changes nothing, a write stores the data word, which the next read returns. -/
def Obligations.DmemWindowStoresWholeWords : Prop :=
  ∀ (s : State) (i : Nat) (v : Word), s.params.wellFormed = true → s.busy = false →
    i < s.params.dmemWords →
    (∀ w, s.dmem.readWord i = some w →
      s.serve (.read (BitVec.ofNat 17 (0x10000 + 4 * i)) 4) =
        .next { s with responses := .data w :: s.responses }) ∧
    ∃ t, s.serve (.write (BitVec.ofNat 17 (0x10000 + 4 * i)) 4 v) = .next t ∧
      t = { s with dmem := t.dmem, responses := .ack :: s.responses } ∧
      t.dmem.readWord i = some v ∧
      (∀ j, j ≠ i → t.dmem.readWord j = s.dmem.readWord j) ∧
      (∀ a, Outside a i 1 → t.dmem.readByte a = s.dmem.readByte a) ∧
      t.serve (.read (BitVec.ofNat 17 (0x10000 + 4 * i)) 4) =
        .next { t with responses := .data v :: t.responses }

/-- R57: an operand register is plain storage, BUSY or not; a write to a read-only register has no
effect and is not an error; LATCH keeps what the running command reads, so that a completion is the
same whatever the live registers hold. -/
def Obligations.OperandRegistersArePlainStorage : Prop :=
  (∀ (i : Instr) (s : State) (o : Operands),
    exec i { s with ops := o } =
      match exec i s with
      | .next t => .next { t with ops := o }
      | .fault f => .fault f
      | .refused r => .refused r) ∧
  ∀ (s : State) (r : Reg) (v : Word),
    (isOperandReg r = true → ∃ t,
      s.serve (.write (BitVec.ofNat 17 (Reg.offset r)) 4 v) = .next t ∧
      t = { s with ops := t.ops, responses := .ack :: s.responses } ∧
      t.readReg r = v ∧ ∀ r', r' ≠ r → t.readReg r' = s.readReg r') ∧
    (isReadOnlyReg r = true →
      s.serve (.write (BitVec.ofNat 17 (Reg.offset r)) 4 v) =
        .next { s with responses := .ack :: s.responses })

/-- R81: the engine decodes addr - BASE inside its window. That an access at an address outside it
leaves the engine as it is, with no response recorded, is the model's choice (log 7), resting on
R81's "the platform routes no other address to it". -/
def Obligations.OnlyTheWindowReachesTheEngine : Prop :=
  ∀ (s : State) (addr size : Nat) (v : Word),
    ((addr < Config.base ∨ Config.base + 0x20000 ≤ addr) →
      s.host (.busRead addr size) = .next s ∧ s.host (.busWrite addr size v) = .next s) ∧
    (Config.base ≤ addr → addr < Config.base + 0x20000 →
      s.host (.busRead addr size) = s.serve (.read (BitVec.ofNat 17 (addr - Config.base)) size) ∧
      s.host (.busWrite addr size v) =
        s.serve (.write (BitVec.ofNat 17 (addr - Config.base)) size v)) ∧
    Config.base % 0x20000 = 0

/-- R119: WAIT reads STATUS, goes on while it reads BUSY = 1 and ends when it reads BUSY = 0. That
WAIT is one host action that stays first in the list while it goes on is the model's choice of
log 3, and that each of its reads counts down `hostTurns` that of log 4. -/
def Obligations.WaitPollsStatusUntilIdle : Prop :=
  ∀ (s : State) (rest : List Input), s.inputs = .wait :: rest →
    (s.busy = false ∨ s.hostTurns ≠ 0) →
    step s = .next { s with
      inputs := if s.busy then .wait :: rest else rest
      hostTurns := s.hostTurns - 1
      responses := .data (s.readReg .status) :: s.responses }

/-- R59, R313: IRQ is IRQ_EN and DONE. Every completion raises it when enabled, an error like a
success; an acknowledge, the next acceptance and a reset lower it; a bus error and an overrun leave
it as it is; setting IRQ_EN while DONE = 1 raises it at once, and clearing IRQ_EN lowers it without
clearing DONE. -/
def Obligations.InterruptFollowsEnableAndDone : Prop :=
  (∀ s : State, s.irq = true ↔ s.irqEn = true ∧ s.done = true) ∧
  (∀ s t : State, s.enginesTurn = true → step s = .next t →
    t.done = true ∧ t.irqEn = s.irqEn ∧ t.irq = s.irqEn) ∧
  (∀ (s : State) (v : Word), v.getLsbD 1 = false → ∃ t, s.serve (.write 0x010#17 4 v) = .next t ∧
    t.done = s.done ∧ t.irq = (v.getLsbD 0 && s.done)) ∧
  (∀ (s t : State) (v : Word), v.getLsbD 1 = true → s.serve (.write 0x014#17 4 v) = .next t →
    t.irq = false ∧ t.irqEn = s.irqEn) ∧
  (∀ (s t : State) (v : Word), s.busy = false → s.serve (.write 0x01C#17 4 v) = .next t →
    t.irq = false) ∧
  (∀ (s t : State) (i : Input), Input.resets i → s.host i = .next t → t.irq = false) ∧
  (∀ (s t : State) (a : Access), ¬ ValidAccess s.params.dmemWords s.busy a.shape.1 a.shape.2 →
    s.serve a = .next t → t.irq = s.irq) ∧
  ∀ (s t : State) (v : Word), s.busy = true → s.serve (.write 0x01C#17 4 v) = .next t →
    t.irq = s.irq

/-! ### Whole-machine rules -/

/-- R41, R42: CMD_OVR and BUSERR, once set, are cleared only by a write to STATUS with their bit set
or by a reset; no acceptance and no completion clears them. -/
def Obligations.OverrunAndBusErrorFlagsAreSticky : Prop :=
  ∀ s t : State, step s = .next t →
    (s.busErr = true → t.busErr = false → ∃ i rest, s.inputs = i :: rest ∧
      (Input.resets i ∨
        ∃ v : Word, Input.reaching i = some (.write 0x014#17 4 v) ∧ v.getLsbD 17 = true)) ∧
    (s.cmdOvr = true → t.cmdOvr = false → ∃ i rest, s.inputs = i :: rest ∧
      (Input.resets i ∨
        ∃ v : Word, Input.reaching i = some (.write 0x014#17 4 v) ∧ v.getLsbD 16 = true))

/-- R60: the engine becomes busy only by accepting a write to CMD, with the operand registers of
that moment latched and the report flags cleared. -/
def Obligations.BusyRisesOnlyByAcceptance : Prop :=
  ∀ s t : State, s.busy = false → step s = .next t → t.busy = true →
    ∃ i rest, ∃ v : Word, s.inputs = i :: rest ∧
      Input.reaching i = some (.write 0x01C#17 4 v) ∧ t.cmd = v ∧ t.latch.cmd = v ∧
      t.latch.ops = s.ops ∧ t.ops = s.ops ∧ t.done = false ∧ t.err = .none ∧
      t.errInfo = .none ∧ t.dmem = s.dmem

/-- R58, R87: while a command is in flight nothing changes LATCH, DMEM or a result register. -/
def Obligations.LatchAndDmemAreFixedWhileBusy : Prop :=
  ∀ s t : State, s.busy = true → step s = .next t → t.busy = true →
    t.latch = s.latch ∧ t.cmd = s.cmd ∧ t.dmem = s.dmem ∧ t.dLen = s.dLen ∧ t.eLen = s.eLen ∧
    t.r0 = s.r0 ∧ t.r1 = s.r1 ∧ t.r2 = s.r2

/-- R80, R86, R95, R341: DMEM changes only by a completion, by a valid host write to a word while
idle, or by a hardware reset. -/
def Obligations.DmemChangesOnlyByCompletionHostWriteOrHardReset : Prop :=
  ∀ s t : State, step s = .next t → t.dmem ≠ s.dmem →
    (s.enginesTurn = true ∧ t.err = .none ∧ t.done = true) ∨
    ∃ i rest, s.inputs = i :: rest ∧
      (i = .hardReset ∨ (s.busy = false ∧ ∃ (off : Offset) (v : Word),
        Input.reaching i = some (.write off 4 v) ∧ 0x10000 ≤ off.toNat ∧
        t.dmem = s.dmem.writeWord ((off.toNat - 0x10000) / 4) v))

/-- R93 with the recommended treatment of I2 (log 1), R300, R315: a step never faults, and it is
refused only where the machine would read a DMEM word nothing has written: a word of a source of
the command that completes, or the word of a host read while idle. -/
def Obligations.StepStopsOnlyAtAnUnwrittenWord : Prop :=
  ∀ s : State, (∀ f, step s ≠ .fault f) ∧
    ∀ r, step s = .refused r → ∃ w, r = .unwrittenDmem w ∧ w < s.params.dmemWords ∧
      s.dmem.readWord w = none ∧
      ((s.enginesTurn = true ∧ ∃ i, decode s.latch.cmd = .ok i ∧
          ((readsA i = true ∧ s.latch.ops.srcAddr .a ≤ w ∧
              w < s.latch.ops.srcAddr .a + s.latch.ops.srcLen .a) ∨
            (readsB i = true ∧ s.latch.ops.srcAddr .b ≤ w ∧
              w < s.latch.ops.srcAddr .b + s.latch.ops.srcLen .b))) ∨
        (s.busy = false ∧ ∃ i rest, s.inputs = i :: rest ∧
          Input.reaching i = some (.read (BitVec.ofNat 17 (0x10000 + 4 * w)) 4)))

/-- Once every DMEM word is written, a run with no hardware reset ahead of it goes on for ever. That
an unwritten word would stop it is the model's choice between the treatments of I2 (log 1). -/
def Obligations.RunsOverWrittenDmemAreSafe : Prop :=
  ∀ s : State, s.allWritten → (∀ i ∈ s.inputs, i ≠ .hardReset) → ∀ k, s.safeFor k

/-- Once every DMEM word is written, a step with no hardware reset ahead of it answers a next state,
in which every DMEM word is still written and no hardware reset is ahead. That an unwritten word
would stop it is the model's choice between the treatments of I2 (log 1). -/
def Obligations.StepsOverWrittenDmemGoOnAndKeepItWritten : Prop :=
  ∀ s : State, s.allWritten → (∀ i ∈ s.inputs, i ≠ .hardReset) →
    ∃ t, step s = .next t ∧ t.allWritten ∧ ∀ i ∈ t.inputs, i ≠ .hardReset

/-! ### What every command leaves alone -/

/-- R114: a command reads only its marked operand registers (zeroing the others changes nothing but
the zeroed copies), and a completion changes only STATUS, ERR_INFO and the marked results: every
other register and, on success, every byte outside the result words is as before. -/
def Obligations.CommandsReadAndWriteOnlyTheirMarkedRegisters : Prop :=
  (∀ (i : Instr) (s : State),
    exec i { s with latch := { s.latch with ops := markedOperands i s.latch.ops } } =
      match exec i s with
      | .next t => .next { t with latch := { t.latch with ops := markedOperands i t.latch.ops } }
      | .fault f => .fault f
      | .refused r => .refused r) ∧
  ∀ (i : Instr) (s t : State), exec i s = .next t →
    t = { s with
      busy := false, done := true, err := t.err, errInfo := t.errInfo
      dLen := if writesD i then t.dLen else s.dLen
      eLen := if writesE i then t.eLen else s.eLen
      r0 := if i = .egcd ∨ i = .modinv then t.r0 else s.r0
      r1 := if i = .egcd then t.r1 else s.r1
      r2 := if i = .egcd then t.r2 else s.r2
      dmem := if writesD i then t.dmem else s.dmem } ∧
    (t.err = .none → ∀ a,
      (writesD i = true → Outside a (s.latch.ops.dstAddr .d) t.dLen.toNat) →
      (writesE i = true → Outside a (s.latch.ops.dstAddr .e) t.eLen.toNat) →
      t.dmem.readByte a = s.dmem.readByte a)

/-- R304: a command that reports an error changes nothing but STATUS and ERR_INFO. -/
def Obligations.FailedCommandChangesOnlyTheReport : Prop :=
  ∀ (i : Instr) (s t : State), exec i s = .next t → t.err ≠ .none →
    t = { s with busy := false, done := true, err := t.err, errInfo := t.errInfo }

/-- R58, R94, R120: on one engine (R5: the same parameters), the outcome of a command is a function of
its latched operands and of the DMEM words its sources name. -/
def Obligations.OutcomeDependsOnlyOnTheNamedWords : Prop :=
  ∀ (i : Instr) (s s' t : State), s'.params = s.params → s'.latch.ops = s.latch.ops →
    (readsA i = true → ∀ k < s.latch.ops.srcLen .a,
      s'.dmem.readWord (s.latch.ops.srcAddr .a + k) =
        s.dmem.readWord (s.latch.ops.srcAddr .a + k)) →
    (readsB i = true → ∀ k < s.latch.ops.srcLen .b,
      s'.dmem.readWord (s.latch.ops.srcAddr .b + k) =
        s.dmem.readWord (s.latch.ops.srcAddr .b + k)) →
    exec i s = .next t → ∃ t', exec i s' = .next t' ∧ t'.err = t.err ∧ t'.errInfo = t.errInfo ∧
      (t.err = .none →
        (writesD i = true → t'.dLen = t.dLen ∧ ∀ k < t.dLen.toNat,
          t'.dmem.readWord (s.latch.ops.dstAddr .d + k) =
            t.dmem.readWord (s.latch.ops.dstAddr .d + k)) ∧
        (writesE i = true → t'.eLen = t.eLen ∧ ∀ k < t.eLen.toNat,
          t'.dmem.readWord (s.latch.ops.dstAddr .e + k) =
            t.dmem.readWord (s.latch.ops.dstAddr .e + k)) ∧
        ((i = .egcd ∨ i = .modinv) → t'.r0 = t.r0) ∧
        (i = .egcd → t'.r1 = t.r1 ∧ t'.r2 = t.r2))

/-- R61, R301, R302: a command whose in-bounds sources are written completes, and it reports an
error code with an operand identifier that goes with it. The condition on the sources is the
model's choice of log 1. -/
def Obligations.EveryCommandCompletesOnWrittenSources : Prop :=
  ∀ (i : Instr) (s : State),
    (readsA i = true → SourceOut s .a ∨ ∃ p, SourceIs s .a p) →
    (readsB i = true → SourceOut s .b ∨ ∃ q, SourceIs s .b q) →
    ∃ t, exec i s = .next t ∧ t.busy = false ∧ t.done = true ∧
      reportable t.err t.errInfo = true

/-! ### Errors -/

/-- R307, row by row; the order of the rows of one command is that of R303. -/
def Obligations.OperandRangeIsReportedRowByRow : Prop :=
  (∀ s : State, s32 s.latch.ops.sa < 0 →
    exec .egcd s = .next (s.failedWith .operandRange .sa)) ∧
  (∀ s : State, 0 ≤ s32 s.latch.ops.sa → s32 s.latch.ops.sb < 0 →
    exec .egcd s = .next (s.failedWith .operandRange .sb)) ∧
  (∀ s : State, s32 s.latch.ops.mod < 1 → ∀ i ∈ [Instr.modinv, .pmod, .bmod],
    exec i s = .next (s.failedWith .operandRange .mod)) ∧
  (∀ s : State, 1 ≤ s32 s.latch.ops.mod → s32 s.latch.ops.mod ≠ 2 →
    s32 s.latch.ops.sa < -s32 s.latch.ops.mod →
    exec .modinv s = .next (s.failedWith .operandRange .sa)) ∧
  (∀ s : State, ¬ DegreeOk s → exec .conv s = .next (s.failedWith .operandRange .ringN)) ∧
  (∀ s : State, s32 s.latch.ops.mod < 2 → ∀ i ∈ [Instr.divp, .invp],
    exec i s = .next (s.failedWith .operandRange .mod)) ∧
  (∀ s : State, 2 ≤ s32 s.latch.ops.mod → ¬ DegreeOk s →
    exec .invp s = .next (s.failedWith .operandRange .ringN)) ∧
  (∀ s : State, (¬ ∃ k, 1 ≤ k ∧ s32 s.latch.ops.mod = 2 ^ k) →
    exec .inv2k s = .next (s.failedWith .operandRange .mod)) ∧
  (∀ s : State, (∃ k, 1 ≤ k ∧ s32 s.latch.ops.mod = 2 ^ k) → ¬ DegreeOk s →
    exec .inv2k s = .next (s.failedWith .operandRange .ringN)) ∧
  (∀ s : State, ¬ WidthOk s → ∀ i ∈ [Instr.pack, .unpack],
    exec i s = .next (s.failedWith .operandRange .width)) ∧
  (∀ (s : State) (vs : Poly), SourceIs s .a vs → (∃ v ∈ vs, v < 0 ∨ 255 < v) →
    exec .b3enc s = .next (s.failedWith .operandRange .a)) ∧
  (∀ (s : State) (vs : Poly), WidthOk s → SourceIs s .a vs → (∃ v ∈ vs, v < 0 ∨ 255 < v) →
    exec .unpack s = .next (s.failedWith .operandRange .a)) ∧
  ∀ (s : State) (vs : Poly), SourceIs s .a vs → (∃ v ∈ vs, v < -1 ∨ 1 < v) →
    exec .b3dec s = .next (s.failedWith .operandRange .a)

/-- R309: a source that passes the end of DMEM, A before B, after the scalar operands (R303); a
result longer than its capacity or passing the end of DMEM, D before E (R124). That B is reported
with A only in bounds, its words written or not, is the model's reading of R122 and R303 (DEDUCED,
log 2). -/
def Obligations.BoundsAreReportedForSourcesAndDestinations : Prop :=
  (∀ (i : Instr) (s : State), readsA i = true → paramsOk i s → SourceOut s .a →
    exec i s = .next (s.failedWith .bounds .a)) ∧
  (∀ (i : Instr) (s : State), readsB i = true → paramsOk i s → ¬ SourceOut s .a →
    SourceOut s .b → exec i s = .next (s.failedWith .bounds .b)) ∧
  (∀ (i : Instr) (s : State) (d : Poly), i ≠ .invp → i ≠ .inv2k → Yields i s d → AllFit d →
    ¬ DestFits s .d d.length → exec i s = .next (s.failedWith .bounds .d)) ∧
  (∀ (s : State) (x v : Poly), SourceIs s .a x → ¬ DestFits s .d (u32 s.latch.ops.ringN) →
    (paramsOk .invp s → invpoly x (s32 s.latch.ops.mod) (u32 s.latch.ops.ringN) = .ok v →
      exec .invp s = .next (s.failedWith .bounds .d)) ∧
    (paramsOk .inv2k s → inv2k x (s32 s.latch.ops.mod) (u32 s.latch.ops.ringN) = .ok v →
      exec .inv2k s = .next (s.failedWith .bounds .d))) ∧
  ∀ (s : State) (f g q r : Poly) (e : Nat), 2 ≤ s32 s.latch.ops.mod → SourceIs s .a f →
    SourceIs s .b g → QuotientOf (s32 s.latch.ops.mod) e f g q r →
    (¬ DestFits s .d q.length → exec .divp s = .next (s.failedWith .bounds .d)) ∧
    (DestFits s .d q.length → ¬ DestFits s .e r.length →
      exec .divp s = .next (s.failedWith .bounds .e))

/-- R308: a sum, difference or folded product that does not fit is reported and never written, and
no other command reports OVERFLOW. -/
def Obligations.OverflowIsReportedByAddSubConvOnly : Prop :=
  (∀ (i : Instr) (s : State) (d : Poly), i = .add ∨ i = .sub ∨ i = .conv → Yields i s d →
    ¬ AllFit d → exec i s = .next (s.failedWith .overflow .d)) ∧
  ∀ (i : Instr) (s t : State), exec i s = .next t → t.err = .overflow →
    (i = .add ∨ i = .sub ∨ i = .conv) ∧ t.errInfo = .d

/-- R306: DIV_BY_ZERO is reported by DIVP exactly when B is zero modulo p, and by no other
command. -/
def Obligations.DivisionByZeroIsReportedByDivpOnly : Prop :=
  (∀ (s : State) (f g : Poly), 2 ≤ s32 s.latch.ops.mod → SourceIs s .a f → SourceIs s .b g →
    (∀ c ∈ g, c % s32 s.latch.ops.mod = 0) →
    exec .divp s = .next (s.failedWith .divByZero .b)) ∧
  ∀ (i : Instr) (s t : State), exec i s = .next t → t.err = .divByZero →
    i = .divp ∧ t.errInfo = .b ∧
      ∀ g, SourceIs s .b g → ∀ c ∈ g, c % s32 s.latch.ops.mod = 0

/-- R305, for MODINV, DIVP, INVP with a prime modulus and INV2K: NO_INVERSE is reported where there is
no inverse; and R202 item 4 with R200, for INVP with every modulus, composite ones too: NO_INVERSE
is reported for an input that is zero modulo p, and for one whose highest coefficient that is
nonzero modulo p is no unit modulo p, even where the input is a unit of the ring. -/
def Obligations.NoInverseIsReportedWhereNoneExists : Prop :=
  (∀ s : State, paramsOk .modinv s → s32 s.latch.ops.mod ≠ 2 →
    Int.gcd (s32 s.latch.ops.sa) (s32 s.latch.ops.mod) ≠ 1 →
    exec .modinv s = .next (s.failedWith .noInverse .none)) ∧
  (∀ (s : State) (f g : Poly) (e : Nat), paramsOk .divp s → SourceIs s .a f → SourceIs s .b g →
    e < g.length → (∀ k < g.length, e < k → coef g k % s32 s.latch.ops.mod = 0) →
    coef g e % s32 s.latch.ops.mod ≠ 0 → Int.gcd (coef g e) (s32 s.latch.ops.mod) ≠ 1 →
    exec .divp s = .next (s.failedWith .noInverse .none)) ∧
  (∀ (s : State) (x : Poly), paramsOk .invp s → SourceIs s .a x →
    Nat.Prime (s32 s.latch.ops.mod).toNat →
    (∀ d, ¬ InverseOf (u32 s.latch.ops.ringN) (s32 s.latch.ops.mod) 0
      (s32 s.latch.ops.mod - 1) x d) →
    exec .invp s = .next (s.failedWith .noInverse .none)) ∧
  (∀ (s : State) (x : Poly), paramsOk .inv2k s → SourceIs s .a x →
    (∀ d, ¬ InverseOf (u32 s.latch.ops.ringN) 2 0 1 x d) →
    exec .inv2k s = .next (s.failedWith .noInverse .none)) ∧
  (∀ (s : State) (x : Poly), paramsOk .invp s → SourceIs s .a x →
    (∀ c ∈ x, c % s32 s.latch.ops.mod = 0) →
    exec .invp s = .next (s.failedWith .noInverse .none)) ∧
  ∀ (s : State) (x : Poly) (e : Nat), paramsOk .invp s → SourceIs s .a x → e < x.length →
    (∀ k < x.length, e < k → coef x k % s32 s.latch.ops.mod = 0) →
    coef x e % s32 s.latch.ops.mod ≠ 0 → Int.gcd (coef x e) (s32 s.latch.ops.mod) ≠ 1 →
    exec .invp s = .next (s.failedWith .noInverse .none)

/-! ### What each command does -/

/-- R270: NOP completes and changes nothing but STATUS and ERR_INFO. -/
def Obligations.NopCompletesWithNoOtherEffect : Prop :=
  ∀ s : State, exec .nop s =
    .next { s with busy := false, done := true, err := .none, errInfo := .none }

/-- R140: egcd is the recursion of the rule, and it returns the greatest common divisor with a
Bezout pair. -/
def Obligations.EgcdFollowsItsRecursion : Prop :=
  (∀ b : Nat, egcd 0 b = ((b : Int), 0, 1)) ∧
  (∀ (a b : Nat) (g y1 x1 : Int), 0 < a → egcd (b % a) a = (g, y1, x1) →
    egcd a b = (g, x1 - ((b / a : Nat) : Int) * y1, y1)) ∧
  ∀ (a b : Nat) (g x y : Int), egcd a b = (g, x, y) →
    g = (Nat.gcd a b : Int) ∧ (a : Int) * x + (b : Int) * y = g

/-- R141: EGCD writes gcd(a, b) and a Bezout pair, the pair of R140, within the bounds the rule
gives. -/
def Obligations.EgcdWritesGcdAndBezoutPair : Prop :=
  ∀ s : State, 0 ≤ s32 s.latch.ops.sa → 0 ≤ s32 s.latch.ops.sb →
    ∃ x y : Int,
      egcd (s32 s.latch.ops.sa).toNat (s32 s.latch.ops.sb).toNat =
        ((Int.gcd (s32 s.latch.ops.sa) (s32 s.latch.ops.sb) : Int), x, y) ∧
      s32 s.latch.ops.sa * x + s32 s.latch.ops.sb * y =
        (Int.gcd (s32 s.latch.ops.sa) (s32 s.latch.ops.sb) : Int) ∧
      |x| ≤ max 1 (s32 s.latch.ops.sb) ∧ |y| ≤ max 1 (s32 s.latch.ops.sa) ∧
      ∃ t, exec .egcd s = .next t ∧
        t = { s with busy := false, done := true, err := .none, errInfo := .none
                     r0 := t.r0, r1 := t.r1, r2 := t.r2 } ∧
        s32 t.r0 = (Int.gcd (s32 s.latch.ops.sa) (s32 s.latch.ops.sb) : Int) ∧
        s32 t.r1 = x ∧ s32 t.r2 = y

/-- R143: MODINV writes the inverse of a modulo m in [0, m-1]; for m = 2 it writes 1 for every a. -/
def Obligations.ModinvWritesTheInverse : Prop :=
  ∀ s : State, paramsOk .modinv s →
    (s32 s.latch.ops.mod = 2 → exec .modinv s = .next { s with
      busy := false, done := true, err := .none, errInfo := .none, r0 := 1#32 }) ∧
    (s32 s.latch.ops.mod ≠ 2 → Int.gcd (s32 s.latch.ops.sa) (s32 s.latch.ops.mod) = 1 →
      ∃ t, exec .modinv s = .next t ∧
        t = { s with busy := false, done := true, err := .none, errInfo := .none, r0 := t.r0 } ∧
        0 ≤ s32 t.r0 ∧ s32 t.r0 < s32 s.latch.ops.mod ∧
        (s32 t.r0 * s32 s.latch.ops.sa - 1) % s32 s.latch.ops.mod = 0)

/-- R161, R163, R165: TRIM, ADD and SUB write the trimmed source, sum or difference. -/
def Obligations.TrimAddSubWriteTheTrimmedResult : Prop :=
  ∀ (i : Instr) (s : State) (d : Poly), i = .trim ∨ i = .add ∨ i = .sub → Yields i s d →
    AllFit d → DestFits s .d d.length → ∃ t, exec i s = .next t ∧ Delivered s t d

/-- R166, R167: CONV writes the product in Z[X]/(X^N - 1), in exactly N coefficients. -/
def Obligations.ConvWritesTheRingProduct : Prop :=
  ∀ (s : State) (d : Poly), Yields .conv s d → AllFit d → DestFits s .d d.length →
    ∃ t, exec .conv s = .next t ∧ Delivered s t d

/-- R169, R231: PMOD and BMOD write the residues in [0, m-1] and the centred residues. -/
def Obligations.PmodBmodWriteTheirResidues : Prop :=
  ∀ (i : Instr) (s : State) (d : Poly), i = .pmod ∨ i = .bmod → Yields i s d →
    DestFits s .d d.length → ∃ t, exec i s = .next t ∧ Delivered s t d

/-- R171, R172: DIVP writes the quotient at D and the remainder at E. -/
def Obligations.DivpWritesQuotientAndRemainder : Prop :=
  ∀ (s : State) (f g q r : Poly) (e : Nat), paramsOk .divp s → SourceIs s .a f →
    SourceIs s .b g → QuotientOf (s32 s.latch.ops.mod) e f g q r → DestFits s .d q.length →
    DestFits s .e r.length → ∃ t, exec .divp s = .next t ∧ DeliveredBoth s t q r

/-- R202 items 1 and 4: for a prime modulus INVP writes THE inverse whenever there is one. -/
def Obligations.InvpWritesTheInverseModuloAPrime : Prop :=
  ∀ (s : State) (d : Poly), Yields .invp s d → DestFits s .d d.length →
    ∃ t, exec .invp s = .next t ∧ Delivered s t d

/-- R202 items 1, 2 and 4, for every modulus, composite ones too: what a successful INVP writes is an
inverse of its input, in N coefficients of [0, p-1]; and on a written source with legal scalar
operands INVP completes, either so, or with NO_INVERSE, or with BOUNDS on a destination that does
not take N words. -/
def Obligations.InvpNeverWritesAWrongInverse : Prop :=
  (∀ (s t : State) (x : Poly), SourceIs s .a x → exec .invp s = .next t → t.err = .none →
    ∃ d, Delivered s t d ∧
      InverseOf (u32 s.latch.ops.ringN) (s32 s.latch.ops.mod) 0 (s32 s.latch.ops.mod - 1) x d) ∧
  ∀ (s : State) (x : Poly), paramsOk .invp s → SourceIs s .a x → ∃ t, exec .invp s = .next t ∧
    ((∃ d, Delivered s t d ∧
        InverseOf (u32 s.latch.ops.ringN) (s32 s.latch.ops.mod) 0 (s32 s.latch.ops.mod - 1) x d) ∨
      t = s.failedWith .noInverse .none ∨
      (¬ DestFits s .d (u32 s.latch.ops.ringN) ∧ t = s.failedWith .bounds .d))

/-- R202 item 3: an input that is a nonzero constant modulo p, a unit, is inverted at once, for
every modulus; and, for every modulus, composite ones too, an input with one coefficient that is
nonzero modulo p, a unit at X^j, is inverted to the inverse unit at X^-j (R200, R202 items 1 and
6). -/
def Obligations.InvpInvertsConstants : Prop :=
  (∀ (s : State) (x : Poly), paramsOk .invp s → SourceIs s .a x → 0 < x.length →
    (∀ k < x.length, 1 ≤ k → coef x k % s32 s.latch.ops.mod = 0) →
    Int.gcd (coef x 0) (s32 s.latch.ops.mod) = 1 →
    DestFits s .d (u32 s.latch.ops.ringN) →
    ∃ (t : State) (u : Int), exec .invp s = .next t ∧
      0 ≤ u ∧ u < s32 s.latch.ops.mod ∧ (u * coef x 0 - 1) % s32 s.latch.ops.mod = 0 ∧
      Delivered s t (List.replicate (u32 s.latch.ops.ringN - 1) 0 ++ [u])) ∧
  ∀ (s : State) (x : Poly) (j : Nat), paramsOk .invp s → SourceIs s .a x → j < x.length →
    (∀ k < x.length, k ≠ j → coef x k % s32 s.latch.ops.mod = 0) →
    Int.gcd (coef x j) (s32 s.latch.ops.mod) = 1 →
    DestFits s .d (u32 s.latch.ops.ringN) →
    ∃ (t : State) (d : Poly) (u : Int), exec .invp s = .next t ∧ Delivered s t d ∧
      0 ≤ u ∧ u < s32 s.latch.ops.mod ∧ (u * coef x j - 1) % s32 s.latch.ops.mod = 0 ∧
      d.length = u32 s.latch.ops.ringN ∧
      ∀ k < u32 s.latch.ops.ringN,
        coef d k = if (k + j) % u32 s.latch.ops.ringN = 0 then u else 0

/-- R204, R205: for q a power of two INV2K writes THE balanced inverse modulo q whenever there is
one. -/
def Obligations.Inv2kWritesTheBalancedInverse : Prop :=
  ∀ (s : State) (d : Poly), Yields .inv2k s d → DestFits s .d d.length →
    ∃ t, exec .inv2k s = .next t ∧ Delivered s t d

/-- R205 items 1 and 2: from an inverse modulo 2 the lifting ends with the balanced inverse modulo
2^k, for every k up to 30. -/
def Obligations.HenselLiftingReachesTheInverse : Prop :=
  ∀ (f g : Poly) (k n : Nat), 1 ≤ k → k ≤ 30 → 1 ≤ n → invpoly f 2 n = .ok g →
    ∃ v, inv2k f (2 ^ k) n = .ok v ∧
      InverseOf n (2 ^ k) (-(2 ^ k / 2)) (2 ^ k / 2 - 1) f v

/-- R241, R243: B3ENC and B3DEC write the minimal balanced ternary code and the minimal byte
string. -/
def Obligations.TernaryCodecWritesMinimalCodes : Prop :=
  ∀ (i : Instr) (s : State) (d : Poly), i = .b3enc ∨ i = .b3dec → Yields i s d →
    DestFits s .d d.length → ∃ t, exec i s = .next t ∧ Delivered s t d

/-- R246, R248: PACK and UNPACK write the bytes and the fields of the bit stream. -/
def Obligations.PackUnpackMoveEveryBit : Prop :=
  ∀ (i : Instr) (s : State) (d : Poly), i = .pack ∨ i = .unpack → Yields i s d →
    DestFits s .d d.length → ∃ t, exec i s = .next t ∧ Delivered s t d

/-! ### Laws of the functions -/

/-- R244: the round trips of the base-3 coding; a byte string comes back whole exactly when it has
no leading zero byte. -/
def Obligations.TernaryCodecRoundTrips : Prop :=
  (∀ bs : Poly, (∀ b ∈ bs, 0 ≤ b ∧ b ≤ 255) → b3decode (b3encode bs) = trim bs ∧
    (b3decode (b3encode bs) = bs ↔ bs.head? ≠ some 0)) ∧
  ∀ ts : Poly, (∀ t ∈ ts, -1 ≤ t ∧ t ≤ 1) →
    b3encode (b3decode ts) = ts.dropWhile (fun t => t == -1)

/-- R249: the round trips of the bit packing, all four items. -/
def Obligations.BitPackingRoundTrips : Prop :=
  (∀ (w : Nat) (vs : Poly), 8 ≤ w → w ≤ 31 → (∀ v ∈ vs, 0 ≤ v ∧ v < 2 ^ w) →
    unpackBits (packBits vs w) w = vs) ∧
  (∀ (w : Nat) (vs : Poly), 1 ≤ w → w ≤ 7 → (∀ v ∈ vs, 0 ≤ v ∧ v < 2 ^ w) →
    unpackBits (packBits vs w) w =
      vs ++ List.replicate ((8 * ((vs.length * w + 7) / 8) - vs.length * w) / w) 0) ∧
  (∀ (w : Nat) (vs : Poly), 1 ≤ w → w ≤ 31 →
    (unpackBits (packBits vs w) w).take vs.length = vs.map (fun v => v % 2 ^ w)) ∧
  ∀ bs : Poly, (∀ b ∈ bs, 0 ≤ b ∧ b ≤ 255) → packBits (unpackBits bs 8) 8 = bs

/-- R167: the ring product is commutative. -/
def Obligations.RingProductIsCommutative : Prop :=
  ∀ (n : Nat) (p q : Poly), 1 ≤ n → convN n p q = convN n q p

/-- The source's property P2 (R163): adding what was subtracted gives the trimmed polynomial. -/
def Obligations.AddUndoesSub : Prop :=
  ∀ p q : Poly, polyAdd (polySub p q) q = trim p ∧ polySub (polyAdd p q) q = trim p ∧
    trim (polyAdd p (polySub p p)) = trim p

/-- R351: the fuel of each loop is enough: more of it changes nothing (EGCD and MODINV, the
division loop, the digit counts). -/
def Obligations.ArithmeticLoopsEndWithinTheirFuel : Prop :=
  (∀ a b k : Nat, egcdGo (a + 1 + k) a b = egcd a b) ∧
  (∀ (g0 inv p : Int) (gs q r : Poly) (n k : Nat), 2 ≤ p → (g0 * inv - 1) % p = 0 →
    divLoop (g0 :: gs) inv p n (r.length + 1 + k) q r =
      divLoop (g0 :: gs) inv p n (r.length + 1) q r) ∧
  ∀ b n k : Nat, 2 ≤ b → numDigits b (n + k) n = numDigits b n n

/-- R351, R202 item 2, R205 item 1: the loops of INVP and INV2K end within their fuel. -/
def Obligations.InversionLoopsEndWithinTheirFuel : Prop :=
  (∀ (x : Poly) (p : Int) (n k : Nat), 2 ≤ p → 1 ≤ n →
    invLoop p n (max (n + 1) x.length + 2 + k) (pmod (ringPoly n) p) (trim (pmod x p)) [] [1] =
      invpoly x p n) ∧
  ∀ (f g : Poly) (j n k : Nat), 1 ≤ j → j ≤ 30 → 1 ≤ n → invpoly f 2 n = .ok g →
    henselLoop f (2 ^ j) n (henselPasses + k) g = henselLoop f (2 ^ j) n henselPasses g
end

