-- ==== Sys2Proof/Laws/Memory.lean ====
section
/-! SUPPORT. The laws of DMEM: a read after a write, what a write leaves alone, that every operation
keeps the canonical form, and that DMEM is written by whole words. -/

namespace Sys2Proof.Machine

open Sys2Proof

/-! ### Bytes -/

@[simp] theorem Memory.readByte_nil (x : Nat) : Memory.readByte [] x = none := rfl

theorem Memory.readByte_cons (a : Nat) (b : Byte) (m : Memory) (x : Nat) :
    Memory.readByte ((a, b) :: m) x = if x = a then some b else Memory.readByte m x := rfl

@[simp] theorem Memory.readByte_writeByte_same (m : Memory) (x : Nat) (v : Byte) :
    (m.writeByte x v).readByte x = some v := by
  induction m with
  | nil => simp [Memory.writeByte, Memory.readByte]
  | cons c m ih =>
    obtain ⟨a, b⟩ := c
    simp only [Memory.writeByte]
    split
    · simp [Memory.readByte]
    · split
      · simp [Memory.readByte]
      · rename_i h; simp [Memory.readByte, h, ih]

theorem Memory.readByte_writeByte_other (m : Memory) {x y : Nat} (v : Byte) (h : y ≠ x) :
    (m.writeByte x v).readByte y = m.readByte y := by
  induction m with
  | nil => simp [Memory.writeByte, Memory.readByte, h]
  | cons c m ih =>
    obtain ⟨a, b⟩ := c
    simp only [Memory.writeByte]
    split
    · simp [Memory.readByte, h]
    · split
      · rename_i hx; subst hx; simp [Memory.readByte, h]
      · simp [Memory.readByte, ih]

/-- A written byte stays written. -/
theorem Memory.isSome_readByte_writeByte (m : Memory) (x y : Nat) (v : Byte)
    (h : (m.readByte y).isSome = true) : ((m.writeByte x v).readByte y).isSome = true := by
  by_cases e : y = x
  · subst e; simp
  · rw [Memory.readByte_writeByte_other m v e]; exact h

/-! ### Words -/

theorem ofLanes_laneOf (w : Word) :
    ofLanes (laneOf w 0) (laneOf w 1) (laneOf w 2) (laneOf w 3) = w := by
  apply BitVec.eq_of_getLsbD_eq
  intro i hi
  simp only [ofLanes, laneOf, BitVec.getLsbD_append, BitVec.getLsbD_extractLsb']
  split
  · rename_i h
    simp [h]
  · split
    · rename_i h0 h
      simp only [h, decide_true, Bool.true_and]
      congr 1
      omega
    · split
      · rename_i h0 h1 h
        simp only [h, decide_true, Bool.true_and]
        congr 1
        omega
      · have h : i - 8 - 8 - 8 < 8 := by omega
        simp only [h, decide_true, Bool.true_and]
        congr 1
        omega

@[simp] theorem Memory.readWord_writeWord_same (m : Memory) (i : Nat) (w : Word) :
    (m.writeWord i w).readWord i = some w := by
  have h0 : (m.writeWord i w).readByte (4 * i) = some (laneOf w 0) := by
    unfold Memory.writeWord
    rw [Memory.readByte_writeByte_other _ _ (by omega),
      Memory.readByte_writeByte_other _ _ (by omega),
      Memory.readByte_writeByte_other _ _ (by omega), Memory.readByte_writeByte_same]
  have h1 : (m.writeWord i w).readByte (4 * i + 1) = some (laneOf w 1) := by
    unfold Memory.writeWord
    rw [Memory.readByte_writeByte_other _ _ (by omega),
      Memory.readByte_writeByte_other _ _ (by omega), Memory.readByte_writeByte_same]
  have h2 : (m.writeWord i w).readByte (4 * i + 2) = some (laneOf w 2) := by
    unfold Memory.writeWord
    rw [Memory.readByte_writeByte_other _ _ (by omega), Memory.readByte_writeByte_same]
  have h3 : (m.writeWord i w).readByte (4 * i + 3) = some (laneOf w 3) := by
    unfold Memory.writeWord
    rw [Memory.readByte_writeByte_same]
  simp only [Memory.readWord, h0, h1, h2, h3, ofLanes_laneOf]

/-- A word write leaves every byte outside the word alone. -/
theorem Memory.readByte_writeWord_outside (m : Memory) (i : Nat) (w : Word) {a : Nat}
    (h : a < 4 * i ∨ 4 * (i + 1) ≤ a) : (m.writeWord i w).readByte a = m.readByte a := by
  unfold Memory.writeWord
  rw [Memory.readByte_writeByte_other _ _ (by omega),
    Memory.readByte_writeByte_other _ _ (by omega),
    Memory.readByte_writeByte_other _ _ (by omega),
    Memory.readByte_writeByte_other _ _ (by omega)]

/-- Two memories that agree on the bytes of a word agree on the word. -/
theorem Memory.readWord_congr {m m' : Memory} {i : Nat}
    (h : ∀ a, 4 * i ≤ a → a < 4 * i + 4 → m'.readByte a = m.readByte a) :
    m'.readWord i = m.readWord i := by
  unfold Memory.readWord
  rw [h _ (by omega) (by omega), h _ (by omega) (by omega), h _ (by omega) (by omega),
    h _ (by omega) (by omega)]

theorem Memory.readWord_writeWord_other (m : Memory) {i j : Nat} (w : Word) (h : j ≠ i) :
    (m.writeWord i w).readWord j = m.readWord j := by
  apply Memory.readWord_congr
  intro a h1 h2
  exact Memory.readByte_writeWord_outside m i w (by omega)

/-- A written word stays written. -/
theorem Memory.isSome_readWord_writeWord (m : Memory) (i j : Nat) (w : Word)
    (h : (m.readWord j).isSome = true) : ((m.writeWord i w).readWord j).isSome = true := by
  by_cases e : j = i
  · subst e; simp
  · rw [Memory.readWord_writeWord_other m w e]; exact h

/-! ### Sequences -/

@[simp] theorem Memory.writeSeq_nil (m : Memory) (addr : Nat) : m.writeSeq addr [] = m := rfl

@[simp] theorem Memory.writeSeq_cons (m : Memory) (addr : Nat) (v : Int) (vs : Poly) :
    m.writeSeq addr (v :: vs) = (m.writeWord addr (enc32 v)).writeSeq (addr + 1) vs := rfl

/-- A sequence write leaves every byte outside its words alone. -/
theorem Memory.readByte_writeSeq_outside (m : Memory) (addr : Nat) (vs : Poly) {a : Nat}
    (h : Outside a addr vs.length) : (m.writeSeq addr vs).readByte a = m.readByte a := by
  induction vs generalizing m addr with
  | nil => rfl
  | cons v vs ih =>
    simp only [List.length_cons] at h
    rw [Memory.writeSeq_cons, ih _ _ (by omega)]
    exact Memory.readByte_writeWord_outside m addr _ (by omega)

/-- A sequence write leaves every word outside its range alone. -/
theorem Memory.readWord_writeSeq_outside (m : Memory) (addr : Nat) (vs : Poly) {j : Nat}
    (h : j < addr ∨ addr + vs.length ≤ j) : (m.writeSeq addr vs).readWord j = m.readWord j := by
  apply Memory.readWord_congr
  intro a h1 h2
  exact Memory.readByte_writeSeq_outside m addr vs (by omega)

/-- Word `addr + i` of a written sequence holds `enc32` of its element i. -/
theorem Memory.readWord_writeSeq (m : Memory) (addr : Nat) (vs : Poly) {i : Nat}
    (h : i < vs.length) : (m.writeSeq addr vs).readWord (addr + i) = some (enc32 vs[i]) := by
  induction vs generalizing m addr i with
  | nil => simp at h
  | cons v vs ih =>
    rw [Memory.writeSeq_cons]
    cases i with
    | zero =>
      rw [Nat.add_zero, Memory.readWord_writeSeq_outside _ _ _ (by omega)]
      simp
    | succ i =>
      have := ih (m.writeWord addr (enc32 v)) (addr + 1) (i := i) (by simpa using h)
      rw [show addr + (i + 1) = addr + 1 + i by omega, this]
      simp

/-- A written word stays written through a sequence write. -/
theorem Memory.isSome_readWord_writeSeq (m : Memory) (addr : Nat) (vs : Poly) (j : Nat)
    (h : (m.readWord j).isSome = true) : ((m.writeSeq addr vs).readWord j).isSome = true := by
  induction vs generalizing m addr with
  | nil => exact h
  | cons v vs ih => exact ih _ _ (Memory.isSome_readWord_writeWord m _ j _ h)

@[simp] theorem s32_enc32 {v : Int} (h1 : -2147483648 ≤ v) (h2 : v ≤ 2147483647) :
    s32 (enc32 v) = v := by
  unfold s32 enc32
  rw [BitVec.toInt_ofInt]
  exact Int.bmod_eq_of_le (by omega) (by omega)

/-- A sequence whose elements fit is held where it was written (R91, R95). -/
theorem Memory.holds_writeSeq (m : Memory) (addr : Nat) {vs : Poly} (h : AllFit vs) :
    (m.writeSeq addr vs).holds addr vs := by
  intro i hi
  have hv := h vs[i] (List.getElem_mem hi)
  rw [Memory.readWord_writeSeq m addr vs hi, Option.map_some, s32_enc32 hv.1 hv.2,
    List.getElem?_eq_getElem hi]

/-- What a successful `MemRead` says: the words hold the sequence read. -/
theorem Memory.readSeq_ok {m : Memory} {addr n : Nat} {vs : Poly}
    (h : m.readSeq addr n = .ok vs) : vs.length = n ∧ m.holds addr vs := by
  induction n generalizing addr vs with
  | zero => cases h; exact ⟨rfl, fun i hi => absurd hi (Nat.not_lt_zero i)⟩
  | succ n ih =>
    simp only [Memory.readSeq] at h
    split at h
    · cases h
    · rename_i w hw
      split at h
      · cases h
      · rename_i us hus
        cases h
        obtain ⟨hl, hh⟩ := ih hus
        refine ⟨by simp [hl], fun i hi => ?_⟩
        cases i with
        | zero => simp [hw]
        | succ i =>
          have := hh i (by simpa using hi)
          rw [show addr + (i + 1) = addr + 1 + i by omega, this]
          simp

/-- `MemRead` succeeds, with the sequence, where the words hold it. -/
theorem Memory.readSeq_of_holds {m : Memory} {addr : Nat} {vs : Poly} (h : m.holds addr vs) :
    m.readSeq addr vs.length = .ok vs := by
  induction vs generalizing addr with
  | nil => rfl
  | cons v vs ih =>
    have h0 := h 0 (by simp)
    have ht : m.holds (addr + 1) vs := by
      intro i hi
      have := h (i + 1) (by simpa using hi)
      rw [show addr + 1 + i = addr + (i + 1) by omega, this]
      simp
    simp only [Nat.add_zero, List.length_cons, Nat.zero_lt_succ, List.getElem?_eq_getElem,
      List.getElem_cons_zero, Option.map_eq_some_iff] at h0
    obtain ⟨w, hw, hv⟩ := h0
    simp only [List.length_cons, Memory.readSeq, hw, ih ht, hv]

/-- `MemRead` stops only at an unwritten word of its range. -/
theorem Memory.readSeq_error {m : Memory} {addr n : Nat} {e : Stop}
    (h : m.readSeq addr n = .error e) :
    ∃ w, e = .unwritten w ∧ addr ≤ w ∧ w < addr + n ∧ m.readWord w = none := by
  induction n generalizing addr with
  | zero => cases h
  | succ n ih =>
    simp only [Memory.readSeq] at h
    split at h
    · rename_i hw
      cases h
      exact ⟨addr, rfl, by omega, by omega, hw⟩
    · split at h
      · rename_i hr
        cases h
        obtain ⟨w, he, h1, h2, h3⟩ := ih hr
        exact ⟨w, he, by omega, by omega, h3⟩
      · cases h

/-! ### The canonical form -/

theorem Memory.risingFrom_mono {lo lo' : Nat} {m : Memory} (hl : lo' ≤ lo)
    (h : Memory.risingFrom lo m = true) : Memory.risingFrom lo' m = true := by
  cases m with
  | nil => rfl
  | cons c m =>
    simp only [Memory.risingFrom, Bool.and_eq_true, decide_eq_true_eq] at h ⊢
    exact ⟨by omega, h.2⟩

theorem Memory.risingFrom_writeByte {lo x : Nat} {m : Memory} (v : Byte) (hx : lo ≤ x)
    (h : Memory.risingFrom lo m = true) : Memory.risingFrom lo (m.writeByte x v) = true := by
  induction m generalizing lo with
  | nil => simpa [Memory.writeByte, Memory.risingFrom] using hx
  | cons c m ih =>
    obtain ⟨a, b⟩ := c
    simp only [Memory.risingFrom, Bool.and_eq_true, decide_eq_true_eq] at h
    simp only [Memory.writeByte]
    split
    · rename_i hlt
      simp only [Memory.risingFrom, Bool.and_eq_true, decide_eq_true_eq]
      exact ⟨hx, by omega, h.2⟩
    · split
      · rename_i he
        subst he
        simp only [Memory.risingFrom, Bool.and_eq_true, decide_eq_true_eq]
        exact ⟨hx, h.2⟩
      · simp only [Memory.risingFrom, Bool.and_eq_true, decide_eq_true_eq]
        exact ⟨h.1, ih (by omega) h.2⟩

theorem Memory.all_lt_writeByte {n x : Nat} {m : Memory} (v : Byte) (hx : x < n)
    (h : m.all (fun c => decide (c.1 < n)) = true) :
    (m.writeByte x v).all (fun c => decide (c.1 < n)) = true := by
  induction m with
  | nil => simpa [Memory.writeByte] using hx
  | cons c m ih =>
    obtain ⟨a, b⟩ := c
    simp only [List.all_cons, Bool.and_eq_true, decide_eq_true_eq] at h
    simp only [Memory.writeByte]
    split
    · simp only [List.all_cons, Bool.and_eq_true, decide_eq_true_eq]
      exact ⟨hx, h.1, h.2⟩
    · split
      · simp only [List.all_cons, Bool.and_eq_true, decide_eq_true_eq]
        exact ⟨hx, h.2⟩
      · simp only [List.all_cons, Bool.and_eq_true, decide_eq_true_eq]
        exact ⟨h.1, ih h.2⟩

/-- A byte write keeps the canonical form. -/
theorem Memory.wf_writeByte {m : Memory} (x : Nat) (v : Byte) (h : m.wf = true) :
    (m.writeByte x v).wf = true := Memory.risingFrom_writeByte v (Nat.zero_le x) h

/-- A word write keeps the canonical form. -/
theorem Memory.wf_writeWord {m : Memory} (i : Nat) (w : Word) (h : m.wf = true) :
    (m.writeWord i w).wf = true :=
  Memory.wf_writeByte _ _ (Memory.wf_writeByte _ _ (Memory.wf_writeByte _ _
    (Memory.wf_writeByte _ _ h)))

/-- A sequence write keeps the canonical form. -/
theorem Memory.wf_writeSeq {m : Memory} (addr : Nat) (vs : Poly) (h : m.wf = true) :
    (m.writeSeq addr vs).wf = true := by
  induction vs generalizing m addr with
  | nil => exact h
  | cons v vs ih => exact ih _ (Memory.wf_writeWord addr _ h)

/-- The writes of a completion keep the canonical form. -/
theorem Memory.wf_writeAll {m : Memory} (ws : List (Nat × Poly)) (h : m.wf = true) :
    (m.writeAll ws).wf = true := by
  induction ws generalizing m with
  | nil => exact h
  | cons w ws ih => exact ih (Memory.wf_writeSeq _ _ h)

/-- A word write inside DMEM stays inside it. -/
theorem Memory.within_writeWord {n : Nat} {m : Memory} {i : Nat} (w : Word) (hi : i < n)
    (h : m.within n = true) : (m.writeWord i w).within n = true := by
  unfold Memory.writeWord
  exact Memory.all_lt_writeByte _ (by omega) (Memory.all_lt_writeByte _ (by omega)
    (Memory.all_lt_writeByte _ (by omega) (Memory.all_lt_writeByte _ (by omega) h)))

/-- A sequence write inside DMEM stays inside it. -/
theorem Memory.within_writeSeq {n : Nat} {m : Memory} {addr : Nat} {vs : Poly}
    (hb : vs.length = 0 ∨ addr + vs.length ≤ n) (h : m.within n = true) :
    (m.writeSeq addr vs).within n = true := by
  induction vs generalizing m addr with
  | nil => exact h
  | cons v vs ih =>
    simp only [List.length_cons] at hb
    rw [Memory.writeSeq_cons]
    exact ih (by omega) (Memory.within_writeWord _ (by omega) h)

/-- The memory right after reset has the canonical form. -/
theorem Memory.wf_reset : State.reset.dmem.wf = true := rfl

/-! ### Whole words -/

/-- Every byte a word write lists is a byte of the word or was listed before. -/
theorem Memory.mem_writeByte {m : Memory} {x : Nat} {v : Byte} {c : Host.Cell}
    (h : c ∈ m.writeByte x v) : c = (x, v) ∨ c ∈ m := by
  induction m with
  | nil => simpa [Memory.writeByte] using h
  | cons d m ih =>
    obtain ⟨a, b⟩ := d
    simp only [Memory.writeByte] at h
    split at h
    · simpa using h
    · split at h
      · rcases List.mem_cons.1 h with h | h
        · exact .inl h
        · exact .inr (List.mem_cons_of_mem _ h)
      · rcases List.mem_cons.1 h with h | h
        · exact .inr (h ▸ List.mem_cons_self)
        · rcases ih h with h | h
          · exact .inl h
          · exact .inr (List.mem_cons_of_mem _ h)

theorem Memory.wholeWords_writeWord {m : Memory} (i : Nat) (w : Word)
    (h : m.wholeWords = true) : (m.writeWord i w).wholeWords = true := by
  simp only [Memory.wholeWords, List.all_eq_true] at h ⊢
  intro c hc
  have old : c ∈ m → ((m.writeWord i w).readWord (c.1 / 4)).isSome = true := fun hm =>
    Memory.isSome_readWord_writeWord m i _ w (h c hm)
  have new : c.1 / 4 = i → ((m.writeWord i w).readWord (c.1 / 4)).isSome = true := fun e => by
    rw [e]; simp
  unfold Memory.writeWord at hc
  rcases Memory.mem_writeByte hc with hc | hc
  · exact new (by subst hc; simp; omega)
  rcases Memory.mem_writeByte hc with hc | hc
  · exact new (by subst hc; simp; omega)
  rcases Memory.mem_writeByte hc with hc | hc
  · exact new (by subst hc; simp; omega)
  rcases Memory.mem_writeByte hc with hc | hc
  · exact new (by subst hc; simp)
  exact old hc

theorem Memory.wholeWords_writeSeq {m : Memory} (addr : Nat) (vs : Poly)
    (h : m.wholeWords = true) : (m.writeSeq addr vs).wholeWords = true := by
  induction vs generalizing m addr with
  | nil => exact h
  | cons v vs ih => exact ih _ (Memory.wholeWords_writeWord addr _ h)

theorem Memory.wholeWords_writeAll {m : Memory} (ws : List (Nat × Poly))
    (h : m.wholeWords = true) : (m.writeAll ws).wholeWords = true := by
  induction ws generalizing m with
  | nil => exact h
  | cons w ws ih => exact ih (Memory.wholeWords_writeSeq _ _ h)

end Sys2Proof.Machine
end

