-- ==== Sys2Proof/Laws/State.lean ====
section
/-! SUPPORT. One lemma per field of State per update of it, so that no later proof unfolds a record
update; and what the conditional updates are in each of their cases. -/

namespace Sys2Proof.Machine

open Sys2Proof

/-! ### `State.accept` -/

@[simp] theorem State.accept_params (s : State) (v : Word) :
    (s.accept v).params = s.params := rfl

@[simp] theorem State.accept_irqEn (s : State) (v : Word) :
    (s.accept v).irqEn = s.irqEn := rfl

@[simp] theorem State.accept_busy (s : State) (v : Word) :
    (s.accept v).busy = true := rfl

@[simp] theorem State.accept_done (s : State) (v : Word) :
    (s.accept v).done = false := rfl

@[simp] theorem State.accept_err (s : State) (v : Word) :
    (s.accept v).err = ErrCode.none := rfl

@[simp] theorem State.accept_cmdOvr (s : State) (v : Word) :
    (s.accept v).cmdOvr = s.cmdOvr := rfl

@[simp] theorem State.accept_busErr (s : State) (v : Word) :
    (s.accept v).busErr = s.busErr := rfl

@[simp] theorem State.accept_errInfo (s : State) (v : Word) :
    (s.accept v).errInfo = Info.none := rfl

@[simp] theorem State.accept_cmd (s : State) (v : Word) :
    (s.accept v).cmd = v := rfl

@[simp] theorem State.accept_ops (s : State) (v : Word) :
    (s.accept v).ops = s.ops := rfl

@[simp] theorem State.accept_dLen (s : State) (v : Word) :
    (s.accept v).dLen = s.dLen := rfl

@[simp] theorem State.accept_eLen (s : State) (v : Word) :
    (s.accept v).eLen = s.eLen := rfl

@[simp] theorem State.accept_r0 (s : State) (v : Word) :
    (s.accept v).r0 = s.r0 := rfl

@[simp] theorem State.accept_r1 (s : State) (v : Word) :
    (s.accept v).r1 = s.r1 := rfl

@[simp] theorem State.accept_r2 (s : State) (v : Word) :
    (s.accept v).r2 = s.r2 := rfl

@[simp] theorem State.accept_latch (s : State) (v : Word) :
    (s.accept v).latch = { cmd := v, ops := s.ops } := rfl

@[simp] theorem State.accept_dmem (s : State) (v : Word) :
    (s.accept v).dmem = s.dmem := rfl

@[simp] theorem State.accept_inputs (s : State) (v : Word) :
    (s.accept v).inputs = s.inputs := rfl

@[simp] theorem State.accept_schedule (s : State) (v : Word) :
    (s.accept v).schedule = s.schedule := rfl

@[simp] theorem State.accept_hostTurns (s : State) (v : Word) :
    (s.accept v).hostTurns = s.hostTurns := rfl

@[simp] theorem State.accept_responses (s : State) (v : Word) :
    (s.accept v).responses = s.responses := rfl

/-! ### `State.drawTurns` -/

@[simp] theorem State.drawTurns_params (s : State) :
    s.drawTurns.params = s.params := rfl

@[simp] theorem State.drawTurns_irqEn (s : State) :
    s.drawTurns.irqEn = s.irqEn := rfl

@[simp] theorem State.drawTurns_busy (s : State) :
    s.drawTurns.busy = s.busy := rfl

@[simp] theorem State.drawTurns_done (s : State) :
    s.drawTurns.done = s.done := rfl

@[simp] theorem State.drawTurns_err (s : State) :
    s.drawTurns.err = s.err := rfl

@[simp] theorem State.drawTurns_cmdOvr (s : State) :
    s.drawTurns.cmdOvr = s.cmdOvr := rfl

@[simp] theorem State.drawTurns_busErr (s : State) :
    s.drawTurns.busErr = s.busErr := rfl

@[simp] theorem State.drawTurns_errInfo (s : State) :
    s.drawTurns.errInfo = s.errInfo := rfl

@[simp] theorem State.drawTurns_cmd (s : State) :
    s.drawTurns.cmd = s.cmd := rfl

@[simp] theorem State.drawTurns_ops (s : State) :
    s.drawTurns.ops = s.ops := rfl

@[simp] theorem State.drawTurns_dLen (s : State) :
    s.drawTurns.dLen = s.dLen := rfl

@[simp] theorem State.drawTurns_eLen (s : State) :
    s.drawTurns.eLen = s.eLen := rfl

@[simp] theorem State.drawTurns_r0 (s : State) :
    s.drawTurns.r0 = s.r0 := rfl

@[simp] theorem State.drawTurns_r1 (s : State) :
    s.drawTurns.r1 = s.r1 := rfl

@[simp] theorem State.drawTurns_r2 (s : State) :
    s.drawTurns.r2 = s.r2 := rfl

@[simp] theorem State.drawTurns_latch (s : State) :
    s.drawTurns.latch = s.latch := rfl

@[simp] theorem State.drawTurns_dmem (s : State) :
    s.drawTurns.dmem = s.dmem := rfl

@[simp] theorem State.drawTurns_inputs (s : State) :
    s.drawTurns.inputs = s.inputs := rfl

@[simp] theorem State.drawTurns_schedule (s : State) :
    s.drawTurns.schedule = s.schedule.tail := rfl

@[simp] theorem State.drawTurns_hostTurns (s : State) :
    s.drawTurns.hostTurns = s.schedule.headD 0 := rfl

@[simp] theorem State.drawTurns_responses (s : State) :
    s.drawTurns.responses = s.responses := rfl

/-! ### `State.reportError` -/

@[simp] theorem State.reportError_params (s : State) (code : ErrCode) (info : Info) :
    (s.reportError code info).params = s.params := rfl

@[simp] theorem State.reportError_irqEn (s : State) (code : ErrCode) (info : Info) :
    (s.reportError code info).irqEn = s.irqEn := rfl

@[simp] theorem State.reportError_busy (s : State) (code : ErrCode) (info : Info) :
    (s.reportError code info).busy = false := rfl

@[simp] theorem State.reportError_done (s : State) (code : ErrCode) (info : Info) :
    (s.reportError code info).done = true := rfl

@[simp] theorem State.reportError_err (s : State) (code : ErrCode) (info : Info) :
    (s.reportError code info).err = code := rfl

@[simp] theorem State.reportError_cmdOvr (s : State) (code : ErrCode) (info : Info) :
    (s.reportError code info).cmdOvr = s.cmdOvr := rfl

@[simp] theorem State.reportError_busErr (s : State) (code : ErrCode) (info : Info) :
    (s.reportError code info).busErr = s.busErr := rfl

@[simp] theorem State.reportError_errInfo (s : State) (code : ErrCode) (info : Info) :
    (s.reportError code info).errInfo = info := rfl

@[simp] theorem State.reportError_cmd (s : State) (code : ErrCode) (info : Info) :
    (s.reportError code info).cmd = s.cmd := rfl

@[simp] theorem State.reportError_ops (s : State) (code : ErrCode) (info : Info) :
    (s.reportError code info).ops = s.ops := rfl

@[simp] theorem State.reportError_dLen (s : State) (code : ErrCode) (info : Info) :
    (s.reportError code info).dLen = s.dLen := rfl

@[simp] theorem State.reportError_eLen (s : State) (code : ErrCode) (info : Info) :
    (s.reportError code info).eLen = s.eLen := rfl

@[simp] theorem State.reportError_r0 (s : State) (code : ErrCode) (info : Info) :
    (s.reportError code info).r0 = s.r0 := rfl

@[simp] theorem State.reportError_r1 (s : State) (code : ErrCode) (info : Info) :
    (s.reportError code info).r1 = s.r1 := rfl

@[simp] theorem State.reportError_r2 (s : State) (code : ErrCode) (info : Info) :
    (s.reportError code info).r2 = s.r2 := rfl

@[simp] theorem State.reportError_latch (s : State) (code : ErrCode) (info : Info) :
    (s.reportError code info).latch = s.latch := rfl

@[simp] theorem State.reportError_dmem (s : State) (code : ErrCode) (info : Info) :
    (s.reportError code info).dmem = s.dmem := rfl

@[simp] theorem State.reportError_inputs (s : State) (code : ErrCode) (info : Info) :
    (s.reportError code info).inputs = s.inputs := rfl

@[simp] theorem State.reportError_schedule (s : State) (code : ErrCode) (info : Info) :
    (s.reportError code info).schedule = s.schedule := rfl

@[simp] theorem State.reportError_hostTurns (s : State) (code : ErrCode) (info : Info) :
    (s.reportError code info).hostTurns = s.hostTurns := rfl

@[simp] theorem State.reportError_responses (s : State) (code : ErrCode) (info : Info) :
    (s.reportError code info).responses = s.responses := rfl

/-! ### `State.respond` -/

@[simp] theorem State.respond_params (s : State) (r : Response) :
    (s.respond r).params = s.params := rfl

@[simp] theorem State.respond_irqEn (s : State) (r : Response) :
    (s.respond r).irqEn = s.irqEn := rfl

@[simp] theorem State.respond_busy (s : State) (r : Response) :
    (s.respond r).busy = s.busy := rfl

@[simp] theorem State.respond_done (s : State) (r : Response) :
    (s.respond r).done = s.done := rfl

@[simp] theorem State.respond_err (s : State) (r : Response) :
    (s.respond r).err = s.err := rfl

@[simp] theorem State.respond_cmdOvr (s : State) (r : Response) :
    (s.respond r).cmdOvr = s.cmdOvr := rfl

@[simp] theorem State.respond_busErr (s : State) (r : Response) :
    (s.respond r).busErr = s.busErr := rfl

@[simp] theorem State.respond_errInfo (s : State) (r : Response) :
    (s.respond r).errInfo = s.errInfo := rfl

@[simp] theorem State.respond_cmd (s : State) (r : Response) :
    (s.respond r).cmd = s.cmd := rfl

@[simp] theorem State.respond_ops (s : State) (r : Response) :
    (s.respond r).ops = s.ops := rfl

@[simp] theorem State.respond_dLen (s : State) (r : Response) :
    (s.respond r).dLen = s.dLen := rfl

@[simp] theorem State.respond_eLen (s : State) (r : Response) :
    (s.respond r).eLen = s.eLen := rfl

@[simp] theorem State.respond_r0 (s : State) (r : Response) :
    (s.respond r).r0 = s.r0 := rfl

@[simp] theorem State.respond_r1 (s : State) (r : Response) :
    (s.respond r).r1 = s.r1 := rfl

@[simp] theorem State.respond_r2 (s : State) (r : Response) :
    (s.respond r).r2 = s.r2 := rfl

@[simp] theorem State.respond_latch (s : State) (r : Response) :
    (s.respond r).latch = s.latch := rfl

@[simp] theorem State.respond_dmem (s : State) (r : Response) :
    (s.respond r).dmem = s.dmem := rfl

@[simp] theorem State.respond_inputs (s : State) (r : Response) :
    (s.respond r).inputs = s.inputs := rfl

@[simp] theorem State.respond_schedule (s : State) (r : Response) :
    (s.respond r).schedule = s.schedule := rfl

@[simp] theorem State.respond_hostTurns (s : State) (r : Response) :
    (s.respond r).hostTurns = s.hostTurns := rfl

@[simp] theorem State.respond_responses (s : State) (r : Response) :
    (s.respond r).responses = r :: s.responses := rfl

/-! ### `State.busError` -/

@[simp] theorem State.busError_params (s : State) :
    s.busError.params = s.params := rfl

@[simp] theorem State.busError_irqEn (s : State) :
    s.busError.irqEn = s.irqEn := rfl

@[simp] theorem State.busError_busy (s : State) :
    s.busError.busy = s.busy := rfl

@[simp] theorem State.busError_done (s : State) :
    s.busError.done = s.done := rfl

@[simp] theorem State.busError_err (s : State) :
    s.busError.err = s.err := rfl

@[simp] theorem State.busError_cmdOvr (s : State) :
    s.busError.cmdOvr = s.cmdOvr := rfl

@[simp] theorem State.busError_busErr (s : State) :
    s.busError.busErr = true := rfl

@[simp] theorem State.busError_errInfo (s : State) :
    s.busError.errInfo = s.errInfo := rfl

@[simp] theorem State.busError_cmd (s : State) :
    s.busError.cmd = s.cmd := rfl

@[simp] theorem State.busError_ops (s : State) :
    s.busError.ops = s.ops := rfl

@[simp] theorem State.busError_dLen (s : State) :
    s.busError.dLen = s.dLen := rfl

@[simp] theorem State.busError_eLen (s : State) :
    s.busError.eLen = s.eLen := rfl

@[simp] theorem State.busError_r0 (s : State) :
    s.busError.r0 = s.r0 := rfl

@[simp] theorem State.busError_r1 (s : State) :
    s.busError.r1 = s.r1 := rfl

@[simp] theorem State.busError_r2 (s : State) :
    s.busError.r2 = s.r2 := rfl

@[simp] theorem State.busError_latch (s : State) :
    s.busError.latch = s.latch := rfl

@[simp] theorem State.busError_dmem (s : State) :
    s.busError.dmem = s.dmem := rfl

@[simp] theorem State.busError_inputs (s : State) :
    s.busError.inputs = s.inputs := rfl

@[simp] theorem State.busError_schedule (s : State) :
    s.busError.schedule = s.schedule := rfl

@[simp] theorem State.busError_hostTurns (s : State) :
    s.busError.hostTurns = s.hostTurns := rfl

@[simp] theorem State.busError_responses (s : State) :
    s.busError.responses = Response.slverr :: s.responses := rfl

/-! ### `State.takeInput` -/

@[simp] theorem State.takeInput_params (s : State) (rest : List Input) :
    (s.takeInput rest).params = s.params := rfl

@[simp] theorem State.takeInput_irqEn (s : State) (rest : List Input) :
    (s.takeInput rest).irqEn = s.irqEn := rfl

@[simp] theorem State.takeInput_busy (s : State) (rest : List Input) :
    (s.takeInput rest).busy = s.busy := rfl

@[simp] theorem State.takeInput_done (s : State) (rest : List Input) :
    (s.takeInput rest).done = s.done := rfl

@[simp] theorem State.takeInput_err (s : State) (rest : List Input) :
    (s.takeInput rest).err = s.err := rfl

@[simp] theorem State.takeInput_cmdOvr (s : State) (rest : List Input) :
    (s.takeInput rest).cmdOvr = s.cmdOvr := rfl

@[simp] theorem State.takeInput_busErr (s : State) (rest : List Input) :
    (s.takeInput rest).busErr = s.busErr := rfl

@[simp] theorem State.takeInput_errInfo (s : State) (rest : List Input) :
    (s.takeInput rest).errInfo = s.errInfo := rfl

@[simp] theorem State.takeInput_cmd (s : State) (rest : List Input) :
    (s.takeInput rest).cmd = s.cmd := rfl

@[simp] theorem State.takeInput_ops (s : State) (rest : List Input) :
    (s.takeInput rest).ops = s.ops := rfl

@[simp] theorem State.takeInput_dLen (s : State) (rest : List Input) :
    (s.takeInput rest).dLen = s.dLen := rfl

@[simp] theorem State.takeInput_eLen (s : State) (rest : List Input) :
    (s.takeInput rest).eLen = s.eLen := rfl

@[simp] theorem State.takeInput_r0 (s : State) (rest : List Input) :
    (s.takeInput rest).r0 = s.r0 := rfl

@[simp] theorem State.takeInput_r1 (s : State) (rest : List Input) :
    (s.takeInput rest).r1 = s.r1 := rfl

@[simp] theorem State.takeInput_r2 (s : State) (rest : List Input) :
    (s.takeInput rest).r2 = s.r2 := rfl

@[simp] theorem State.takeInput_latch (s : State) (rest : List Input) :
    (s.takeInput rest).latch = s.latch := rfl

@[simp] theorem State.takeInput_dmem (s : State) (rest : List Input) :
    (s.takeInput rest).dmem = s.dmem := rfl

@[simp] theorem State.takeInput_inputs (s : State) (rest : List Input) :
    (s.takeInput rest).inputs = rest := rfl

@[simp] theorem State.takeInput_schedule (s : State) (rest : List Input) :
    (s.takeInput rest).schedule = s.schedule := rfl

@[simp] theorem State.takeInput_hostTurns (s : State) (rest : List Input) :
    (s.takeInput rest).hostTurns = s.hostTurns - 1 := rfl

@[simp] theorem State.takeInput_responses (s : State) (rest : List Input) :
    (s.takeInput rest).responses = s.responses := rfl

/-! ### `State.writeStatus` -/

@[simp] theorem State.writeStatus_params (s : State) (v : Word) :
    (s.writeStatus v).params = s.params := rfl

@[simp] theorem State.writeStatus_irqEn (s : State) (v : Word) :
    (s.writeStatus v).irqEn = s.irqEn := rfl

@[simp] theorem State.writeStatus_busy (s : State) (v : Word) :
    (s.writeStatus v).busy = s.busy := rfl

@[simp] theorem State.writeStatus_done (s : State) (v : Word) :
    (s.writeStatus v).done = (s.done && !v.getLsbD 1) := rfl

@[simp] theorem State.writeStatus_err (s : State) (v : Word) :
    (s.writeStatus v).err = s.err := rfl

@[simp] theorem State.writeStatus_cmdOvr (s : State) (v : Word) :
    (s.writeStatus v).cmdOvr = (s.cmdOvr && !v.getLsbD 16) := rfl

@[simp] theorem State.writeStatus_busErr (s : State) (v : Word) :
    (s.writeStatus v).busErr = (s.busErr && !v.getLsbD 17) := rfl

@[simp] theorem State.writeStatus_errInfo (s : State) (v : Word) :
    (s.writeStatus v).errInfo = s.errInfo := rfl

@[simp] theorem State.writeStatus_cmd (s : State) (v : Word) :
    (s.writeStatus v).cmd = s.cmd := rfl

@[simp] theorem State.writeStatus_ops (s : State) (v : Word) :
    (s.writeStatus v).ops = s.ops := rfl

@[simp] theorem State.writeStatus_dLen (s : State) (v : Word) :
    (s.writeStatus v).dLen = s.dLen := rfl

@[simp] theorem State.writeStatus_eLen (s : State) (v : Word) :
    (s.writeStatus v).eLen = s.eLen := rfl

@[simp] theorem State.writeStatus_r0 (s : State) (v : Word) :
    (s.writeStatus v).r0 = s.r0 := rfl

@[simp] theorem State.writeStatus_r1 (s : State) (v : Word) :
    (s.writeStatus v).r1 = s.r1 := rfl

@[simp] theorem State.writeStatus_r2 (s : State) (v : Word) :
    (s.writeStatus v).r2 = s.r2 := rfl

@[simp] theorem State.writeStatus_latch (s : State) (v : Word) :
    (s.writeStatus v).latch = s.latch := rfl

@[simp] theorem State.writeStatus_dmem (s : State) (v : Word) :
    (s.writeStatus v).dmem = s.dmem := rfl

@[simp] theorem State.writeStatus_inputs (s : State) (v : Word) :
    (s.writeStatus v).inputs = s.inputs := rfl

@[simp] theorem State.writeStatus_schedule (s : State) (v : Word) :
    (s.writeStatus v).schedule = s.schedule := rfl

@[simp] theorem State.writeStatus_hostTurns (s : State) (v : Word) :
    (s.writeStatus v).hostTurns = s.hostTurns := rfl

@[simp] theorem State.writeStatus_responses (s : State) (v : Word) :
    (s.writeStatus v).responses = s.responses := rfl

/-! ### `State.softReset` -/

@[simp] theorem State.softReset_params (s : State) :
    s.softReset.params = s.params := rfl

@[simp] theorem State.softReset_irqEn (s : State) :
    s.softReset.irqEn = false := rfl

@[simp] theorem State.softReset_busy (s : State) :
    s.softReset.busy = false := rfl

@[simp] theorem State.softReset_done (s : State) :
    s.softReset.done = false := rfl

@[simp] theorem State.softReset_err (s : State) :
    s.softReset.err = ErrCode.none := rfl

@[simp] theorem State.softReset_cmdOvr (s : State) :
    s.softReset.cmdOvr = false := rfl

@[simp] theorem State.softReset_busErr (s : State) :
    s.softReset.busErr = false := rfl

@[simp] theorem State.softReset_errInfo (s : State) :
    s.softReset.errInfo = Info.none := rfl

@[simp] theorem State.softReset_cmd (s : State) :
    s.softReset.cmd = 0 := rfl

@[simp] theorem State.softReset_ops (s : State) :
    s.softReset.ops = Operands.zero := rfl

@[simp] theorem State.softReset_dLen (s : State) :
    s.softReset.dLen = 0 := rfl

@[simp] theorem State.softReset_eLen (s : State) :
    s.softReset.eLen = 0 := rfl

@[simp] theorem State.softReset_r0 (s : State) :
    s.softReset.r0 = 0 := rfl

@[simp] theorem State.softReset_r1 (s : State) :
    s.softReset.r1 = 0 := rfl

@[simp] theorem State.softReset_r2 (s : State) :
    s.softReset.r2 = 0 := rfl

@[simp] theorem State.softReset_latch (s : State) :
    s.softReset.latch = { cmd := 0, ops := Operands.zero } := rfl

@[simp] theorem State.softReset_dmem (s : State) :
    s.softReset.dmem = s.dmem := rfl

@[simp] theorem State.softReset_inputs (s : State) :
    s.softReset.inputs = s.inputs := rfl

@[simp] theorem State.softReset_schedule (s : State) :
    s.softReset.schedule = s.schedule := rfl

@[simp] theorem State.softReset_hostTurns (s : State) :
    s.softReset.hostTurns = 0 := rfl

@[simp] theorem State.softReset_responses (s : State) :
    s.softReset.responses = s.responses := rfl

/-! ### `State.hardReset` -/

@[simp] theorem State.hardReset_params (s : State) :
    s.hardReset.params = s.params := rfl

@[simp] theorem State.hardReset_irqEn (s : State) :
    s.hardReset.irqEn = false := rfl

@[simp] theorem State.hardReset_busy (s : State) :
    s.hardReset.busy = false := rfl

@[simp] theorem State.hardReset_done (s : State) :
    s.hardReset.done = false := rfl

@[simp] theorem State.hardReset_err (s : State) :
    s.hardReset.err = ErrCode.none := rfl

@[simp] theorem State.hardReset_cmdOvr (s : State) :
    s.hardReset.cmdOvr = false := rfl

@[simp] theorem State.hardReset_busErr (s : State) :
    s.hardReset.busErr = false := rfl

@[simp] theorem State.hardReset_errInfo (s : State) :
    s.hardReset.errInfo = Info.none := rfl

@[simp] theorem State.hardReset_cmd (s : State) :
    s.hardReset.cmd = 0 := rfl

@[simp] theorem State.hardReset_ops (s : State) :
    s.hardReset.ops = Operands.zero := rfl

@[simp] theorem State.hardReset_dLen (s : State) :
    s.hardReset.dLen = 0 := rfl

@[simp] theorem State.hardReset_eLen (s : State) :
    s.hardReset.eLen = 0 := rfl

@[simp] theorem State.hardReset_r0 (s : State) :
    s.hardReset.r0 = 0 := rfl

@[simp] theorem State.hardReset_r1 (s : State) :
    s.hardReset.r1 = 0 := rfl

@[simp] theorem State.hardReset_r2 (s : State) :
    s.hardReset.r2 = 0 := rfl

@[simp] theorem State.hardReset_latch (s : State) :
    s.hardReset.latch = { cmd := 0, ops := Operands.zero } := rfl

@[simp] theorem State.hardReset_dmem (s : State) :
    s.hardReset.dmem = [] := rfl

@[simp] theorem State.hardReset_inputs (s : State) :
    s.hardReset.inputs = s.inputs := rfl

@[simp] theorem State.hardReset_schedule (s : State) :
    s.hardReset.schedule = s.schedule := rfl

@[simp] theorem State.hardReset_hostTurns (s : State) :
    s.hardReset.hostTurns = 0 := rfl

@[simp] theorem State.hardReset_responses (s : State) :
    s.hardReset.responses = s.responses := rfl

/-! ### `State.writeResults` and `State.commit` -/

@[simp] theorem State.writeResult_params (s : State) (w : ResultReg × Int) :
    (s.writeResult w).params = s.params := by
  obtain ⟨r, v⟩ := w
  cases r <;> rfl

@[simp] theorem State.writeResult_irqEn (s : State) (w : ResultReg × Int) :
    (s.writeResult w).irqEn = s.irqEn := by
  obtain ⟨r, v⟩ := w
  cases r <;> rfl

@[simp] theorem State.writeResult_busy (s : State) (w : ResultReg × Int) :
    (s.writeResult w).busy = s.busy := by
  obtain ⟨r, v⟩ := w
  cases r <;> rfl

@[simp] theorem State.writeResult_done (s : State) (w : ResultReg × Int) :
    (s.writeResult w).done = s.done := by
  obtain ⟨r, v⟩ := w
  cases r <;> rfl

@[simp] theorem State.writeResult_err (s : State) (w : ResultReg × Int) :
    (s.writeResult w).err = s.err := by
  obtain ⟨r, v⟩ := w
  cases r <;> rfl

@[simp] theorem State.writeResult_cmdOvr (s : State) (w : ResultReg × Int) :
    (s.writeResult w).cmdOvr = s.cmdOvr := by
  obtain ⟨r, v⟩ := w
  cases r <;> rfl

@[simp] theorem State.writeResult_busErr (s : State) (w : ResultReg × Int) :
    (s.writeResult w).busErr = s.busErr := by
  obtain ⟨r, v⟩ := w
  cases r <;> rfl

@[simp] theorem State.writeResult_errInfo (s : State) (w : ResultReg × Int) :
    (s.writeResult w).errInfo = s.errInfo := by
  obtain ⟨r, v⟩ := w
  cases r <;> rfl

@[simp] theorem State.writeResult_cmd (s : State) (w : ResultReg × Int) :
    (s.writeResult w).cmd = s.cmd := by
  obtain ⟨r, v⟩ := w
  cases r <;> rfl

@[simp] theorem State.writeResult_ops (s : State) (w : ResultReg × Int) :
    (s.writeResult w).ops = s.ops := by
  obtain ⟨r, v⟩ := w
  cases r <;> rfl

@[simp] theorem State.writeResult_latch (s : State) (w : ResultReg × Int) :
    (s.writeResult w).latch = s.latch := by
  obtain ⟨r, v⟩ := w
  cases r <;> rfl

@[simp] theorem State.writeResult_dmem (s : State) (w : ResultReg × Int) :
    (s.writeResult w).dmem = s.dmem := by
  obtain ⟨r, v⟩ := w
  cases r <;> rfl

@[simp] theorem State.writeResult_inputs (s : State) (w : ResultReg × Int) :
    (s.writeResult w).inputs = s.inputs := by
  obtain ⟨r, v⟩ := w
  cases r <;> rfl

@[simp] theorem State.writeResult_schedule (s : State) (w : ResultReg × Int) :
    (s.writeResult w).schedule = s.schedule := by
  obtain ⟨r, v⟩ := w
  cases r <;> rfl

@[simp] theorem State.writeResult_hostTurns (s : State) (w : ResultReg × Int) :
    (s.writeResult w).hostTurns = s.hostTurns := by
  obtain ⟨r, v⟩ := w
  cases r <;> rfl

@[simp] theorem State.writeResult_responses (s : State) (w : ResultReg × Int) :
    (s.writeResult w).responses = s.responses := by
  obtain ⟨r, v⟩ := w
  cases r <;> rfl

@[simp] theorem State.writeResults_params (s : State) (ws : List (ResultReg × Int)) :
    (s.writeResults ws).params = s.params := by
  induction ws generalizing s with
  | nil => rfl
  | cons w ws ih => simp [State.writeResults, ih]

@[simp] theorem State.writeResults_irqEn (s : State) (ws : List (ResultReg × Int)) :
    (s.writeResults ws).irqEn = s.irqEn := by
  induction ws generalizing s with
  | nil => rfl
  | cons w ws ih => simp [State.writeResults, ih]

@[simp] theorem State.writeResults_busy (s : State) (ws : List (ResultReg × Int)) :
    (s.writeResults ws).busy = s.busy := by
  induction ws generalizing s with
  | nil => rfl
  | cons w ws ih => simp [State.writeResults, ih]

@[simp] theorem State.writeResults_done (s : State) (ws : List (ResultReg × Int)) :
    (s.writeResults ws).done = s.done := by
  induction ws generalizing s with
  | nil => rfl
  | cons w ws ih => simp [State.writeResults, ih]

@[simp] theorem State.writeResults_err (s : State) (ws : List (ResultReg × Int)) :
    (s.writeResults ws).err = s.err := by
  induction ws generalizing s with
  | nil => rfl
  | cons w ws ih => simp [State.writeResults, ih]

@[simp] theorem State.writeResults_cmdOvr (s : State) (ws : List (ResultReg × Int)) :
    (s.writeResults ws).cmdOvr = s.cmdOvr := by
  induction ws generalizing s with
  | nil => rfl
  | cons w ws ih => simp [State.writeResults, ih]

@[simp] theorem State.writeResults_busErr (s : State) (ws : List (ResultReg × Int)) :
    (s.writeResults ws).busErr = s.busErr := by
  induction ws generalizing s with
  | nil => rfl
  | cons w ws ih => simp [State.writeResults, ih]

@[simp] theorem State.writeResults_errInfo (s : State) (ws : List (ResultReg × Int)) :
    (s.writeResults ws).errInfo = s.errInfo := by
  induction ws generalizing s with
  | nil => rfl
  | cons w ws ih => simp [State.writeResults, ih]

@[simp] theorem State.writeResults_cmd (s : State) (ws : List (ResultReg × Int)) :
    (s.writeResults ws).cmd = s.cmd := by
  induction ws generalizing s with
  | nil => rfl
  | cons w ws ih => simp [State.writeResults, ih]

@[simp] theorem State.writeResults_ops (s : State) (ws : List (ResultReg × Int)) :
    (s.writeResults ws).ops = s.ops := by
  induction ws generalizing s with
  | nil => rfl
  | cons w ws ih => simp [State.writeResults, ih]

@[simp] theorem State.writeResults_latch (s : State) (ws : List (ResultReg × Int)) :
    (s.writeResults ws).latch = s.latch := by
  induction ws generalizing s with
  | nil => rfl
  | cons w ws ih => simp [State.writeResults, ih]

@[simp] theorem State.writeResults_dmem (s : State) (ws : List (ResultReg × Int)) :
    (s.writeResults ws).dmem = s.dmem := by
  induction ws generalizing s with
  | nil => rfl
  | cons w ws ih => simp [State.writeResults, ih]

@[simp] theorem State.writeResults_inputs (s : State) (ws : List (ResultReg × Int)) :
    (s.writeResults ws).inputs = s.inputs := by
  induction ws generalizing s with
  | nil => rfl
  | cons w ws ih => simp [State.writeResults, ih]

@[simp] theorem State.writeResults_schedule (s : State) (ws : List (ResultReg × Int)) :
    (s.writeResults ws).schedule = s.schedule := by
  induction ws generalizing s with
  | nil => rfl
  | cons w ws ih => simp [State.writeResults, ih]

@[simp] theorem State.writeResults_hostTurns (s : State) (ws : List (ResultReg × Int)) :
    (s.writeResults ws).hostTurns = s.hostTurns := by
  induction ws generalizing s with
  | nil => rfl
  | cons w ws ih => simp [State.writeResults, ih]

@[simp] theorem State.writeResults_responses (s : State) (ws : List (ResultReg × Int)) :
    (s.writeResults ws).responses = s.responses := by
  induction ws generalizing s with
  | nil => rfl
  | cons w ws ih => simp [State.writeResults, ih]

@[simp] theorem State.commit_params (s : State) (w : Writes) :
    (s.commit w).params = s.params := by
  simp [State.commit]

@[simp] theorem State.commit_irqEn (s : State) (w : Writes) :
    (s.commit w).irqEn = s.irqEn := by
  simp [State.commit]

@[simp] theorem State.commit_busy (s : State) (w : Writes) :
    (s.commit w).busy = false := rfl

@[simp] theorem State.commit_done (s : State) (w : Writes) :
    (s.commit w).done = true := rfl

@[simp] theorem State.commit_err (s : State) (w : Writes) :
    (s.commit w).err = ErrCode.none := rfl

@[simp] theorem State.commit_cmdOvr (s : State) (w : Writes) :
    (s.commit w).cmdOvr = s.cmdOvr := by
  simp [State.commit]

@[simp] theorem State.commit_busErr (s : State) (w : Writes) :
    (s.commit w).busErr = s.busErr := by
  simp [State.commit]

@[simp] theorem State.commit_errInfo (s : State) (w : Writes) :
    (s.commit w).errInfo = Info.none := rfl

@[simp] theorem State.commit_cmd (s : State) (w : Writes) :
    (s.commit w).cmd = s.cmd := by
  simp [State.commit]

@[simp] theorem State.commit_ops (s : State) (w : Writes) :
    (s.commit w).ops = s.ops := by
  simp [State.commit]

@[simp] theorem State.commit_latch (s : State) (w : Writes) :
    (s.commit w).latch = s.latch := by
  simp [State.commit]

@[simp] theorem State.commit_dmem (s : State) (w : Writes) :
    (s.commit w).dmem = s.dmem.writeAll w.dmem := by
  simp [State.commit]

@[simp] theorem State.commit_inputs (s : State) (w : Writes) :
    (s.commit w).inputs = s.inputs := by
  simp [State.commit]

@[simp] theorem State.commit_schedule (s : State) (w : Writes) :
    (s.commit w).schedule = s.schedule := by
  simp [State.commit]

@[simp] theorem State.commit_hostTurns (s : State) (w : Writes) :
    (s.commit w).hostTurns = s.hostTurns := by
  simp [State.commit]

@[simp] theorem State.commit_responses (s : State) (w : Writes) :
    (s.commit w).responses = s.responses := by
  simp [State.commit]

/-! ### Conditional updates, case by case -/

theorem State.writeCmd_busy {s : State} (h : s.busy = true) (v : Word) :
    s.writeCmd v = { s with cmdOvr := true } := by simp [State.writeCmd, h]

theorem State.writeCmd_idle {s : State} (h : s.busy = false) (v : Word) :
    s.writeCmd v = (s.accept v).drawTurns := by simp [State.writeCmd, h]

theorem State.writeCtrl_reset {v : Word} (h : v.getLsbD 1 = true) (s : State) :
    s.writeCtrl v = s.softReset := if_pos h

theorem State.writeCtrl_enable {v : Word} (h : v.getLsbD 1 = false) (s : State) :
    s.writeCtrl v = { s with irqEn := v.getLsbD 0 } :=
  if_neg (by rw [h]; exact Bool.false_ne_true)

theorem State.irq_eq (s : State) : s.irq = (s.irqEn && s.done) := rfl

end Sys2Proof.Machine
end

