-- ==== Sys2Proof/Laws/Ops.lean ====
section
/-! SUPPORT. One lemma per shared operation that says once everything it can do: the checks, the
source reads, `Finish`, the completion step, and `exec` as a completion of a body. -/

namespace Sys2Proof.Machine

open Sys2Proof

/-! ### Checks -/

@[simp] theorem need_true (c : ErrCode) (i : Info) : need true c i = .ok () := rfl

@[simp] theorem need_false (c : ErrCode) (i : Info) : need false c i = .error (.error c i) := rfl

theorem need_cases (b : Bool) (c : ErrCode) (i : Info) :
    (b = true ∧ need b c i = .ok ()) ∨ (b = false ∧ need b c i = .error (.error c i)) := by
  cases b
  · exact .inr ⟨rfl, rfl⟩
  · exact .inl ⟨rfl, rfl⟩

theorem inBounds_iff (par : Params) (addr n : Nat) :
    inBounds par addr n = true ↔ n = 0 ∨ addr + n ≤ par.dmemWords := by simp [inBounds]

theorem isPow2_iff (w : Word) : isPow2 (s32 w) = true ↔ ∃ k, 1 ≤ k ∧ s32 w = 2 ^ k := by
  simp only [isPow2, List.any_eq_true, List.mem_range, decide_eq_true_eq]
  constructor
  · rintro ⟨k, -, h⟩
    exact ⟨k + 1, by omega, h⟩
  · rintro ⟨k, hk, h⟩
    have hb : s32 w < 2 ^ 31 := by
      have := BitVec.toInt_lt (x := w)
      simpa [s32] using this
    have hlt : k < 31 := by
      by_contra hc
      have h31 : (2 : Int) ^ 31 ≤ 2 ^ k := pow_le_pow_right₀ (by norm_num) (by omega)
      omega
    exact ⟨k - 1, by omega, by rw [h]; congr 1; omega⟩

/-! ### Sources -/

theorem checkSrc_ok {par : Params} {o : Operands} {x : Src}
    (h : o.srcLen x = 0 ∨ o.srcAddr x + o.srcLen x ≤ par.dmemWords) :
    checkSrc par o x = .ok () := by
  simp only [checkSrc, (inBounds_iff _ _ _).2 h, need_true]

theorem checkSrc_out {par : Params} {o : Operands} {x : Src} (h : o.srcLen x ≠ 0)
    (h' : par.dmemWords < o.srcAddr x + o.srcLen x) :
    checkSrc par o x = .error (.error .bounds (srcInfo x)) := by
  have : inBounds par (o.srcAddr x) (o.srcLen x) = false := by
    rw [Bool.eq_false_iff, ne_eq, inBounds_iff]
    omega
  simp only [checkSrc, this, need_false]

/-- A source that names a written sequence in bounds is read as that sequence. -/
theorem readSrc_of_sourceIs {s : State} {x : Src} {p : Poly} (h : SourceIs s x p) :
    readSrc s.params s.latch.ops s.dmem x = .ok p := by
  obtain ⟨hl, hb, hm⟩ := h
  unfold readSrc
  rw [checkSrc_ok (by rw [← hl]; exact hb), ← hl, Memory.readSeq_of_holds hm]
  rfl

theorem readSrc_out {s : State} {x : Src} (h : SourceOut s x) :
    readSrc s.params s.latch.ops s.dmem x = .error (.error .bounds (srcInfo x)) := by
  unfold readSrc
  rw [checkSrc_out h.1 h.2]
  rfl

theorem readSrcs_of_sourceIs {s : State} {p q : Poly} (ha : SourceIs s .a p)
    (hb : SourceIs s .b q) : readSrcs s.params s.latch.ops s.dmem = .ok (p, q) := by
  obtain ⟨hl, hbd, hm⟩ := ha
  obtain ⟨hl', hbd', hm'⟩ := hb
  unfold readSrcs
  rw [checkSrc_ok (by rw [← hl]; exact hbd), checkSrc_ok (by rw [← hl']; exact hbd'), ← hl, ← hl',
    Memory.readSeq_of_holds hm, Memory.readSeq_of_holds hm']
  rfl

theorem readSrcs_out_a {s : State} (h : SourceOut s .a) :
    readSrcs s.params s.latch.ops s.dmem = .error (.error .bounds .a) := by
  unfold readSrcs
  rw [checkSrc_out h.1 h.2]
  rfl

theorem readSrcs_out_b {s : State} (ha : ¬ SourceOut s .a) (h : SourceOut s .b) :
    readSrcs s.params s.latch.ops s.dmem = .error (.error .bounds .b) := by
  unfold readSrcs
  rw [checkSrc_ok (by unfold SourceOut at ha; omega), checkSrc_out h.1 h.2]
  rfl

/-- Everything `readSrc` can answer. -/
theorem readSrc_cases (par : Params) (o : Operands) (m : Memory) (x : Src) :
    (∃ p, readSrc par o m x = .ok p ∧ p.length = o.srcLen x ∧
      (o.srcLen x = 0 ∨ o.srcAddr x + o.srcLen x ≤ par.dmemWords) ∧
      m.holds (o.srcAddr x) p) ∨
    (readSrc par o m x = .error (.error .bounds (srcInfo x)) ∧ o.srcLen x ≠ 0 ∧
      par.dmemWords < o.srcAddr x + o.srcLen x) ∨
    ∃ w, readSrc par o m x = .error (.unwritten w) ∧ o.srcAddr x ≤ w ∧
      w < o.srcAddr x + o.srcLen x ∧ w < par.dmemWords ∧ m.readWord w = none := by
  by_cases hb : o.srcLen x = 0 ∨ o.srcAddr x + o.srcLen x ≤ par.dmemWords
  · have hr : readSrc par o m x = m.readSeq (o.srcAddr x) (o.srcLen x) := by
      unfold readSrc; rw [checkSrc_ok hb]; rfl
    cases hm : m.readSeq (o.srcAddr x) (o.srcLen x) with
    | ok p =>
      obtain ⟨hl, hh⟩ := Memory.readSeq_ok hm
      exact .inl ⟨p, by rw [hr, hm], hl, hb, hh⟩
    | error e =>
      obtain ⟨w, he, h1, h2, h3⟩ := Memory.readSeq_error hm
      exact .inr (.inr ⟨w, by rw [hr, hm, he], h1, h2, by omega, h3⟩)
  · refine .inr (.inl ⟨?_, by omega, by omega⟩)
    unfold readSrc
    rw [checkSrc_out (by omega) (by omega)]
    rfl

/-! ### Finish -/

/-- A destination check passes: no result sequence, or one that fits (R124). -/
def dstOk (par : Params) (o : Operands) (x : Dst) : Option Poly → Prop
  | none => True
  | some vs => vs.length ≤ o.dstCap x ∧
      (vs.length = 0 ∨ o.dstAddr x + vs.length ≤ par.dmemWords)

theorem checkDst_ok {par : Params} {o : Operands} {x : Dst} {r : Option Poly}
    (h : dstOk par o x r) :
    checkDst par o x r = .ok () := by
  cases r with
  | none => rfl
  | some vs =>
    have h2 := (inBounds_iff par (o.dstAddr x) vs.length).2 h.2
    simp only [checkDst, decide_eq_true h.1, h2, Bool.and_self, need_true]

theorem checkDst_bad {par : Params} {o : Operands} {x : Dst} {vs : Poly} (h : ¬ dstOk par o x (some vs)) :
    checkDst par o x (some vs) = .error (.error .bounds (dstInfo x)) := by
  have : (decide (vs.length ≤ o.dstCap x) && inBounds par (o.dstAddr x) vs.length) = false := by
    rw [Bool.eq_false_iff, ne_eq, Bool.and_eq_true, decide_eq_true_eq, inBounds_iff]
    exact h
  simp only [checkDst, this, need_false]

theorem fitsSeq_some {vs : Poly} : fitsSeq (some vs) = true ↔ AllFit vs := by
  simp [fitsSeq, fits32, AllFit]

/-- `Finish` of a single result sequence that fits and has room (R124). -/
theorem finish_d {par : Params} {o : Operands} {d : Poly} (hf : AllFit d) (hd : dstOk par o .d (some d)) :
    finish par o (some d) none [] =
      .ok { dmem := [(o.dstAddr .d, d)], regs := [(.dLen, (d.length : Int))] } := by
  unfold finish
  rw [fitsSeq_some.2 hf, checkDst_ok hd]
  rfl

theorem finish_d_overflow {par : Params} {o : Operands} {d : Poly} (hf : ¬ AllFit d) (e : Option Poly)
    (regs : List (ResultReg × Int)) :
    finish par o (some d) e regs = .error (.error .overflow .d) := by
  have : fitsSeq (some d) = false := by
    rw [Bool.eq_false_iff, ne_eq, fitsSeq_some]; exact hf
  unfold finish
  rw [this]
  rfl

theorem finish_d_bounds {par : Params} {o : Operands} {d : Poly} (hf : AllFit d)
    (hd : ¬ dstOk par o .d (some d)) :
    finish par o (some d) none [] = .error (.error .bounds .d) := by
  unfold finish
  rw [fitsSeq_some.2 hf, checkDst_bad hd]
  rfl

/-- `Finish` of a quotient and a remainder that fit and have room (R124, R172). -/
theorem finish_de {par : Params} {o : Operands} {d e : Poly} (hd : AllFit d) (he : AllFit e)
    (bd : dstOk par o .d (some d)) (be : dstOk par o .e (some e)) :
    finish par o (some d) (some e) [] =
      .ok { dmem := [(o.dstAddr .d, d), (o.dstAddr .e, e)]
            regs := [(.dLen, (d.length : Int)), (.eLen, (e.length : Int))] } := by
  unfold finish
  rw [fitsSeq_some.2 hd, fitsSeq_some.2 he, checkDst_ok bd, checkDst_ok be]
  rfl

/-- Everything `Finish` can answer: its writes, when every result fits and has room, or an error,
with an identifier that goes with its code. -/
theorem finish_cases (par : Params) (o : Operands) (d e : Option Poly)
    (regs : List (ResultReg × Int)) :
    (finish par o d e regs = .ok { dmem := dstWrite o .d d ++ dstWrite o .e e
                                   regs := regs ++ lenWrite .dLen d ++ lenWrite .eLen e } ∧
      fitsSeq d = true ∧ fitsSeq e = true ∧ regs.all (fun w => fits32 w.2) = true ∧
      dstOk par o .d d ∧ dstOk par o .e e) ∨
    ∃ c i, finish par o d e regs = .error (.error c i) ∧ c ≠ .none ∧ reportable c i = true ∧
      (c = .overflow → (fitsSeq d = false ∧ i = .d) ∨ fitsSeq e = false ∨
        regs.all (fun w => fits32 w.2) = false) ∧ c ≠ .divByZero := by
  unfold finish
  by_cases h1 : fitsSeq d = true
  · by_cases h2 : fitsSeq e = true
    · by_cases h3 : regs.all (fun w => fits32 w.2) = true
      · by_cases h4 : dstOk par o .d d
        · by_cases h5 : dstOk par o .e e
          · rw [h1, h2, h3, checkDst_ok h4, checkDst_ok h5]
            exact .inl ⟨rfl, rfl, rfl, rfl, h4, h5⟩
          · cases e with
            | none => exact absurd trivial h5
            | some vs =>
              rw [h1, h2, h3, checkDst_ok h4, checkDst_bad h5]
              exact .inr ⟨.bounds, .e, rfl, by decide, rfl, by decide, by decide⟩
        · cases d with
          | none => exact absurd trivial h4
          | some vs =>
            rw [h1, h2, h3, checkDst_bad h4]
            exact .inr ⟨.bounds, .d, rfl, by decide, rfl, by decide, by decide⟩
      · rw [h1, h2, Bool.eq_false_iff.2 h3]
        exact .inr ⟨.overflow, .none, rfl, by decide, rfl, fun _ => .inr (.inr rfl), by decide⟩
    · rw [h1, Bool.eq_false_iff.2 h2]
      exact .inr ⟨.overflow, .e, rfl, by decide, rfl, fun _ => .inr (.inl rfl), by decide⟩
  · rw [Bool.eq_false_iff.2 h1]
    exact .inr ⟨.overflow, .d, rfl, by decide, rfl, fun _ => .inl ⟨rfl, rfl⟩, by decide⟩

/-! ### The completion step -/

@[simp] theorem complete_ok (s : State) (w : Writes) :
    complete s (.ok w) = .next (s.commit w) := rfl

@[simp] theorem complete_error (s : State) (c : ErrCode) (i : Info) :
    complete s (.error (.error c i)) = .next (s.reportError c i) := rfl

@[simp] theorem complete_unwritten (s : State) (w : Nat) :
    complete s (.error (.unwritten w)) = .refused (.unwrittenDmem w) := rfl

theorem reportError_eq_failedWith (s : State) (c : ErrCode) (i : Info) :
    s.reportError c i = s.failedWith c i := rfl

/-- Everything a completion can do (R61; I2). -/
theorem complete_cases (s : State) (r : Except Stop Writes) :
    (∃ w, r = .ok w ∧ complete s r = .next (s.commit w)) ∨
    (∃ c i, r = .error (.error c i) ∧ complete s r = .next (s.reportError c i)) ∨
    ∃ w, r = .error (.unwritten w) ∧ complete s r = .refused (.unwrittenDmem w) := by
  match r with
  | .ok w => exact .inl ⟨w, rfl, rfl⟩
  | .error (.error c i) => exact .inr (.inl ⟨c, i, rfl, rfl⟩)
  | .error (.unwritten w) => exact .inr (.inr ⟨w, rfl, rfl⟩)

theorem complete_next {s t : State} {r : Except Stop Writes} (h : complete s r = .next t) :
    (∃ w, r = .ok w ∧ t = s.commit w) ∨
    ∃ c i, r = .error (.error c i) ∧ t = s.reportError c i := by
  match r, h with
  | .ok w, h => cases h; exact .inl ⟨w, rfl, rfl⟩
  | .error (.error c i), h => cases h; exact .inr ⟨c, i, rfl, rfl⟩

/-- The body of each command (R113, R120). -/
def bodyOf (i : Instr) (par : Params) (o : Operands) (m : Memory) : Except Stop Writes :=
  match i with
  | .nop => finish par o none none []
  | .egcd => egcdBody par o
  | .modinv => modinvBody par o
  | .trim => trimBody par o m
  | .add => addBody par o m
  | .sub => subBody par o m
  | .conv => convBody par o m
  | .pmod => pmodBody par o m
  | .divp => divpBody par o m
  | .invp => invpBody par o m
  | .inv2k => inv2kBody par o m
  | .bmod => bmodBody par o m
  | .b3enc => b3encBody par o m
  | .b3dec => b3decBody par o m
  | .pack => packBody par o m
  | .unpack => unpackBody par o m

/-- Every command is the completion step on its body: what a command does to the state is `commit`
or `reportError`, and nothing else. -/
theorem exec_eq_complete (i : Instr) (s : State) :
    exec i s = complete s (bodyOf i s.params s.latch.ops s.dmem) := by cases i <;> rfl

theorem exec_ne_fault (i : Instr) (s : State) (f : Fault) : exec i s ≠ .fault f := nomatch f

/-- A single result sequence delivered at D (R61, R95). -/
theorem commit_delivers {s : State} {d : Poly} (hf : AllFit d) :
    Delivered s (s.commit { dmem := [(s.latch.ops.dstAddr .d, d)]
                            regs := [(.dLen, (d.length : Int))] }) d := by
  refine ⟨?_, Memory.holds_writeSeq _ _ hf, fun a h => Memory.readByte_writeSeq_outside _ _ _ h⟩
  simp [State.commit, State.writeResults, State.writeResult, Memory.writeAll, enc32,
    BitVec.ofInt_natCast]

end Sys2Proof.Machine
end

