-- ==== Sys2Proof/Laws/PerInstr.lean ====
section
/-! SUPPORT. The statements made for every instruction, one lemma per constructor of Instr. -/

/-- What is said of every command as syntax: its word is legal, its RSVD field is 0, and it decodes
to the command (R111, R112, R113). -/
def Sys2Proof.Laws.EncodingRoundTrip.Statement (i : Sys2Proof.Instr) : Prop :=
  Sys2Proof.legalWord (Sys2Proof.encode i) = true ∧
  Sys2Proof.rsvdField (Sys2Proof.encode i) = 0#24 ∧
  Sys2Proof.decode (Sys2Proof.encode i) = .ok i

namespace Sys2Proof.Laws.EncodingRoundTrip

theorem nop : Statement .nop := ⟨rfl, rfl, rfl⟩
theorem egcd : Statement .egcd := ⟨rfl, rfl, rfl⟩
theorem modinv : Statement .modinv := ⟨rfl, rfl, rfl⟩
theorem trim : Statement .trim := ⟨rfl, rfl, rfl⟩
theorem add : Statement .add := ⟨rfl, rfl, rfl⟩
theorem sub : Statement .sub := ⟨rfl, rfl, rfl⟩
theorem conv : Statement .conv := ⟨rfl, rfl, rfl⟩
theorem pmod : Statement .pmod := ⟨rfl, rfl, rfl⟩
theorem divp : Statement .divp := ⟨rfl, rfl, rfl⟩
theorem invp : Statement .invp := ⟨rfl, rfl, rfl⟩
theorem inv2k : Statement .inv2k := ⟨rfl, rfl, rfl⟩
theorem bmod : Statement .bmod := ⟨rfl, rfl, rfl⟩
theorem b3enc : Statement .b3enc := ⟨rfl, rfl, rfl⟩
theorem b3dec : Statement .b3dec := ⟨rfl, rfl, rfl⟩
theorem pack : Statement .pack := ⟨rfl, rfl, rfl⟩
theorem unpack : Statement .unpack := ⟨rfl, rfl, rfl⟩

end Sys2Proof.Laws.EncodingRoundTrip
end

