-- ==== Sys2Proof/Laws/Poly.lean ====
section
/-! SUPPORT. The small lemmas of the functions on sequences: lengths, ranges and shapes. -/

namespace Sys2Proof.Machine

open Sys2Proof

/-! ### trim -/

@[simp] theorem trim_nil : trim [] = [] := rfl

@[simp] theorem trim_zero_cons (p : Poly) : trim (0 :: p) = trim p := by simp [trim]

theorem trim_cons_of_ne {c : Int} (h : c ≠ 0) (p : Poly) : trim (c :: p) = c :: p := by
  simp [trim, h]

/-- A trimmed sequence has no leading zero (R160). -/
theorem trim_head (p : Poly) : (trim p).head? ≠ some 0 := by
  induction p with
  | nil => simp
  | cons c p ih =>
    by_cases h : c = 0
    · subst h; simpa using ih
    · rw [trim_cons_of_ne h]; simpa using h

theorem trim_length_le (p : Poly) : (trim p).length ≤ p.length := by
  induction p with
  | nil => simp
  | cons c p ih =>
    by_cases h : c = 0
    · subst h; simp only [trim_zero_cons, List.length_cons]; omega
    · rw [trim_cons_of_ne h]

/-- `trim` removes zeros only (R160). -/
theorem eq_replicate_append_trim (p : Poly) :
    p = List.replicate (p.length - (trim p).length) 0 ++ trim p := by
  induction p with
  | nil => simp
  | cons c p ih =>
    by_cases h : c = 0
    · subst h
      have hl := trim_length_le p
      simp only [trim_zero_cons, List.length_cons]
      rw [Nat.succ_sub hl, List.replicate_succ, List.cons_append, ← ih]
    · rw [trim_cons_of_ne h]; simp

/-- A sequence with no leading zero is its own trim. -/
theorem trim_eq_self {p : Poly} (h : p.head? ≠ some 0) : trim p = p := by
  cases p with
  | nil => rfl
  | cons c p => exact trim_cons_of_ne (by simpa using h) p

@[simp] theorem trim_replicate_append (n : Nat) (p : Poly) :
    trim (List.replicate n 0 ++ p) = trim p := by
  induction n with
  | zero => simp
  | succ n ih => simpa [List.replicate_succ] using ih

@[simp] theorem trim_trim (p : Poly) : trim (trim p) = trim p := trim_eq_self (trim_head p)

/-- The trimmed sequence of R160 is the only one (R160). -/
theorem trim_unique {p d : Poly} (h : TrimOf p d) : trim p = d := by
  rw [h.1, trim_replicate_append, trim_eq_self h.2]

/-! ### Lengths and ranges -/

@[simp] theorem length_zext {p : Poly} {n : Nat} (h : p.length ≤ n) : (zext p n).length = n := by
  simp only [zext, List.length_append, List.length_replicate]
  omega

@[simp] theorem length_pmod (p : Poly) (m : Int) : (pmod p m).length = p.length := by simp [pmod]

@[simp] theorem length_bmod (p : Poly) (m : Int) : (bmod p m).length = p.length := by simp [bmod]

/-- A plain residue lies in [0, m-1] (R168). -/
theorem mem_pmod {p : Poly} {m v : Int} (hm : 1 ≤ m) (h : v ∈ pmod p m) : 0 ≤ v ∧ v ≤ m - 1 := by
  simp only [pmod, List.mem_map] at h
  obtain ⟨c, -, rfl⟩ := h
  have h1 := Int.emod_nonneg c (show m ≠ 0 by omega)
  have h2 := Int.emod_lt_of_pos c (show 0 < m by omega)
  omega

/-- A centred residue lies in [-(m/2), m-1-m/2] and is congruent to what it reduces (R230). -/
theorem bmod1_spec {m : Int} (hm : 1 ≤ m) (c : Int) :
    -(m / 2) ≤ bmod1 c m ∧ bmod1 c m ≤ m - 1 - m / 2 ∧ (bmod1 c m - c) % m = 0 := by
  have h1 := Int.emod_nonneg (c + m / 2) (show m ≠ 0 by omega)
  have h2 := Int.emod_lt_of_pos (c + m / 2) (show 0 < m by omega)
  refine ⟨by unfold bmod1; omega, by unfold bmod1; omega, ?_⟩
  have h3 := Int.emod_add_mul_ediv (c + m / 2) m
  have : bmod1 c m - c = m * (-((c + m / 2) / m)) := by unfold bmod1; linarith
  rw [this]
  exact Int.mul_emod_right m _

@[simp] theorem length_lowAdd (p q : List Int) :
    (lowAdd p q).length = max p.length q.length := by
  induction p generalizing q with
  | nil => simp [lowAdd]
  | cons a p ih => cases q <;> simp [lowAdd, ih]

@[simp] theorem length_lowFold (n fuel : Nat) (p : List Int) : (lowFold n fuel p).length = n := by
  induction fuel generalizing p with
  | zero => simp [lowFold]
  | succ fuel ih =>
    unfold lowFold
    split
    · simp
    · simp [ih]

/-- CONV's result always has exactly N coefficients (R166). -/
@[simp] theorem length_convN (n : Nat) (p q : Poly) : (convN n p q).length = n := by simp [convN]

end Sys2Proof.Machine
end

