-- ==== Sys2Proof/Laws/Step.lean ====
section
/-! SUPPORT. The bus and the step: what each access can do, said once, and every case of a step. -/

namespace Sys2Proof.Machine

open Sys2Proof

/-! ### The address map -/

/-- The address map finds every register at its offset. -/
theorem targetAt_offset (par : Params) (r : Reg) : targetAt par (Reg.offset r) = some (.reg r) := by
  cases r <;> rfl

theorem offset_lt (r : Reg) : Reg.offset r < 2 ^ 17 := by cases r <;> decide

/-- An offset the address map gives to a register is that register's offset. -/
theorem targetAt_reg {par : Params} {off : Nat} {r : Reg} (h : targetAt par off = some (.reg r)) :
    off = Reg.offset r := by
  unfold targetAt at h
  split at h
  · cases h
  · split at h
    · split at h
      · rename_i r' hr
        cases h
        have := List.find?_some hr
        simpa [eq_comm] using this
      · cases h
    · split at h <;> cases h

/-- An offset the address map gives to a DMEM word. -/
theorem targetAt_word {par : Params} {off i : Nat} (h : targetAt par off = some (.word i)) :
    off = 0x10000 + 4 * i ∧ i < par.dmemWords := by
  unfold targetAt dmemOffset at h
  split at h
  · cases h
  · split at h
    · split at h <;> cases h
    · split at h
      · cases h
        omega
      · cases h

theorem targetAt_wordOffset {par : Params} {i : Nat} (h : i < par.dmemWords) :
    targetAt par (0x10000 + 4 * i) = some (.word i) := by
  unfold targetAt dmemOffset
  have h1 : (0x10000 + 4 * i - 0x10000) / 4 = i := by omega
  rw [if_neg (by omega), if_neg (by omega), h1, if_pos h]

/-! ### One access -/

/-- What `target` says of an access (R83, R87). -/
theorem target_cases (s : State) (off : Offset) (size : Nat) :
    (∃ r, s.target off size = some (.reg r) ∧ size = 4 ∧ off.toNat = Reg.offset r) ∨
    (∃ i, s.target off size = some (.word i) ∧ size = 4 ∧ off.toNat = 0x10000 + 4 * i ∧
      i < s.params.dmemWords ∧ s.busy = false) ∨
    s.target off size = none := by
  unfold State.target
  split
  · exact .inr (.inr rfl)
  · rename_i hs
    have hs : size = 4 := by simpa using hs
    split
    · rename_i r hr
      exact .inl ⟨r, rfl, hs, targetAt_reg hr⟩
    · rename_i i hi
      split
      · exact .inr (.inr rfl)
      · rename_i hb
        obtain ⟨h1, h2⟩ := targetAt_word hi
        exact .inr (.inl ⟨i, rfl, hs, h1, h2, by simpa using hb⟩)
    · exact .inr (.inr rfl)

theorem target_reg (s : State) (r : Reg) :
    s.target (BitVec.ofNat 17 (Reg.offset r)) 4 = some (.reg r) := by
  unfold State.target
  rw [if_neg (by decide), BitVec.toNat_ofNat, Nat.mod_eq_of_lt (offset_lt r), targetAt_offset]

theorem target_word {s : State} (hw : s.params.wellFormed = true) (hb : s.busy = false) {i : Nat}
    (hi : i < s.params.dmemWords) :
    s.target (BitVec.ofNat 17 (0x10000 + 4 * i)) 4 = some (.word i) := by
  have hlt : 0x10000 + 4 * i < 2 ^ 17 := by
    simp only [Params.wellFormed, Bool.and_eq_true, decide_eq_true_eq] at hw
    omega
  unfold State.target
  rw [if_neg (by decide), BitVec.toNat_ofNat, Nat.mod_eq_of_lt hlt, targetAt_wordOffset hi]
  simp [hb]

/-- Everything an access can do (R82 to R88, R93). -/
theorem serve_cases (s : State) (a : Access) :
    (s.serve a = .next s.busError ∧ s.target a.shape.1 a.shape.2 = none) ∨
    (∃ off r, a = .read off 4 ∧ off.toNat = Reg.offset r ∧
      s.serve a = .next (s.respond (.data (s.readReg r)))) ∨
    (∃ off r v, a = .write off 4 v ∧ off.toNat = Reg.offset r ∧
      s.serve a = .next ((s.writeReg r v).respond .ack)) ∨
    (∃ off i w, a = .read off 4 ∧ off.toNat = 0x10000 + 4 * i ∧ i < s.params.dmemWords ∧
      s.busy = false ∧ s.dmem.readWord i = some w ∧ s.serve a = .next (s.respond (.data w))) ∨
    (∃ off i, a = .read off 4 ∧ off.toNat = 0x10000 + 4 * i ∧ i < s.params.dmemWords ∧
      s.busy = false ∧ s.dmem.readWord i = none ∧ s.serve a = .refused (.unwrittenDmem i)) ∨
    ∃ off i v, a = .write off 4 v ∧ off.toNat = 0x10000 + 4 * i ∧ i < s.params.dmemWords ∧
      s.busy = false ∧
      s.serve a = .next (State.respond { s with dmem := s.dmem.writeWord i v } .ack) := by
  cases a with
  | read off size =>
    rcases target_cases s off size with ⟨r, ht, hs, ho⟩ | ⟨i, ht, hs, ho, hi, hb⟩ | ht
    · subst hs
      exact .inr (.inl ⟨off, r, rfl, ho, by simp [State.serve, ht]⟩)
    · subst hs
      cases hw : s.dmem.readWord i with
      | none =>
        exact .inr (.inr (.inr (.inr (.inl ⟨off, i, rfl, ho, hi, hb, hw, by
          simp [State.serve, ht, hw]⟩))))
      | some w =>
        exact .inr (.inr (.inr (.inl ⟨off, i, w, rfl, ho, hi, hb, hw, by
          simp [State.serve, ht, hw]⟩)))
    · exact .inl ⟨by simp [State.serve, ht], ht⟩
  | write off size v =>
    rcases target_cases s off size with ⟨r, ht, hs, ho⟩ | ⟨i, ht, hs, ho, hi, hb⟩ | ht
    · subst hs
      exact .inr (.inr (.inl ⟨off, r, v, rfl, ho, by simp [State.serve, ht]⟩))
    · subst hs
      exact .inr (.inr (.inr (.inr (.inr ⟨off, i, v, rfl, ho, hi, hb, by
        simp [State.serve, ht]⟩))))
    · exact .inl ⟨by simp [State.serve, ht], ht⟩

/-! ### One step -/

/-- Every case of a host action. -/
theorem host_cases (s : State) (i : Input) :
    (∃ a, Input.reaching i = some a ∧ s.host i = s.serve a) ∨
    (Input.reaching i = none ∧ i ≠ .wait ∧ i ≠ .hardReset ∧ s.host i = .next s) ∨
    (i = .wait ∧ s.host i = .next s.poll) ∨
    (i = .hardReset ∧ s.host i = .next s.hardReset) := by
  cases i with
  | access a => exact .inl ⟨a, rfl, rfl⟩
  | busRead addr size =>
    cases h : Input.reaching (.busRead addr size) with
    | none => exact .inr (.inl ⟨rfl, nofun, nofun, by simp [State.host, h, State.serveRouted]⟩)
    | some a => exact .inl ⟨a, rfl, by simp [State.host, h, State.serveRouted]⟩
  | busWrite addr size v =>
    cases h : Input.reaching (.busWrite addr size v) with
    | none => exact .inr (.inl ⟨rfl, nofun, nofun, by simp [State.host, h, State.serveRouted]⟩)
    | some a => exact .inl ⟨a, rfl, by simp [State.host, h, State.serveRouted]⟩
  | wait => exact .inr (.inr (.inl ⟨rfl, rfl⟩))
  | hardReset => exact .inr (.inr (.inr ⟨rfl, rfl⟩))

/-- Every case of a step: the completion of a command, of an illegal word, idling, or the next host
action. -/
theorem step_cases (s : State) :
    (s.enginesTurn = true ∧ ∃ i, decode s.latch.cmd = .ok i ∧ step s = exec i s) ∨
    (s.enginesTurn = true ∧ ∃ e, decode s.latch.cmd = .error e ∧
      step s = .next (s.reportError .illegalOpcode .none)) ∨
    (s.enginesTurn = false ∧ s.inputs = [] ∧ step s = .next s) ∨
    (s.enginesTurn = false ∧ ∃ i rest, s.inputs = i :: rest ∧
      step s = (s.takeInput rest).host i) := by
  unfold step
  by_cases h : s.enginesTurn = true
  · rw [if_pos h]
    cases hd : decode s.fetch with
    | ok i => exact .inl ⟨h, i, hd, rfl⟩
    | error e => exact .inr (.inl ⟨h, e, hd, rfl⟩)
  · rw [if_neg h]
    have h' : s.enginesTurn = false := by simpa using h
    cases hi : s.inputs with
    | nil => exact .inr (.inr (.inl ⟨h', rfl, by simp [State.hostStep, hi]⟩))
    | cons i rest => exact .inr (.inr (.inr ⟨h', i, rest, rfl, by simp [State.hostStep, hi]⟩))

theorem enginesTurn_iff (s : State) :
    s.enginesTurn = true ↔ s.busy = true ∧ (s.hostTurns = 0 ∨ s.inputs = []) := by
  simp [State.enginesTurn]

/-- A state in which the engine moves is busy. -/
theorem busy_of_enginesTurn {s : State} (h : s.enginesTurn = true) : s.busy = true :=
  ((enginesTurn_iff s).1 h).1

/-- A placed command is the engine's to complete at once. -/
theorem enginesTurn_withFetchWord (s : State) (nbits w : Nat) :
    (s.withFetchWord nbits w).enginesTurn = true := by
  simp [State.withFetchWord, State.enginesTurn, State.accept]

end Sys2Proof.Machine
end

