-- ==== Sys2Proof/Tests/Slice0.lean ====
section
/-! SUPPORT. The model's own tests, with expected results from spec/95_test_vectors.md and the
corner cases of the rules, and, for every statement with hypotheses, a state and operands that meet
them. -/

namespace Sys2Proof.Tests

open Sys2Proof Sys2Proof.Machine

set_option Elab.async false

/-! ### Builders -/

/-- A command in flight, the engine to move, with the given operands: source A at word 0, source B
at word 32, destination D at word 64 and E at word 96, each with room for 32 words. -/
def running (mod ringN width sa sb : Int) (a b : Poly) : State :=
  { State.reset with
    busy := true
    latch := { cmd := 0, ops := {
      mod := enc32 mod, ringN := enc32 ringN, width := enc32 width, sa := enc32 sa, sb := enc32 sb
      aAddr := 0, aLen := enc32 a.length, bAddr := 32, bLen := enc32 b.length
      dAddr := 64, dCap := 32, eAddr := 96, eCap := 32 } }
    dmem := (Memory.writeSeq [] 0 a).writeSeq 32 b }

/-- The same with no operands but those of the operand registers named. -/
def withOps (s : State) (f : Operands → Operands) : State :=
  { s with latch := { s.latch with ops := f s.latch.ops } }

/-- The next state of an outcome. -/
def nextOf (o : Host.Outcome State Fault Refusal) : Option State :=
  match o with
  | .next t => some t
  | _ => none

/-- What a completion reports and the D sequence it leaves. -/
def report (o : Host.Outcome State Fault Refusal) : Option (ErrCode × Info × Poly) :=
  match o with
  | .next t =>
    match t.dmem.readSeq 64 t.dLen.toNat with
    | .ok d => some (t.err, t.errInfo, d)
    | .error _ => none
  | _ => none

/-- The E sequence a completion leaves. -/
def reportE (o : Host.Outcome State Fault Refusal) : Option Poly :=
  match o with
  | .next t =>
    match t.dmem.readSeq 96 t.eLen.toNat with
    | .ok d => some d
    | .error _ => none
  | _ => none

/-- The scalar results a completion leaves. -/
def results (o : Host.Outcome State Fault Refusal) : Option (ErrCode × Info × Int × Int × Int) :=
  match o with
  | .next t => some (t.err, t.errInfo, s32 t.r0, s32 t.r1, s32 t.r2)
  | _ => none

/-- The STATUS word after an outcome. -/
def statusOf (o : Host.Outcome State Fault Refusal) : Option Word :=
  match o with
  | .next t => some (t.readReg .status)
  | _ => none

/-! ### Well-formedness: an ill-formed term for each check -/

theorem test_wf_reserved_opcode_refused : legalWord 0x00000003#32 = false := by decide
theorem test_wf_reserved_opcode_gap_refused : legalWord 0x00000019#32 = false := by decide
theorem test_wf_reserved_opcode_top_refused : legalWord 0x00000024#32 = false := by decide
theorem test_wf_reserved_bits_refused : legalWord 0x00000111#32 = false := by decide
theorem test_wf_command_word : legalWord 0x00000011#32 = true := by decide
theorem test_wf_no_dmem_refused : (Params.mk 0 4096).wellFormed = false := by decide
theorem test_wf_dmem_too_large_refused : (Params.mk 16385 4096).wellFormed = false := by decide
theorem test_wf_no_degree_refused : (Params.mk 16384 0).wellFormed = false := by decide
theorem test_wf_degree_no_word_refused : (Params.mk 16384 4294967296).wellFormed = false := by
  decide
theorem test_wf_this_hardware : Config.thisHardware.wellFormed = true := by decide
theorem test_wf_wr_too_large_refused :
    (Stmt.wr .mod 4294967296).wellFormed Config.thisHardware = false := by decide
theorem test_wf_wr_too_small_refused :
    (Stmt.wr .mod (-2147483649)).wellFormed Config.thisHardware = false := by decide
theorem test_wf_wrm_outside_refused :
    (Stmt.wrm 16383 [1, 2]).wellFormed Config.thisHardware = false := by decide
theorem test_wf_wrm_value_refused :
    (Stmt.wrm 0 [4294967296]).wellFormed Config.thisHardware = false := by decide
theorem test_wf_rdm_outside_refused :
    (Stmt.rdm 16384 1).wellFormed Config.thisHardware = false := by decide
theorem test_wf_src_refused :
    (Stmt.src .a (-2147483649) 1).wellFormed Config.thisHardware = false := by decide
theorem test_wf_dst_refused :
    (Stmt.dst .d 0 4294967296).wellFormed Config.thisHardware = false := by decide

/-! ### Decoding: words written out from R111 and R113, RSVD then OPC -/

theorem test_decode_nop : decode 0b000000000000000000000000_00000000#32 = .ok .nop := rfl
theorem test_decode_egcd : decode 0b000000000000000000000000_00000001#32 = .ok .egcd := rfl
theorem test_decode_modinv : decode 0b000000000000000000000000_00000010#32 = .ok .modinv := rfl
theorem test_decode_trim : decode 0b000000000000000000000000_00010000#32 = .ok .trim := rfl
theorem test_decode_add : decode 0b000000000000000000000000_00010001#32 = .ok .add := rfl
theorem test_decode_sub : decode 0b000000000000000000000000_00010010#32 = .ok .sub := rfl
theorem test_decode_conv : decode 0b000000000000000000000000_00010011#32 = .ok .conv := rfl
theorem test_decode_pmod : decode 0b000000000000000000000000_00010100#32 = .ok .pmod := rfl
theorem test_decode_divp : decode 0b000000000000000000000000_00010101#32 = .ok .divp := rfl
theorem test_decode_invp : decode 0b000000000000000000000000_00010110#32 = .ok .invp := rfl
theorem test_decode_inv2k : decode 0b000000000000000000000000_00010111#32 = .ok .inv2k := rfl
theorem test_decode_bmod : decode 0b000000000000000000000000_00011000#32 = .ok .bmod := rfl
theorem test_decode_b3enc : decode 0b000000000000000000000000_00100000#32 = .ok .b3enc := rfl
theorem test_decode_b3dec : decode 0b000000000000000000000000_00100001#32 = .ok .b3dec := rfl
theorem test_decode_pack : decode 0b000000000000000000000000_00100010#32 = .ok .pack := rfl
theorem test_decode_unpack : decode 0b000000000000000000000000_00100011#32 = .ok .unpack := rfl
theorem test_decode_reserved_opcode :
    decode 0b000000000000000000000000_10011001#32 = .error .reservedOpcode := rfl
theorem test_decode_reserved_bits :
    decode 0b000000000000000000000001_00010001#32 = .error .reservedBits := rfl
theorem test_decode_top_bit :
    decode 0b100000000000000000000000_00000000#32 = .error .reservedBits := rfl
theorem test_table_word : decodeTableWord 32 0x17 = some .inv2k := by decide
/-- The opcode map of R113 lists no opcode twice. -/
theorem test_opcode_map_unambiguous :
    (opcodeMap.map Prod.fst).Pairwise (fun x y => x ≠ y) := by decide
theorem test_register_map_unambiguous :
    (regMap.map Reg.offset).Pairwise (fun x y => x < y) := by decide

/-! ### The commands (95_test_vectors.md section 2) -/

theorem test_nop_status : statusOf (exec .nop (running 0 0 0 0 0 [] [])) = some 0x00000002#32 := by
  decide +kernel
theorem test_illegal_status :
    statusOf (step (State.reset.withFetchWord 32 0x99)) = some 0x00000102#32 := by decide +kernel
theorem test_egcd_pair : results (exec .egcd (running 0 0 0 240 46 [] [])) =
    some (.none, .none, 2, -9, 47) := by decide +kernel
theorem test_egcd_largest : results (exec .egcd (running 0 0 0 2147483647 1073741824 [] [])) =
    some (.none, .none, 1, -1, 2) := by decide +kernel
theorem test_modinv_negative : results (exec .modinv (running 7 0 0 (-1) 0 [] [])) =
    some (.none, .none, 6, 0, 0) := by decide +kernel
theorem test_modinv_two_even : results (exec .modinv (running 2 0 0 4 0 [] [])) =
    some (.none, .none, 1, 0, 0) := by decide +kernel
theorem test_trim_leading : report (exec .trim (running 0 0 0 0 0 [0, 0, 5, 0, -1] [])) =
    some (.none, .none, [5, 0, -1]) := by decide +kernel
theorem test_add_unequal : report (exec .add (running 0 0 0 0 0 [1, 2, 3] [5, -3])) =
    some (.none, .none, [1, 7, 0]) := by decide +kernel
theorem test_add_overflow : report (exec .add (running 0 0 0 0 0 [2147483647] [1])) =
    some (.overflow, .d, []) := by decide +kernel
theorem test_sub_order : report (exec .sub (running 0 0 0 0 0 [2] [1, 0, 2])) =
    some (.none, .none, [-1, 0, 0]) := by decide +kernel
theorem test_sub_lowest : report (exec .sub (running 0 0 0 0 0 [-2147483647] [1])) =
    some (.none, .none, [-2147483648]) := by decide +kernel
theorem test_conv_fold : report (exec .conv (running 0 2 0 0 0 [1, 2, 3, 4] [1])) =
    some (.none, .none, [4, 6]) := by decide +kernel
theorem test_conv_shift : report (exec .conv (running 0 3 0 0 0 [1, 0] [1, 2, 3])) =
    some (.none, .none, [2, 3, 1]) := by decide +kernel
theorem test_pmod_negative : report (exec .pmod (running 3 0 0 0 0 [4, -1, 0, -5] [])) =
    some (.none, .none, [1, 2, 0, 1]) := by decide +kernel
theorem test_divp_quotient : report (exec .divp (running 3 0 0 0 0 [1, 0, 0, 2] [1, 1])) =
    some (.none, .none, [1, 2, 1]) := by decide +kernel
theorem test_divp_remainder : reportE (exec .divp (running 3 0 0 0 0 [1, 0, 0, 2] [1, 1])) =
    some [1] := by decide +kernel
theorem test_invp_seven :
    report (exec .invp (running 3 7 0 0 0 [-1, 0, 1, 1, 0, -1, 1] [])) =
    some (.none, .none, [2, 2, 1, 1, 2, 2, 0]) := by decide +kernel
theorem test_invp_no_unit : report (exec .invp (running 3 2 0 0 0 [1, 1] [])) =
    some (.noInverse, .none, []) := by decide +kernel
theorem test_inv2k_lifted :
    report (exec .inv2k (running 2048 7 0 0 0 [-1, 0, 1, 1, 0, -1, 1] [])) =
    some (.none, .none, [315, -630, 788, 788, -630, 315, -945]) := by decide +kernel
theorem test_inv2k_two : report (exec .inv2k (running 2 3 0 0 0 [1, 0] [])) =
    some (.none, .none, [-1, 0, 0]) := by decide +kernel
theorem test_bmod_half : report (exec .bmod (running 2048 0 0 0 0 [2047, 1024, -1024, 5000] [])) =
    some (.none, .none, [-1, -1024, -1024, 904]) := by decide +kernel
theorem test_bmod_odd : report (exec .bmod (running 3 0 0 0 0 [1, 2, -2] [])) =
    some (.none, .none, [1, -1, 1]) := by decide +kernel
theorem test_b3enc_hi : report (exec .b3enc (running 0 0 0 0 0 [72, 105] [])) =
    some (.none, .none, [1, 1, 0, 0, -1, 1, 0, 1, -1]) := by decide +kernel
theorem test_b3enc_not_byte : report (exec .b3enc (running 0 0 0 0 0 [256] [])) =
    some (.operandRange, .a, []) := by decide +kernel
theorem test_b3dec_bytes : report (exec .b3dec (running 0 0 0 0 0 [1, 1, 1, 1, 1, 1] [])) =
    some (.none, .none, [2, 216]) := by decide +kernel
theorem test_pack_eleven : report (exec .pack (running 0 0 11 0 0 [0, 2047, -1, 1024] [])) =
    some (.none, .none, [0, 31, 255, 255, 192, 0]) := by decide +kernel
theorem test_pack_pad_low : report (exec .pack (running 0 0 3 0 0 [1, 2, 3] [])) =
    some (.none, .none, [41, 128]) := by decide +kernel
theorem test_unpack_trailing : report (exec .unpack (running 0 0 3 0 0 [41, 128] [])) =
    some (.none, .none, [1, 2, 3, 0, 0]) := by decide +kernel
theorem test_unpack_widest : report (exec .unpack (running 0 0 31 0 0 [128, 0, 0, 1] [])) =
    some (.none, .none, [1073741824]) := by decide +kernel

/-! ### The host interface (95_test_vectors.md section 3, P4) -/

theorem test_cmd_while_busy_overruns :
    ((nextOf ((running 0 0 0 0 0 [] []).serve (.write 0x01C#17 4 0#32))).map
      (fun t => t.readReg .status)) = some 0x00010001#32 := by decide +kernel
theorem test_dmem_while_busy_slverr :
    ((nextOf ((running 0 0 0 0 0 [7] []).serve (.read 0x10000#17 4))).map
      (fun t => (t.readReg .status, t.responses))) = some (0x00020001#32, [.slverr]) := by
  decide +kernel
theorem test_soft_reset_keeps_dmem :
    ((nextOf ((running 5 0 0 0 0 [7] []).serve (.write 0x010#17 4 3#32))).map
      (fun t => (t.readReg .ctrl, t.dmem.readWord 0, t.busy))) =
      some (0#32, some 7#32, false) := by decide +kernel
/-- R302: the register at 0x018 after an EGCD with b negative (INFO_SB = 12). -/
theorem test_err_info_reads_sb :
    ((nextOf (exec .egcd (running 0 0 0 0 (-1) [] []))).bind
      (fun t => (nextOf (t.serve (.read 0x018#17 4))).map (fun u => u.responses.head?))) =
      some (some (.data 0x0000000C#32)) := by decide +kernel
/-- R301, R302: OPERAND_RANGE (4) on RING_N (9). -/
theorem test_err_info_reads_ring_n :
    ((nextOf (exec .conv (running 0 0 0 0 0 [] []))).map
      (fun t => (t.readReg .status, t.readReg .errInfo))) =
      some (0x00000402#32, 0x00000009#32) := by decide +kernel
/-- R118: a word index past the window is no well-formed statement (log 16). -/
theorem test_wrm_past_the_window_refused :
    (Stmt.wrm 16388 [2]).wellFormed Config.thisHardware = false := by decide
/-- R85, R47 on an engine with other parameters: 2 words of DMEM and N_MAX = 3. -/
theorem test_other_parameters_end_of_dmem :
    ((nextOf (State.serve { State.reset with params := Params.mk 2 3 } (.read 0x10008#17 4))).map
      (fun t => t.responses)) = some [.slverr] := by decide +kernel
theorem test_other_parameters_degree :
    ((nextOf (exec .conv { running 0 4 0 0 0 [] [] with params := Params.mk 2 3 })).map
      (fun t => (t.err, t.errInfo))) = some (.operandRange, .ringN) := by decide +kernel
theorem test_script_go_expands :
    expandScript encode [.src .a 0 3, .go .conv] =
      [.access (.write 0x030#17 4 0#32), .access (.write 0x034#17 4 3#32),
       .access (.write 0x01C#17 4 0x13#32)] := by decide +kernel

/-! ### Witnesses: states and operands that meet the hypotheses of each statement -/

/-- An outcome whose next state meets a test. -/
theorem next_of_any {o : Host.Outcome State Fault Refusal} {p : State → Bool}
    (h : (nextOf o).any p = true) : ∃ t, o = .next t ∧ p t = true := by
  cases o with
  | next t => exact ⟨t, rfl, h⟩
  | fault f => exact absurd h (by simp [nextOf])
  | refused r => exact absurd h (by simp [nextOf])

/-- A computation that ends with a sequence. -/
theorem ok_of_toOption {r : Except Stop Poly} {v : Poly} (h : r.toOption = some v) : r = .ok v := by
  cases r with
  | ok x => simpa [Except.toOption] using h
  | error e => exact absurd h (by simp [Except.toOption])

/-- A busy engine with host actions still ordered before its completion. -/
def waiting (inputs : List Input) : State :=
  { running 7 2 3 1 2 [1, 2] [1] with inputs := inputs, hostTurns := inputs.length }

/-- An idle engine with host actions pending and two words of DMEM written. -/
def idle (inputs : List Input) : State :=
  { State.reset with inputs := inputs, dmem := Memory.writeSeq [] 0 [5, 6] }

/-- A write the platform routes to the window. -/
def hostWrite (off : Offset) (v : Word) : Input := .access (.write off 4 v)

theorem witness_DecodeSelectsExactlyTheLegalWords : ∃ s : State, s.busy = true ∧
    (s.hostTurns = 0 ∨ s.inputs = []) ∧ legalWord s.latch.cmd = false :=
  ⟨State.reset.withFetchWord 32 0x99, rfl, .inl rfl, by decide⟩

theorem witness_EnginesTurnRunsTheDecodedCommand : ∃ (s : State) (i : Instr), s.busy = true ∧
    (s.hostTurns = 0 ∨ s.inputs = []) ∧ decode s.latch.cmd = .ok i :=
  ⟨State.reset.withFetchWord 32 0x13, .conv, rfl, .inl rfl, rfl⟩

theorem witness_EnginesTurnRunsTheDecodedCommand_row : decodeTableWord 32 0x23 = some .unpack := by
  decide

theorem witness_HostActionsAreServedInArrivalOrder_idle : ∃ (s : State) (i : Input)
    (rest : List Input), s.inputs = i :: rest ∧ (s.busy = false ∨ s.hostTurns ≠ 0) :=
  ⟨idle [.wait, .hardReset], .wait, [.hardReset], rfl, .inl rfl⟩

theorem witness_HostActionsAreServedInArrivalOrder_busy : ∃ (s : State) (i : Input)
    (rest : List Input), s.inputs = i :: rest ∧ s.busy = true ∧
      (s.busy = false ∨ s.hostTurns ≠ 0) :=
  ⟨waiting [.wait], .wait, [], rfl, rfl, .inr (by decide)⟩

theorem witness_HostActionsAreServedInArrivalOrder_nothing :
    (idle []).inputs = [] ∧ (idle []).busy = false := ⟨rfl, rfl⟩

/-- Two host actions ordered before the completion, and a reset behind it. -/
theorem witness_AcceptedCommandReachesItsCompletion : ∃ s : State, s.busy = true ∧
    s.hostTurns = 2 ∧ .hardReset ∈ s.inputs ∧
    ∀ i ∈ s.inputs.take s.hostTurns, ¬ Input.resets i :=
  ⟨{ waiting [regRead .status, hostWrite 0x01C#17 0x10#32, .hardReset] with hostTurns := 2 }, rfl,
    rfl, by decide, by simp [waiting, Input.resets, regRead, hostWrite, Input.reaching]⟩

theorem witness_EveryStepKeepsTheInvariant : ∃ s t : State, s.Inv ∧ step s = .next t := by
  obtain ⟨t, ht, -⟩ := next_of_any (o := step (running 7 2 3 1 2 [1, 2] [1])) (p := fun _ => true)
    (by decide +kernel)
  exact ⟨_, t, ⟨by decide +kernel, by decide +kernel, by decide +kernel, by decide +kernel,
    by decide +kernel, by decide +kernel, by decide +kernel, by decide +kernel⟩, ht⟩

theorem witness_BothResetsSetEveryRegisterToItsResetValue : (2#32).getLsbD 1 = true := by decide

theorem witness_ResetWhileBusyDiscardsTheCommand_soft : ∃ (s t : State) (i : Input)
    (rest : List Input), s.busy = true ∧ s.hostTurns ≠ 0 ∧ s.inputs = i :: rest ∧
      Input.resets i ∧ i ≠ .hardReset ∧ step s = .next t := by
  obtain ⟨t, ht, -⟩ := next_of_any (o := step (waiting [hostWrite 0x010#17 3#32]))
    (p := fun _ => true) (by decide +kernel)
  exact ⟨_, t, _, _, rfl, by decide, rfl, .inr ⟨3#32, rfl, by decide⟩, by decide, ht⟩

theorem witness_ResetWhileBusyDiscardsTheCommand_hard : ∃ (s t : State) (i : Input)
    (rest : List Input), s.busy = true ∧ s.hostTurns ≠ 0 ∧ s.inputs = i :: rest ∧
      Input.resets i ∧ step s = .next t := by
  obtain ⟨t, ht, -⟩ := next_of_any (o := step (waiting [.hardReset]))
    (p := fun _ => true) (by decide +kernel)
  exact ⟨_, t, _, _, rfl, by decide, rfl, .inl rfl, ht⟩

theorem witness_HardResetLeavesNoDmemWordReadable : ∃ s : State, s.params.wellFormed = true ∧
    0 < s.params.dmemWords ∧ 16383 < s.params.dmemWords :=
  ⟨idle [], by decide, by decide, by decide⟩

theorem witness_RegisterReadsHaveNoSideEffect :
    (∃ s : State, s.params.wellFormed = true ∧ s.params = Config.thisHardware) ∧
    ∃ s : State, s.params.wellFormed = true ∧ s.params = Params.mk 1 4294967295 :=
  ⟨⟨State.reset, by decide, rfl⟩, ⟨{ State.reset with params := Params.mk 1 4294967295 },
    by decide, rfl⟩⟩

/-- A register write in the window, on a state with an error report (OPERAND_RANGE on SB). -/
theorem witness_ErrorReportReadsTheNumbersOfTheTables : ∃ (s t u w : State),
    s.err = .operandRange ∧ s.errInfo = .sb ∧ s.busy = false ∧
    s.serve (.write 0x01C#17 4 0#32) = .next t ∧
    exec .nop s = .next u ∧ u.err = .none ∧
    Input.resets .hardReset ∧ s.host .hardReset = .next w := by
  obtain ⟨t, ht, -⟩ := next_of_any
    (o := State.serve { idle [] with err := .operandRange, errInfo := .sb }
      (.write 0x01C#17 4 0#32)) (p := fun _ => true) (by decide +kernel)
  exact ⟨{ idle [] with err := .operandRange, errInfo := .sb }, t, _, _, rfl, rfl, rfl, ht, rfl,
    rfl, .inl rfl, rfl⟩

theorem witness_ZeroOperandsSucceedOrReportTheirRange : ∃ s : State,
    s.latch.ops = Operands.zero ∧ s.busy = true :=
  ⟨State.reset.withFetchWord 32 0x15, rfl, rfl⟩

theorem witness_CtrlWriteResetsOrStoresTheEnable :
    (1#32).getLsbD 1 = false ∧ (3#32).getLsbD 1 = true ∧ (0xFFFFFFFD#32).getLsbD 1 = false := by
  decide

theorem witness_CmdWriteIsAcceptedIdleAndDroppedBusy :
    (∃ s : State, s.busy = false) ∧ ∃ s : State, s.busy = true :=
  ⟨⟨idle [], rfl⟩, ⟨waiting [.wait], rfl⟩⟩

/-- Invalid shapes: a sub-word access, a misaligned one, the hole of the map, the first offset
after the registers, and DMEM while BUSY. -/
theorem witness_ExactlyTheInvalidAccessesGetSlverr_invalid :
    ¬ ValidAccess 16384 false 0x000#17 1 ∧ ¬ ValidAccess 16384 false 0x002#17 4 ∧
    ¬ ValidAccess 16384 false 0x02C#17 4 ∧ ¬ ValidAccess 16384 false 0x06C#17 4 ∧
    ¬ ValidAccess 16384 false 0x0FFFC#17 4 ∧ ¬ ValidAccess 16384 true 0x10000#17 4 := by
  unfold ValidAccess; decide

/-- Valid shapes at the ends of the ranges: the first and the last register, the neighbours of the
hole, the first and the last word of DMEM. -/
theorem witness_ExactlyTheInvalidAccessesGetSlverr_valid :
    ValidAccess 16384 true 0x000#17 4 ∧ ValidAccess 16384 true 0x028#17 4 ∧ ValidAccess 16384 true 0x030#17 4 ∧
    ValidAccess 16384 true 0x068#17 4 ∧ ValidAccess 16384 false 0x10000#17 4 ∧
    ValidAccess 16384 false 0x1FFFC#17 4 := by
  unfold ValidAccess; decide

/-- The end of a DMEM of one word. -/
theorem witness_ExactlyTheInvalidAccessesGetSlverr_small :
    ValidAccess 1 false 0x10000#17 4 ∧ ¬ ValidAccess 1 false 0x10004#17 4 := by
  unfold ValidAccess; decide

theorem witness_ExactlyTheInvalidAccessesGetSlverr_served :
    ∃ (s t : State) (a : Access), ValidAccess s.params.dmemWords s.busy a.shape.1 a.shape.2 ∧ s.serve a = .next t := by
  obtain ⟨t, ht, -⟩ := next_of_any (o := (idle []).serve (.read 0x10004#17 4))
    (p := fun _ => true) (by decide +kernel)
  refine ⟨_, t, _, ?_, ht⟩
  unfold ValidAccess; decide

theorem witness_DmemWindowStoresWholeWords : ∃ (s : State) (w : Word),
    s.params.wellFormed = true ∧ s.busy = false ∧ 0 < s.params.dmemWords ∧
    16383 < s.params.dmemWords ∧ s.dmem.readWord 1 = some w :=
  ⟨idle [], 6#32, by decide, rfl, by decide, by decide, by decide +kernel⟩

theorem witness_OperandRegistersArePlainStorage : isOperandReg .mod = true ∧
    isOperandReg .sb = true ∧ isReadOnlyReg .id = true ∧ isReadOnlyReg .r2 = true := by decide

theorem witness_OnlyTheWindowReachesTheEngine : ∃ lo hi out : Nat,
    Config.base ≤ lo ∧ lo < Config.base + 0x20000 ∧ Config.base ≤ hi ∧
    hi < Config.base + 0x20000 ∧ (out < Config.base ∨ Config.base + 0x20000 ≤ out) :=
  ⟨Config.base, Config.base + 0x1FFFF, Config.base + 0x20000, by omega, by omega, by omega,
    by omega, by omega⟩

theorem witness_WaitPollsStatusUntilIdle :
    (∃ (s : State) (rest : List Input), s.inputs = .wait :: rest ∧
      (s.busy = false ∨ s.hostTurns ≠ 0) ∧ s.busy = false) ∧
    ∃ (s : State) (rest : List Input), s.inputs = .wait :: rest ∧
      (s.busy = false ∨ s.hostTurns ≠ 0) ∧ s.busy = true :=
  ⟨⟨idle [.wait], [], rfl, .inl rfl, rfl⟩, ⟨waiting [.wait], [], rfl, .inr (by decide), rfl⟩⟩

theorem witness_InterruptFollowsEnableAndDone_completion :
    ∃ s t : State, s.enginesTurn = true ∧ step s = .next t ∧ s.irqEn = true ∧ t.err ≠ .none := by
  obtain ⟨t, ht, h⟩ := next_of_any
    (o := step { State.reset.withFetchWord 32 0x14 with irqEn := true })
    (p := fun t => decide (t.err ≠ .none)) (by decide +kernel)
  exact ⟨_, t, rfl, ht, rfl, of_decide_eq_true h⟩

theorem witness_InterruptFollowsEnableAndDone_enable :
    (0#32).getLsbD 1 = false ∧ (1#32).getLsbD 1 = false := by decide

theorem witness_InterruptFollowsEnableAndDone_acknowledge :
    ∃ (s t : State) (v : Word), v.getLsbD 1 = true ∧ s.serve (.write 0x014#17 4 v) = .next t ∧
      s.irq = true := by
  obtain ⟨t, ht, -⟩ := next_of_any
    (o := State.serve { idle [] with irqEn := true, done := true } (.write 0x014#17 4 2#32))
    (p := fun _ => true) (by decide +kernel)
  exact ⟨_, t, _, by decide, ht, rfl⟩

theorem witness_InterruptFollowsEnableAndDone_acceptance :
    ∃ (s t : State) (v : Word), s.busy = false ∧ s.serve (.write 0x01C#17 4 v) = .next t ∧
      s.irq = true := by
  obtain ⟨t, ht, -⟩ := next_of_any
    (o := State.serve { idle [] with irqEn := true, done := true } (.write 0x01C#17 4 0#32))
    (p := fun _ => true) (by decide +kernel)
  exact ⟨_, t, _, rfl, ht, rfl⟩

theorem witness_InterruptFollowsEnableAndDone_reset :
    ∃ (s t : State) (i : Input), Input.resets i ∧ s.host i = .next t ∧ s.irq = true :=
  ⟨{ idle [] with irqEn := true, done := true }, _, .hardReset, .inl rfl, rfl, rfl⟩

theorem witness_InterruptFollowsEnableAndDone_busError :
    ∃ (s t : State) (a : Access), ¬ ValidAccess s.params.dmemWords s.busy a.shape.1 a.shape.2 ∧
      s.serve a = .next t ∧ s.irq = true := by
  obtain ⟨t, ht, -⟩ := next_of_any
    (o := State.serve { idle [] with irqEn := true, done := true } (.read 0x02C#17 4))
    (p := fun _ => true) (by decide +kernel)
  refine ⟨_, t, _, ?_, ht, rfl⟩
  unfold ValidAccess; decide

theorem witness_InterruptFollowsEnableAndDone_overrun :
    ∃ (s t : State) (v : Word), s.busy = true ∧ s.serve (.write 0x01C#17 4 v) = .next t := by
  obtain ⟨t, ht, -⟩ := next_of_any (o := State.serve (waiting []) (.write 0x01C#17 4 0#32))
    (p := fun _ => true) (by decide +kernel)
  exact ⟨_, t, _, rfl, ht⟩

theorem witness_OverrunAndBusErrorFlagsAreSticky :
    ∃ s t : State, step s = .next t ∧ s.busErr = true ∧ t.busErr = false ∧ s.cmdOvr = true ∧
      t.cmdOvr = false := by
  obtain ⟨t, ht, h⟩ := next_of_any
    (o := step { idle [hostWrite 0x014#17 0x00030000#32] with busErr := true, cmdOvr := true })
    (p := fun t => !t.busErr && !t.cmdOvr) (by decide +kernel)
  simp only [Bool.and_eq_true, Bool.not_eq_true'] at h
  exact ⟨_, t, ht, rfl, h.1, rfl, h.2⟩

theorem witness_BusyRisesOnlyByAcceptance :
    ∃ s t : State, s.busy = false ∧ step s = .next t ∧ t.busy = true := by
  obtain ⟨t, ht, h⟩ := next_of_any (o := step (idle [hostWrite 0x01C#17 0x99#32]))
    (p := fun t => t.busy) (by decide +kernel)
  exact ⟨_, t, rfl, ht, h⟩

theorem witness_LatchAndDmemAreFixedWhileBusy :
    ∃ s t : State, s.busy = true ∧ step s = .next t ∧ t.busy = true := by
  obtain ⟨t, ht, h⟩ := next_of_any (o := step (waiting [hostWrite 0x10000#17 7#32]))
    (p := fun t => t.busy) (by decide +kernel)
  exact ⟨_, t, rfl, ht, h⟩

theorem witness_DmemChangesOnlyByCompletionHostWriteOrHardReset_completion :
    ∃ s t : State, step s = .next t ∧ t.dmem ≠ s.dmem ∧ s.busy = true := by
  obtain ⟨t, ht, h⟩ := next_of_any
    (o := step { running 0 0 0 0 0 [0, 5] [] with
      latch := { (running 0 0 0 0 0 [0, 5] []).latch with cmd := 0x10#32 } })
    (p := fun t => decide (t.dmem ≠ (running 0 0 0 0 0 [0, 5] []).dmem)) (by decide +kernel)
  exact ⟨_, t, ht, of_decide_eq_true h, rfl⟩

theorem witness_DmemChangesOnlyByCompletionHostWriteOrHardReset_host :
    ∃ s t : State, step s = .next t ∧ t.dmem ≠ s.dmem ∧ s.busy = false := by
  obtain ⟨t, ht, h⟩ := next_of_any (o := step (idle [hostWrite 0x1FFFC#17 7#32]))
    (p := fun t => decide (t.dmem ≠ (idle []).dmem)) (by decide +kernel)
  exact ⟨_, t, ht, of_decide_eq_true h, rfl⟩

theorem witness_DmemChangesOnlyByCompletionHostWriteOrHardReset_reset :
    ∃ s t : State, step s = .next t ∧ t.dmem ≠ s.dmem ∧ s.busy = false :=
  ⟨idle [.hardReset], _, rfl, by decide +kernel, rfl⟩

/-- A step that is refused. -/
def refusedOf (o : Host.Outcome State Fault Refusal) : Option Refusal :=
  match o with
  | .refused r => some r
  | _ => none

theorem refused_of_eq {o : Host.Outcome State Fault Refusal} {r : Refusal}
    (h : refusedOf o = some r) : o = .refused r := by
  cases o with
  | next t => exact absurd h (by simp [refusedOf])
  | fault f => exact absurd h (by simp [refusedOf])
  | refused r' => simpa [refusedOf] using h

theorem witness_StepStopsOnlyAtAnUnwrittenWord_source : ∃ (s : State) (r : Refusal),
    step s = .refused r :=
  ⟨{ withOps (running 0 0 0 0 0 [] []) (fun o => { o with aLen := 1 }) with
      latch := { cmd := 0x10#32, ops := { (running 0 0 0 0 0 [] []).latch.ops with aLen := 1 } } },
    .unwrittenDmem 0, refused_of_eq (by decide +kernel)⟩

theorem witness_StepStopsOnlyAtAnUnwrittenWord_read : ∃ (s : State) (r : Refusal),
    step s = .refused r :=
  ⟨idle [.access (.read 0x1FFFC#17 4)], .unwrittenDmem 16383, refused_of_eq (by decide +kernel)⟩

/-- An engine with n words of DMEM, every one written, and a host that polls. -/
def filled (n : Nat) (busy : Bool) : State :=
  { State.reset with
    params := Params.mk n 4096, busy := busy
    dmem := Memory.writeSeq [] 0 (List.replicate n 0), inputs := [.wait] }

theorem filled_allWritten (n : Nat) (busy : Bool) : (filled n busy).allWritten := by
  intro i hi
  have h := Memory.readWord_writeSeq [] 0 (List.replicate n 0) (i := i)
    (by rw [List.length_replicate]; exact hi)
  simp only [Nat.zero_add] at h
  simp only [filled, h]
  rfl

theorem witness_RunsOverWrittenDmemAreSafe : ∃ s : State, s.allWritten ∧
    (∀ i ∈ s.inputs, i ≠ .hardReset) ∧ s.inputs ≠ [] ∧ s.params = Config.thisHardware :=
  ⟨filled 16384 false, filled_allWritten _ _, fun i h => by
    rw [List.mem_singleton.1 (show i ∈ [Input.wait] from h)]; decide, List.cons_ne_nil _ _, rfl⟩

theorem witness_StepsOverWrittenDmemGoOnAndKeepItWritten : ∃ s : State, s.allWritten ∧
    (∀ i ∈ s.inputs, i ≠ .hardReset) ∧ s.enginesTurn = true ∧ s.params = Config.thisHardware :=
  ⟨filled 16384 true, filled_allWritten _ _, fun i h => by
    rw [List.mem_singleton.1 (show i ∈ [Input.wait] from h)]; decide, rfl, rfl⟩

theorem witness_CommandsReadAndWriteOnlyTheirMarkedRegisters :
    ∃ (i : Instr) (s t : State), exec i s = .next t ∧ t.err = .none ∧ writesD i = true ∧
      writesE i = true ∧ ∃ a, Outside a (s.latch.ops.dstAddr .d) t.dLen.toNat ∧
        Outside a (s.latch.ops.dstAddr .e) t.eLen.toNat := by
  obtain ⟨t, ht, h⟩ := next_of_any (o := exec .divp (running 3 0 0 0 0 [1, 0, 0, 2] [1, 1]))
    (p := fun t => decide (t.err = .none)) (by decide +kernel)
  exact ⟨_, _, t, ht, of_decide_eq_true h, rfl, rfl, 0, .inl (by decide +kernel),
    .inl (by decide +kernel)⟩

theorem witness_FailedCommandChangesOnlyTheReport :
    ∃ (i : Instr) (s t : State), exec i s = .next t ∧ t.err ≠ .none := by
  obtain ⟨t, ht, h⟩ := next_of_any (o := exec .egcd (running 0 0 0 (-1) 5 [] []))
    (p := fun t => decide (t.err ≠ .none)) (by decide +kernel)
  exact ⟨_, _, t, ht, of_decide_eq_true h⟩

theorem witness_OutcomeDependsOnlyOnTheNamedWords :
    ∃ (i : Instr) (s s' t : State), s'.params = s.params ∧ s'.latch.ops = s.latch.ops ∧
      s'.dmem ≠ s.dmem ∧
      (readsA i = true ∧ ∀ k < s.latch.ops.srcLen .a,
        s'.dmem.readWord (s.latch.ops.srcAddr .a + k) =
          s.dmem.readWord (s.latch.ops.srcAddr .a + k)) ∧
      (readsB i = true ∧ ∀ k < s.latch.ops.srcLen .b,
        s'.dmem.readWord (s.latch.ops.srcAddr .b + k) =
          s.dmem.readWord (s.latch.ops.srcAddr .b + k)) ∧
      exec i s = .next t ∧ t.err = .none := by
  obtain ⟨t, ht, h⟩ := next_of_any (o := exec .add (running 0 0 0 0 0 [1, 2] [3]))
    (p := fun t => decide (t.err = .none)) (by decide +kernel)
  exact ⟨.add, running 0 0 0 0 0 [1, 2] [3], { running 0 0 0 0 0 [1, 2] [3] with
      dmem := (running 0 0 0 0 0 [1, 2] [3]).dmem.writeWord 2 9#32, r0 := 4#32 },
    t, rfl, rfl, by decide +kernel, ⟨rfl, by decide +kernel⟩, ⟨rfl, by decide +kernel⟩, ht,
    of_decide_eq_true h⟩

/-- Source A in bounds and written, source B past the end of DMEM. -/
def sourceBOut (s : State) : State := withOps s (fun o => { o with bAddr := 16383, bLen := 2 })

/-- Source A past the end of DMEM. -/
def sourceAOut (s : State) : State := withOps s (fun o => { o with aAddr := 16384, aLen := 1 })

theorem witness_EveryCommandCompletesOnWrittenSources :
    (∃ (i : Instr) (s : State), readsA i = true ∧ readsB i = true ∧ (∃ p, SourceIs s .a p) ∧
      ∃ q, SourceIs s .b q) ∧
    ∃ (i : Instr) (s : State), readsA i = true ∧ readsB i = true ∧ (∃ p, SourceIs s .a p) ∧
      SourceOut s .b :=
  ⟨⟨.conv, running 0 3 0 0 0 [1, 0] [1, 2, 3], rfl, rfl, ⟨[1, 0], by decide +kernel⟩,
      ⟨[1, 2, 3], by decide +kernel⟩⟩,
    ⟨.conv, sourceBOut (running 0 3 0 0 0 [1, 0] []), rfl, rfl, ⟨[1, 0], by decide +kernel⟩,
      by decide +kernel⟩⟩

/-! #### Errors -/

theorem witness_OperandRangeIsReportedRowByRow_egcd :
    (∃ s : State, s32 s.latch.ops.sa < 0) ∧
    ∃ s : State, 0 ≤ s32 s.latch.ops.sa ∧ s32 s.latch.ops.sb < 0 :=
  ⟨⟨running 0 0 0 (-1) (-1) [] [], by decide +kernel⟩,
    ⟨running 0 0 0 0 (-1) [] [], by decide +kernel⟩⟩

theorem witness_OperandRangeIsReportedRowByRow_modulus :
    (∃ s : State, s32 s.latch.ops.mod < 1 ∧ Instr.pmod ∈ [Instr.modinv, .pmod, .bmod]) ∧
    (∃ s : State, 1 ≤ s32 s.latch.ops.mod ∧ s32 s.latch.ops.mod ≠ 2 ∧
      s32 s.latch.ops.sa < -s32 s.latch.ops.mod) ∧
    (∃ s : State, s32 s.latch.ops.mod < 2 ∧ s32 s.latch.ops.mod = 1 ∧
      Instr.divp ∈ [Instr.divp, .invp]) ∧
    (∃ s : State, ¬ ∃ k, 1 ≤ k ∧ s32 s.latch.ops.mod = 2 ^ k) := by
  refine ⟨⟨running 0 0 0 0 0 [] [], by decide +kernel⟩,
    ⟨running 3 0 0 (-4) 0 [] [], by decide +kernel⟩,
    ⟨running 1 0 0 0 0 [] [], by decide +kernel⟩, running 1 0 0 0 0 [] [], ?_⟩
  rintro ⟨k, hk, h⟩
  have h1 : s32 (running 1 0 0 0 0 [] []).latch.ops.mod = 1 := by decide +kernel
  rw [h1] at h
  have := one_lt_pow₀ (M₀ := Int) (a := 2) (by norm_num) (n := k) (by omega)
  omega

theorem witness_OperandRangeIsReportedRowByRow_degree :
    (∃ s : State, ¬ DegreeOk s ∧ u32 s.latch.ops.ringN = 0 ∧ 2 ≤ s32 s.latch.ops.mod ∧
      ∃ k, 1 ≤ k ∧ s32 s.latch.ops.mod = 2 ^ k) ∧
    ∃ s : State, ¬ DegreeOk s ∧ u32 s.latch.ops.ringN = 4097 ∧ 2 ≤ s32 s.latch.ops.mod ∧
      ∃ k, 1 ≤ k ∧ s32 s.latch.ops.mod = 2 ^ k :=
  ⟨⟨running 2 0 0 0 0 [] [], by decide +kernel, by decide +kernel, by decide +kernel, 1,
      by decide +kernel⟩,
    ⟨running 1073741824 4097 0 0 0 [] [], by decide +kernel, by decide +kernel,
      by decide +kernel, 30, by decide +kernel⟩⟩

theorem witness_OperandRangeIsReportedRowByRow_width :
    (∃ s : State, ¬ WidthOk s ∧ u32 s.latch.ops.width = 0) ∧
    ∃ s : State, ¬ WidthOk s ∧ u32 s.latch.ops.width = 32 :=
  ⟨⟨running 0 0 0 0 0 [] [], by decide +kernel⟩, ⟨running 0 0 32 0 0 [] [], by decide +kernel⟩⟩

theorem witness_OperandRangeIsReportedRowByRow_bytes :
    (∃ (s : State) (vs : Poly), WidthOk s ∧ SourceIs s .a vs ∧ ∃ v ∈ vs, v < 0 ∨ 255 < v) ∧
    ∃ (s : State) (vs : Poly), SourceIs s .a vs ∧ ∃ v ∈ vs, v < -1 ∨ 1 < v :=
  ⟨⟨running 0 0 31 0 0 [0, 256] [], [0, 256], by decide +kernel⟩,
    ⟨running 0 0 0 0 0 [1, -2] [], [1, -2], by decide +kernel⟩⟩

theorem witness_BoundsAreReported_sources :
    (∃ (i : Instr) (s : State), readsA i = true ∧ paramsOk i s ∧ SourceOut s .a) ∧
    ∃ (i : Instr) (s : State), readsB i = true ∧ paramsOk i s ∧ ¬ SourceOut s .a ∧
      SourceOut s .b :=
  ⟨⟨.trim, sourceAOut (running 0 0 0 0 0 [] []), rfl, trivial, by decide +kernel⟩,
    ⟨.add, sourceBOut (running 0 0 0 0 0 [1] []), rfl, trivial, by decide +kernel,
      by decide +kernel⟩⟩

/-- Destinations D and E with room for one word, D's the last of DMEM. -/
def tight (s : State) : State :=
  withOps s (fun o => { o with dAddr := 16383, dCap := 2, eCap := 0 })

theorem witness_BoundsAreReported_destination : ∃ (i : Instr) (s : State) (d : Poly), i ≠ .invp ∧
    i ≠ .inv2k ∧ Yields i s d ∧ AllFit d ∧ ¬ DestFits s .d d.length :=
  ⟨.trim, tight (running 0 0 0 0 0 [0, 5, 7] []), [5, 7], by decide, by decide,
    And.intro trivial (Exists.intro [0, 5, 7] (And.intro (by decide +kernel) (by decide +kernel))),
    by decide +kernel, by decide +kernel⟩

theorem witness_BoundsAreReported_inverses :
    ∃ (s : State) (x v w : Poly), SourceIs s .a x ∧
      ¬ DestFits s .d (u32 s.latch.ops.ringN) ∧ paramsOk .invp s ∧ paramsOk .inv2k s ∧
      invpoly x (s32 s.latch.ops.mod) (u32 s.latch.ops.ringN) = .ok v ∧
      inv2k x (s32 s.latch.ops.mod) (u32 s.latch.ops.ringN) = .ok w :=
  ⟨tight (running 2 3 0 0 0 [1, 0] []), [1, 0], [1, 0, 0], [-1, 0, 0], by decide +kernel,
    by decide +kernel, And.intro (by decide +kernel) (by decide +kernel),
    And.intro (Exists.intro 1 (by decide +kernel)) (by decide +kernel),
    ok_of_toOption (by decide +kernel), ok_of_toOption (by decide +kernel)⟩

theorem witness_BoundsAreReported_division :
    (∃ (s : State) (f g q r : Poly) (e : Nat), 2 ≤ s32 s.latch.ops.mod ∧ SourceIs s .a f ∧
      SourceIs s .b g ∧ QuotientOf (s32 s.latch.ops.mod) e f g q r ∧
      ¬ DestFits s .d q.length) ∧
    ∃ (s : State) (f g q r : Poly) (e : Nat), 2 ≤ s32 s.latch.ops.mod ∧ SourceIs s .a f ∧
      SourceIs s .b g ∧ QuotientOf (s32 s.latch.ops.mod) e f g q r ∧
      DestFits s .d q.length ∧ ¬ DestFits s .e r.length :=
  ⟨⟨tight (running 3 0 0 0 0 [1, 0, 0, 2] [1, 1]), [1, 0, 0, 2], [1, 1], [1, 2, 1], [1], 1,
      by decide +kernel⟩,
    ⟨tight (running 3 0 0 0 0 [1, 0] [1, 1]), [1, 0], [1, 1], [1], [2], 1, by decide +kernel⟩⟩

theorem witness_OverflowIsReportedByAddSubConvOnly :
    (∃ (s : State) (d : Poly), Yields .add s d ∧ ¬ AllFit d) ∧
    (∃ (s : State) (d : Poly), Yields .sub s d ∧ ¬ AllFit d) ∧
    (∃ (s : State) (d : Poly), Yields .conv s d ∧ ¬ AllFit d) ∧
    ∃ (i : Instr) (s t : State), exec i s = .next t ∧ t.err = .overflow := by
  refine ⟨⟨running 0 0 0 0 0 [2147483647] [1], [2147483648], And.intro trivial
      (Exists.intro [2147483647] (Exists.intro [1] ⟨by decide +kernel, by decide +kernel,
        by decide +kernel⟩)), by decide +kernel⟩,
    ⟨running 0 0 0 0 0 [-2147483648] [1], [-2147483649], And.intro trivial
      (Exists.intro [-2147483648] (Exists.intro [1] ⟨by decide +kernel, by decide +kernel,
        by decide +kernel⟩)), by decide +kernel⟩,
    ⟨running 0 1 0 0 0 [65536] [32768], [2147483648], And.intro (show DegreeOk _ by decide +kernel)
      (Exists.intro [65536] (Exists.intro [32768] ⟨by decide +kernel, by decide +kernel,
        by decide +kernel⟩)), by decide +kernel⟩, ?_⟩
  obtain ⟨t, ht, h⟩ := next_of_any (o := exec .add (running 0 0 0 0 0 [2147483647] [1]))
    (p := fun t => decide (t.err = .overflow)) (by decide +kernel)
  exact ⟨_, _, t, ht, of_decide_eq_true h⟩

theorem witness_DivisionByZeroIsReportedByDivpOnly :
    ∃ (s t : State) (f g : Poly), 2 ≤ s32 s.latch.ops.mod ∧ SourceIs s .a f ∧ SourceIs s .b g ∧
      (∀ c ∈ g, c % s32 s.latch.ops.mod = 0) ∧ exec .divp s = .next t ∧ t.err = .divByZero := by
  obtain ⟨t, ht, h⟩ := next_of_any (o := exec .divp (running 3 0 0 0 0 [1] [3, 0]))
    (p := fun t => decide (t.err = .divByZero)) (by decide +kernel)
  exact ⟨_, t, [1], [3, 0], by decide +kernel, by decide +kernel, by decide +kernel,
    by decide +kernel, ht, of_decide_eq_true h⟩

theorem witness_NoInverseIsReportedWhereNoneExists_integers :
    (∃ s : State, paramsOk .modinv s ∧ s32 s.latch.ops.mod ≠ 2 ∧
      Int.gcd (s32 s.latch.ops.sa) (s32 s.latch.ops.mod) ≠ 1) ∧
    ∃ (s : State) (f g : Poly) (e : Nat), paramsOk .divp s ∧ SourceIs s .a f ∧
      SourceIs s .b g ∧ e < g.length ∧
      (∀ k < g.length, e < k → coef g k % s32 s.latch.ops.mod = 0) ∧
      coef g e % s32 s.latch.ops.mod ≠ 0 ∧ Int.gcd (coef g e) (s32 s.latch.ops.mod) ≠ 1 :=
  ⟨⟨running 3 0 0 (-3) 0 [] [], And.intro (by decide +kernel) (by decide +kernel),
      by decide +kernel, by decide +kernel⟩,
    ⟨running 4 0 0 0 0 [1] [4, 2, 1], [1], [4, 2, 1], 1, by show 2 ≤ _; decide +kernel,
      by decide +kernel⟩⟩

/-- The zero sequence has no inverse in any ring. -/
theorem no_inverse_of_nil {n : Nat} {m lo hi : Int} (hn : 1 ≤ n) (d : Poly) :
    ¬ InverseOf n m lo hi [] d := by
  intro h
  have h0 := h.2.2 0 hn
  simp [ringCoef] at h0

theorem witness_NoInverseIsReportedWhereNoneExists_rings :
    ∃ (s : State) (x : Poly), paramsOk .invp s ∧ paramsOk .inv2k s ∧ SourceIs s .a x ∧
      Nat.Prime (s32 s.latch.ops.mod).toNat ∧
      (∀ d, ¬ InverseOf (u32 s.latch.ops.ringN) (s32 s.latch.ops.mod) 0
        (s32 s.latch.ops.mod - 1) x d) ∧
      ∀ d, ¬ InverseOf (u32 s.latch.ops.ringN) 2 0 1 x d := by
  have hm : s32 (running 2 4096 0 0 0 [] []).latch.ops.mod = 2 := by decide +kernel
  refine ⟨running 2 4096 0 0 0 [] [], [], And.intro (by decide +kernel) (by decide +kernel),
    And.intro (Exists.intro 1 (by decide +kernel)) (by decide +kernel), by decide +kernel, ?_,
    no_inverse_of_nil (by decide +kernel), no_inverse_of_nil (by decide +kernel)⟩
  rw [hm]
  exact Nat.prime_two

theorem witness_NoInverseIsReportedWhereNoneExists_zero : ∃ (s : State) (x : Poly),
    paramsOk .invp s ∧ SourceIs s .a x ∧ x ≠ [] ∧ ∀ c ∈ x, c % s32 s.latch.ops.mod = 0 :=
  ⟨running 4 3 0 0 0 [4, -8] [], [4, -8], And.intro (by decide +kernel) (by decide +kernel),
    by decide +kernel⟩

/-- A leading coefficient that is no unit, of a unit of the ring (2X + 1 modulo 4). -/
theorem witness_NoInverseIsReportedWhereNoneExists_leading : ∃ (s : State) (x : Poly) (e : Nat),
    paramsOk .invp s ∧ SourceIs s .a x ∧ e < x.length ∧
    (∀ k < x.length, e < k → coef x k % s32 s.latch.ops.mod = 0) ∧
    coef x e % s32 s.latch.ops.mod ≠ 0 ∧ Int.gcd (coef x e) (s32 s.latch.ops.mod) ≠ 1 :=
  ⟨running 4 3 0 0 0 [4, 2, 1] [], [4, 2, 1], 1,
    And.intro (by decide +kernel) (by decide +kernel), by decide +kernel⟩

/-! #### Results -/

theorem witness_EgcdFollowsItsRecursion : (∃ (a b : Nat) (g y1 x1 : Int), 0 < a ∧
    egcd (b % a) a = (g, y1, x1)) ∧ ∃ (a b : Nat) (g x y : Int), egcd a b = (g, x, y) :=
  ⟨⟨4, 6, 2, 1, 0, by decide, by decide +kernel⟩, 240, 46, 2, -9, 47, by decide +kernel⟩

theorem witness_EgcdWritesGcdAndBezoutPair :
    (∃ s : State, 0 ≤ s32 s.latch.ops.sa ∧ 0 ≤ s32 s.latch.ops.sb ∧
      s32 s.latch.ops.sa = 0) ∧
    ∃ s : State, 0 ≤ s32 s.latch.ops.sa ∧ 0 ≤ s32 s.latch.ops.sb ∧
      s32 s.latch.ops.sa = 2147483647 :=
  ⟨⟨running 0 0 0 0 0 [] [], by decide +kernel⟩,
    ⟨running 0 0 0 2147483647 2147483647 [] [], by decide +kernel⟩⟩

theorem witness_ModinvWritesTheInverse :
    (∃ s : State, paramsOk .modinv s ∧ s32 s.latch.ops.mod = 2) ∧
    (∃ s : State, paramsOk .modinv s ∧ s32 s.latch.ops.mod ≠ 2 ∧ s32 s.latch.ops.mod = 1 ∧
      Int.gcd (s32 s.latch.ops.sa) (s32 s.latch.ops.mod) = 1) ∧
    ∃ s : State, paramsOk .modinv s ∧ s32 s.latch.ops.mod ≠ 2 ∧ s32 s.latch.ops.mod = 7 ∧
      Int.gcd (s32 s.latch.ops.sa) (s32 s.latch.ops.mod) = 1 :=
  ⟨⟨running 2 0 0 (-7) 0 [] [], And.intro (by decide +kernel) (by decide +kernel),
      by decide +kernel⟩,
    ⟨running 1 0 0 (-1) 0 [] [], And.intro (by decide +kernel) (by decide +kernel),
      by decide +kernel⟩,
    ⟨running 7 0 0 (-6) 0 [] [], And.intro (by decide +kernel) (by decide +kernel),
      by decide +kernel⟩⟩

theorem witness_TrimAddSubWriteTheTrimmedResult :
    (∃ (s : State) (d : Poly), Yields .trim s d ∧ AllFit d ∧ DestFits s .d d.length) ∧
    (∃ (s : State) (d : Poly), Yields .add s d ∧ AllFit d ∧ DestFits s .d d.length) ∧
    ∃ (s : State) (d : Poly), Yields .sub s d ∧ AllFit d ∧ DestFits s .d d.length :=
  ⟨⟨running 0 0 0 0 0 [0, 0, 5, 0, -1] [], [5, 0, -1], And.intro trivial
      (Exists.intro [0, 0, 5, 0, -1] ⟨by decide +kernel, by decide +kernel⟩), by decide +kernel⟩,
    ⟨running 0 0 0 0 0 [1, 2, 3] [5, -3], [1, 7, 0], And.intro trivial
      (Exists.intro [1, 2, 3] (Exists.intro [5, -3] ⟨by decide +kernel, by decide +kernel,
        by decide +kernel⟩)), by decide +kernel⟩,
    ⟨running 0 0 0 0 0 [2] [1, 0, 2], [-1, 0, 0], And.intro trivial
      (Exists.intro [2] (Exists.intro [1, 0, 2] ⟨by decide +kernel, by decide +kernel,
        by decide +kernel⟩)), by decide +kernel⟩⟩

theorem witness_ConvWritesTheRingProduct :
    ∃ (s : State) (d : Poly), Yields .conv s d ∧ AllFit d ∧ DestFits s .d d.length :=
  ⟨running 0 3 0 0 0 [1, 0] [1, 2, 3], [2, 3, 1], And.intro (show DegreeOk _ by decide +kernel)
    (Exists.intro [1, 0] (Exists.intro [1, 2, 3] ⟨by decide +kernel, by decide +kernel,
      by decide +kernel⟩)), by decide +kernel⟩

theorem witness_PmodBmodWriteTheirResidues :
    (∃ (s : State) (d : Poly), Yields .pmod s d ∧ DestFits s .d d.length) ∧
    ∃ (s : State) (d : Poly), Yields .bmod s d ∧ DestFits s .d d.length :=
  ⟨⟨running 3 0 0 0 0 [4, -1, 0, -5] [], [1, 2, 0, 1],
      And.intro (show 1 ≤ _ by decide +kernel)
        (Exists.intro [4, -1, 0, -5] ⟨by decide +kernel, by decide +kernel⟩), by decide +kernel⟩,
    ⟨running 2048 0 0 0 0 [2047, 1024, -1024, 5000] [], [-1, -1024, -1024, 904],
      And.intro (show 1 ≤ _ by decide +kernel)
        (Exists.intro [2047, 1024, -1024, 5000] ⟨by decide +kernel, by decide +kernel⟩),
      by decide +kernel⟩⟩

theorem witness_DivpWritesQuotientAndRemainder :
    ∃ (s : State) (f g q r : Poly) (e : Nat), paramsOk .divp s ∧ SourceIs s .a f ∧
      SourceIs s .b g ∧ QuotientOf (s32 s.latch.ops.mod) e f g q r ∧ DestFits s .d q.length ∧
      DestFits s .e r.length :=
  ⟨running 3 0 0 0 0 [1, 0, 0, 2] [1, 1], [1, 0, 0, 2], [1, 1], [1, 2, 1], [1], 1,
    show 2 ≤ _ by decide +kernel, by decide +kernel⟩

theorem witness_InvpWritesTheInverseModuloAPrime :
    ∃ (s : State) (d : Poly), Yields .invp s d ∧ DestFits s .d d.length := by
  have hm : s32 (running 3 3 0 0 0 [1, 1, 0] []).latch.ops.mod = 3 := by decide +kernel
  refine ⟨running 3 3 0 0 0 [1, 1, 0] [], [2, 2, 1],
    And.intro (And.intro (by decide +kernel) (by decide +kernel))
      (Exists.intro [1, 1, 0] ⟨by decide +kernel, ?_, by decide +kernel⟩), by decide +kernel⟩
  rw [hm]
  exact Nat.prime_three

theorem witness_InvpNeverWritesAWrongInverse :
    ∃ (s t : State) (x : Poly), SourceIs s .a x ∧ exec .invp s = .next t ∧ t.err = .none ∧
      s32 s.latch.ops.mod = 9 := by
  obtain ⟨t, ht, h⟩ := next_of_any (o := exec .invp (running 9 2 0 0 0 [1, 0] []))
    (p := fun t => decide (t.err = .none)) (by decide +kernel)
  exact ⟨_, t, [1, 0], by decide +kernel, ht, of_decide_eq_true h, by decide +kernel⟩

theorem witness_InvpNeverWritesAWrongInverse_completes : ∃ (s : State) (x : Poly),
    paramsOk .invp s ∧ SourceIs s .a x ∧ s32 s.latch.ops.mod = 9 ∧
    ¬ DestFits s .d (u32 s.latch.ops.ringN) :=
  ⟨tight (running 9 2 0 0 0 [1, 0] []), [1, 0], And.intro (by decide +kernel) (by decide +kernel),
    by decide +kernel⟩

theorem witness_InvpInvertsConstants :
    ∃ (s : State) (x : Poly), paramsOk .invp s ∧ SourceIs s .a x ∧ 0 < x.length ∧
      (∀ k < x.length, 1 ≤ k → coef x k % s32 s.latch.ops.mod = 0) ∧
      Int.gcd (coef x 0) (s32 s.latch.ops.mod) = 1 ∧ DestFits s .d (u32 s.latch.ops.ringN) :=
  ⟨running 4 3 0 0 0 [4, 3] [], [4, 3], And.intro (by decide +kernel) (by decide +kernel),
    by decide +kernel⟩

theorem witness_InvpInvertsConstants_monomial :
    ∃ (s : State) (x : Poly) (j : Nat), paramsOk .invp s ∧ SourceIs s .a x ∧ j < x.length ∧
      j = 5 ∧ s32 s.latch.ops.mod = 4 ∧
      (∀ k < x.length, k ≠ j → coef x k % s32 s.latch.ops.mod = 0) ∧
      Int.gcd (coef x j) (s32 s.latch.ops.mod) = 1 ∧ DestFits s .d (u32 s.latch.ops.ringN) :=
  ⟨running 4 3 0 0 0 [4, 3, 0, 8, 0, 0, -4] [], [4, 3, 0, 8, 0, 0, -4], 5,
    And.intro (by decide +kernel) (by decide +kernel), by decide +kernel⟩

theorem witness_Inv2kWritesTheBalancedInverse :
    ∃ (s : State) (d : Poly), Yields .inv2k s d ∧ DestFits s .d d.length :=
  ⟨running 2048 3 0 0 0 [2, 0, 1] [], [910, 228, -455],
    And.intro (And.intro (Exists.intro 11 (by decide +kernel)) (by decide +kernel))
      (Exists.intro [2, 0, 1] ⟨by decide +kernel, by decide +kernel⟩), by decide +kernel⟩

theorem witness_HenselLiftingReachesTheInverse : ∃ (f g : Poly) (k n : Nat), 1 ≤ k ∧ k ≤ 30 ∧
    1 ≤ n ∧ invpoly f 2 n = .ok g :=
  ⟨[1, 0], [1, 0, 0], 30, 3, by decide, by decide, by decide, ok_of_toOption (by decide +kernel)⟩

theorem witness_TernaryCodecWritesMinimalCodes :
    (∃ (s : State) (d : Poly), Yields .b3enc s d ∧ DestFits s .d d.length) ∧
    ∃ (s : State) (d : Poly), Yields .b3dec s d ∧ DestFits s .d d.length :=
  ⟨⟨running 0 0 0 0 0 [0, 65] [], [1, 0, -1, 1], And.intro trivial
      (Exists.intro [0, 65] ⟨by decide +kernel, by decide +kernel⟩), by decide +kernel⟩,
    ⟨running 0 0 0 0 0 [1, 1, 1, 1, 1, 1] [], [2, 216], And.intro trivial
      (Exists.intro [1, 1, 1, 1, 1, 1] ⟨by decide +kernel, by decide +kernel⟩),
      by decide +kernel⟩⟩

theorem witness_PackUnpackMoveEveryBit :
    (∃ (s : State) (d : Poly), Yields .pack s d ∧ DestFits s .d d.length) ∧
    ∃ (s : State) (d : Poly), Yields .unpack s d ∧ DestFits s .d d.length :=
  ⟨⟨running 0 0 11 0 0 [0, -1] [], [0, 31, 252], And.intro (show WidthOk _ by decide +kernel)
      (Exists.intro [0, -1] ⟨by decide +kernel, by decide +kernel⟩), by decide +kernel⟩,
    ⟨running 0 0 11 0 0 [0, 31, 252] [], [0, 2047], And.intro (show WidthOk _ by decide +kernel)
      (Exists.intro [0, 31, 252] ⟨by decide +kernel, by decide +kernel⟩), by decide +kernel⟩⟩

theorem witness_TernaryCodecRoundTrips :
    (∀ b ∈ ([0, 255] : Poly), 0 ≤ b ∧ b ≤ 255) ∧ ∀ t ∈ ([-1, 0, 1] : Poly), -1 ≤ t ∧ t ≤ 1 := by
  decide

theorem witness_BitPackingRoundTrips :
    (∃ (w : Nat) (vs : Poly), 8 ≤ w ∧ w ≤ 31 ∧ w = 8 ∧ ∀ v ∈ vs ++ [255], 0 ≤ v ∧ v < 2 ^ w) ∧
    (∃ (w : Nat) (vs : Poly), 8 ≤ w ∧ w ≤ 31 ∧ w = 31 ∧
      ∀ v ∈ vs ++ [2147483647], 0 ≤ v ∧ v < 2 ^ w) ∧
    (∃ (w : Nat) (vs : Poly), 1 ≤ w ∧ w ≤ 7 ∧ w = 7 ∧ ∀ v ∈ vs ++ [127], 0 ≤ v ∧ v < 2 ^ w) ∧
    ∀ b ∈ ([0, 255] : Poly), 0 ≤ b ∧ b ≤ 255 :=
  ⟨⟨8, [0], by decide⟩, ⟨31, [0], by decide⟩, ⟨7, [0], by decide⟩, by decide⟩

theorem witness_ArithmeticLoopsEndWithinTheirFuel :
    (∃ (g0 inv p : Int), 2 ≤ p ∧ (g0 * inv - 1) % p = 0) ∧ ∃ b : Nat, 2 ≤ b :=
  ⟨⟨2, 2, 3, by decide, by decide⟩, 2, by decide⟩

theorem witness_InversionLoopsEndWithinTheirFuel :
    (∃ (p : Int) (n : Nat), 2 ≤ p ∧ 1 ≤ n) ∧
    ∃ (f g : Poly) (j n : Nat), 1 ≤ j ∧ j ≤ 30 ∧ 1 ≤ n ∧ invpoly f 2 n = .ok g :=
  ⟨⟨2, 1, by decide, by decide⟩, [1], [1], 1, 1, by decide, by decide, by decide,
    ok_of_toOption (by decide +kernel)⟩

end Sys2Proof.Tests
end

section
/-! SUPPORT. Every step keeps the invariant (`State.Inv`) and the implementation parameters. A
completion commits what the command's body answers, so the first parts say, once for every body,
what it can answer (`bodyOf_ends`); the rest goes through the host's actions. -/

namespace Sys2Proof.Machine

open Sys2Proof

/-! ### What a computation can end with -/

/-- The computation ends with a value that satisfies `P`, with an error that a completion may report
(R301, R302), or at an unwritten source word. -/
def Ends {α : Type} (P : α → Prop) : Except Stop α → Prop
  | .ok a => P a
  | .error (.error code info) => reportable code info = true
  | .error (.unwritten _) => True

section

variable {α β : Type} {P : α → Prop} {Q : β → Prop}

/-- An error that one computation may end with, another may pass on. -/
theorem Ends.error {x : Except Stop α} (h : Ends P x) {e : Stop} (hx : x = .error e) :
    Ends Q (.error e) := by
  subst hx
  cases e <;> exact h

theorem Ends.bind {x : Except Stop α} {f : α → Except Stop β} (hx : Ends P x)
    (hf : ∀ a, Ends Q (f a)) : Ends Q (x >>= f) := by
  cases x with
  | ok a => exact hf a
  | error e => exact hx.error rfl

theorem raise_ends {code : ErrCode} {info : Info} (h : reportable code info = true) :
    Ends P (raise code info) := h

theorem need_ends (ok : Bool) {code : ErrCode} {info : Info} (h : reportable code info = true) :
    Ends (fun _ => True) (need ok code info) := by
  cases ok with
  | false => exact h
  | true => trivial

end

/-! ### Sources -/

theorem readSeq_ends (m : Memory) (addr n : Nat) : Ends (fun _ => True) (m.readSeq addr n) := by
  cases h : m.readSeq addr n with
  | ok vs => trivial
  | error e =>
    obtain ⟨w, rfl, -⟩ := Memory.readSeq_error h
    trivial

theorem checkSrc_ends (par : Params) (o : Operands) (x : Src) :
    Ends (fun _ => True) (checkSrc par o x) :=
  need_ends _ (by cases x <;> rfl)

theorem readSrc_ends (par : Params) (o : Operands) (m : Memory) (x : Src) :
    Ends (fun _ => True) (readSrc par o m x) :=
  (checkSrc_ends par o x).bind fun _ => readSeq_ends m _ _

theorem readSrcs_ends (par : Params) (o : Operands) (m : Memory) :
    Ends (fun _ => True) (readSrcs par o m) :=
  (checkSrc_ends par o .a).bind fun _ => (checkSrc_ends par o .b).bind fun _ =>
    (readSeq_ends m _ _).bind fun _ => (readSeq_ends m _ _).bind fun _ => trivial

/-! ### The arithmetic that can fail -/

theorem modinv_ends (a m : Int) : Ends (fun _ => True) (modinv a m) := by
  unfold modinv
  split
  · trivial
  · split
    split
    · trivial
    · exact raise_ends rfl

theorem divmodp_ends (f g : Poly) (p : Int) : Ends (fun _ => True) (divmodp f g p) := by
  unfold divmodp divReduced
  split
  · exact raise_ends rfl
  · split
    · next he => exact (modinv_ends _ _).error he
    · split <;> trivial

theorem invLoop_ends (p : Int) (n fuel : Nat) (f g t1 t2 : Poly) :
    Ends (fun _ => True) (invLoop p n fuel f g t1 t2) := by
  induction fuel generalizing f g t1 t2 with
  | zero => exact raise_ends rfl
  | succ fuel ih =>
    unfold invLoop
    split
    · exact raise_ends rfl
    · split
      · next he => exact (modinv_ends _ _).error he
      · trivial
    · split
      · next he => exact (divmodp_ends _ _ _).error he
      · exact ih _ _ _ _

theorem invpoly_ends (x : Poly) (p : Int) (n : Nat) : Ends (fun _ => True) (invpoly x p n) :=
  invLoop_ends ..

theorem henselLoop_ends (f : Poly) (q : Int) (n fuel : Nat) (g : Poly) :
    Ends (fun _ => True) (henselLoop f q n fuel g) := by
  induction fuel generalizing g with
  | zero => exact raise_ends rfl
  | succ fuel ih =>
    unfold henselLoop
    split
    · trivial
    · exact ih _

theorem inv2k_ends (f : Poly) (q : Int) (n : Nat) : Ends (fun _ => True) (inv2k f q n) := by
  unfold inv2k
  split
  · next he => exact (invpoly_ends _ _ _).error he
  · exact henselLoop_ends _ _ _ _ _

/-! ### `Finish` and the bodies -/

/-- The writes of a completion stay inside DMEM, and a length they put into D_LEN or E_LEN is one of
a sequence in DMEM (R92, R124). -/
structure Writes.Fit (par : Params) (w : Writes) : Prop where
  sequences : ∀ d ∈ w.dmem, d.2.length = 0 ∨ d.1 + d.2.length ≤ par.dmemWords
  lengths : ∀ r ∈ w.regs, r.1 = .dLen ∨ r.1 = .eLen → 0 ≤ r.2 ∧ r.2 ≤ par.dmemWords

theorem mem_dstWrite {par : Params} {o : Operands} {x : Dst} {r : Option Poly}
    (h : dstOk par o x r) {d : Nat × Poly} (hd : d ∈ dstWrite o x r) :
    d.2.length = 0 ∨ d.1 + d.2.length ≤ par.dmemWords := by
  cases r with
  | none => cases hd
  | some vs =>
    obtain rfl := List.mem_singleton.1 hd
    exact h.2

theorem mem_lenWrite {par : Params} {o : Operands} {x : Dst} {r : Option Poly}
    (h : dstOk par o x r) {reg : ResultReg} {w : ResultReg × Int} (hw : w ∈ lenWrite reg r) :
    0 ≤ w.2 ∧ w.2 ≤ par.dmemWords := by
  cases r with
  | none => cases hw
  | some vs =>
    obtain rfl := List.mem_singleton.1 hw
    obtain ⟨-, hroom⟩ := h
    simp only
    omega

/-- `Finish` answers fitting writes or a reportable error, when the result registers it is given
are none of the length registers. -/
theorem finish_ends (par : Params) (o : Operands) (d e : Option Poly)
    {regs : List (ResultReg × Int)} (hregs : ∀ r ∈ regs, r.1 ≠ .dLen ∧ r.1 ≠ .eLen) :
    Ends (Writes.Fit par) (finish par o d e regs) := by
  rcases finish_cases par o d e regs with ⟨hf, -, -, -, hd, he⟩ | ⟨c, i, hf, -, hrep, -⟩
  · rw [hf]
    refine ⟨fun x hx => ?_, fun r hr hlen => ?_⟩
    · rcases List.mem_append.1 hx with hx | hx
      · exact mem_dstWrite hd hx
      · exact mem_dstWrite he hx
    · rcases List.mem_append.1 hr with hr | hr
      · rcases List.mem_append.1 hr with hr | hr
        · obtain ⟨hnd, hne⟩ := hregs r hr
          exact (hlen.elim hnd hne).elim
        · exact mem_lenWrite hd hr
      · exact mem_lenWrite he hr
  · rw [hf]
    exact hrep

/-- `Finish` of a command that writes no R register (every one but EGCD and MODINV). -/
theorem finish_sequences_ends (par : Params) (o : Operands) (d e : Option Poly) :
    Ends (Writes.Fit par) (finish par o d e []) := finish_ends par o d e nofun

/-- Every command's body answers fitting writes, a reportable error, or an unwritten source word. -/
theorem bodyOf_ends (i : Instr) (par : Params) (o : Operands) (m : Memory) :
    Ends (Writes.Fit par) (bodyOf i par o m) := by
  cases i with
  | nop => exact finish_sequences_ends ..
  | egcd =>
    exact (need_ends _ rfl).bind fun _ => (need_ends _ rfl).bind fun _ =>
      finish_ends _ _ _ _ (by simp)
  | modinv =>
    exact (need_ends _ rfl).bind fun _ => (need_ends _ rfl).bind fun _ =>
      (modinv_ends _ _).bind fun _ => finish_ends _ _ _ _ (by simp)
  | trim => exact (readSrc_ends ..).bind fun _ => finish_sequences_ends ..
  | add => exact (readSrcs_ends ..).bind fun _ => finish_sequences_ends ..
  | sub => exact (readSrcs_ends ..).bind fun _ => finish_sequences_ends ..
  | conv =>
    exact (need_ends _ rfl).bind fun _ => (readSrcs_ends ..).bind fun _ =>
      finish_sequences_ends ..
  | pmod =>
    exact (need_ends _ rfl).bind fun _ => (readSrc_ends ..).bind fun _ =>
      finish_sequences_ends ..
  | divp =>
    exact (need_ends _ rfl).bind fun _ => (readSrcs_ends ..).bind fun _ =>
      (divmodp_ends ..).bind fun _ => finish_sequences_ends ..
  | invp =>
    exact (need_ends _ rfl).bind fun _ => (need_ends _ rfl).bind fun _ =>
      (readSrc_ends ..).bind fun _ => (invpoly_ends ..).bind fun _ => finish_sequences_ends ..
  | inv2k =>
    exact (need_ends _ rfl).bind fun _ => (need_ends _ rfl).bind fun _ =>
      (readSrc_ends ..).bind fun _ => (inv2k_ends ..).bind fun _ => finish_sequences_ends ..
  | bmod =>
    exact (need_ends _ rfl).bind fun _ => (readSrc_ends ..).bind fun _ =>
      finish_sequences_ends ..
  | b3enc =>
    exact (readSrc_ends ..).bind fun _ => (need_ends _ rfl).bind fun _ =>
      finish_sequences_ends ..
  | b3dec =>
    exact (readSrc_ends ..).bind fun _ => (need_ends _ rfl).bind fun _ =>
      finish_sequences_ends ..
  | pack =>
    exact (need_ends _ rfl).bind fun _ => (readSrc_ends ..).bind fun _ =>
      finish_sequences_ends ..
  | unpack =>
    exact (need_ends _ rfl).bind fun _ => (readSrc_ends ..).bind fun _ =>
      (need_ends _ rfl).bind fun _ => finish_sequences_ends ..

/-! ### What a completion writes -/

/-- The writes of a completion that stay inside DMEM leave every listed byte inside it. -/
theorem Memory.within_writeAll {n : Nat} {m : Memory} {ws : List (Nat × Poly)}
    (hws : ∀ d ∈ ws, d.2.length = 0 ∨ d.1 + d.2.length ≤ n) (h : m.within n = true) :
    (m.writeAll ws).within n = true := by
  induction ws generalizing m with
  | nil => exact h
  | cons d ws ih =>
    obtain ⟨hd, hws⟩ := List.forall_mem_cons.1 hws
    exact ih hws (Memory.within_writeSeq hd h)

theorem toNat_enc32_le {n : Nat} {v : Int} (h : 0 ≤ v ∧ v ≤ n) : (enc32 v).toNat ≤ n := by
  rw [enc32, BitVec.toNat_ofInt]
  omega

/-- D_LEN and E_LEN are at most n. -/
def State.LengthsWithin (n : Nat) (s : State) : Prop := s.dLen.toNat ≤ n ∧ s.eLen.toNat ≤ n

theorem State.LengthsWithin.writeResult {n : Nat} {s : State} (h : s.LengthsWithin n)
    {w : ResultReg × Int} (hw : w.1 = .dLen ∨ w.1 = .eLen → 0 ≤ w.2 ∧ w.2 ≤ n) :
    (s.writeResult w).LengthsWithin n := by
  obtain ⟨r, v⟩ := w
  cases r with
  | dLen => exact ⟨toNat_enc32_le (hw (.inl rfl)), h.2⟩
  | eLen => exact ⟨h.1, toNat_enc32_le (hw (.inr rfl))⟩
  | r0 => exact h
  | r1 => exact h
  | r2 => exact h

theorem State.LengthsWithin.writeResults {n : Nat} {s : State} (h : s.LengthsWithin n)
    {ws : List (ResultReg × Int)}
    (hws : ∀ w ∈ ws, w.1 = .dLen ∨ w.1 = .eLen → 0 ≤ w.2 ∧ w.2 ≤ n) :
    (s.writeResults ws).LengthsWithin n := by
  induction ws generalizing s with
  | nil => exact h
  | cons w ws ih =>
    obtain ⟨hw, hws⟩ := List.forall_mem_cons.1 hws
    exact ih (h.writeResult hw) hws

/-! ### Keeping the invariant and the parameters -/

/-- Going from s to t keeps the invariant and the implementation parameters. -/
structure State.Keeps (s t : State) : Prop where
  inv : s.Inv → t.Inv
  params : t.params = s.params

theorem State.Keeps.refl (s : State) : s.Keeps s := ⟨id, rfl⟩

theorem State.Keeps.trans {s t u : State} (h : s.Keeps t) (h' : t.Keeps u) : s.Keeps u :=
  ⟨h'.inv ∘ h.inv, h'.params.trans h.params⟩

theorem keeps_reportError (s : State) {code : ErrCode} {info : Info}
    (hrep : reportable code info = true) : s.Keeps (s.reportError code info) :=
  ⟨fun h => { h with report := hrep, flight := nofun }, rfl⟩

theorem keeps_commit (s : State) {w : Writes} (hw : w.Fit s.params) : s.Keeps (s.commit w) := by
  refine ⟨fun h => ?_, s.commit_params w⟩
  have hlen : (s.commit w).LengthsWithin s.params.dmemWords :=
    State.LengthsWithin.writeResults (s := { s with dmem := s.dmem.writeAll w.dmem })
      ⟨h.dLength, h.eLength⟩ hw.lengths
  constructor
  case params => simpa using h.params
  case memory => simpa using Memory.wf_writeAll w.dmem h.memory
  case within => simpa using Memory.within_writeAll hw.sequences h.within
  case words => simpa using Memory.wholeWords_writeAll w.dmem h.words
  case report => rfl
  case flight => nofun
  case dLength => simpa using hlen.1
  case eLength => simpa using hlen.2

/-- A completion keeps the invariant and the parameters (R61, R304). -/
theorem exec_keeps {i : Instr} {s t : State} (h : exec i s = .next t) : s.Keeps t := by
  have hends := bodyOf_ends i s.params s.latch.ops s.dmem
  rw [exec_eq_complete] at h
  rcases complete_next h with ⟨w, hw, rfl⟩ | ⟨c, info, he, rfl⟩
  · rw [hw] at hends
    exact keeps_commit s hends
  · rw [he] at hends
    exact keeps_reportError s hends

/-! ### Host actions -/

theorem keeps_respond (s : State) (r : Response) : s.Keeps (s.respond r) :=
  ⟨fun h => { h with }, rfl⟩

theorem keeps_busError (s : State) : s.Keeps s.busError := ⟨fun h => { h with }, rfl⟩

theorem keeps_takeInput (s : State) (rest : List Input) : s.Keeps (s.takeInput rest) :=
  ⟨fun h => { h with }, rfl⟩

theorem keeps_poll (s : State) : s.Keeps s.poll := by
  dsimp only [State.poll]
  split
  · exact ⟨fun h => { h with }, rfl⟩
  · exact keeps_respond s _

theorem keeps_softReset (s : State) : s.Keeps s.softReset :=
  ⟨fun h => { h with
    report := rfl, flight := nofun, dLength := Nat.zero_le _, eLength := Nat.zero_le _ }, rfl⟩

/-- The hardware reset is the soft reset with an empty DMEM (R342). -/
theorem keeps_hardReset (s : State) : s.Keeps s.hardReset :=
  ⟨fun h => { (keeps_softReset s).inv h with memory := rfl, within := rfl, words := rfl }, rfl⟩

/-- The acceptance step sets up exactly what the invariant asks of a busy engine (R60). -/
theorem keeps_accept (s : State) (v : Word) : s.Keeps (s.accept v) :=
  ⟨fun h => { h with report := rfl, flight := fun _ => ⟨rfl, rfl, rfl, rfl⟩ }, rfl⟩

theorem keeps_writeCmd (s : State) (v : Word) : s.Keeps (s.writeCmd v) := by
  cases hb : s.busy with
  | true =>
    rw [State.writeCmd_busy hb]
    exact ⟨fun h => { h with }, rfl⟩
  | false =>
    rw [State.writeCmd_idle hb]
    exact (keeps_accept s v).trans ⟨fun h => { h with }, rfl⟩

/-- Clearing DONE keeps it clear while BUSY. -/
theorem keeps_writeStatus (s : State) (v : Word) : s.Keeps (s.writeStatus v) := by
  refine ⟨fun h => { h with flight := fun hb => ?_ }, rfl⟩
  obtain ⟨hdone, hreport⟩ := h.flight hb
  exact ⟨by simp [hdone], hreport⟩

theorem keeps_writeCtrl (s : State) (v : Word) : s.Keeps (s.writeCtrl v) := by
  cases hv : v.getLsbD 1 with
  | true =>
    rw [State.writeCtrl_reset hv]
    exact keeps_softReset s
  | false =>
    rw [State.writeCtrl_enable hv]
    exact ⟨fun h => { h with }, rfl⟩

/-- A register write keeps the invariant: a read-only register ignores it, and no operand register
is in the invariant. -/
theorem keeps_writeReg (s : State) (r : Reg) (v : Word) : s.Keeps (s.writeReg r v) := by
  cases r
  case ctrl => exact keeps_writeCtrl s v
  case status => exact keeps_writeStatus s v
  case cmd => exact keeps_writeCmd s v
  all_goals exact ⟨fun h => { h with }, rfl⟩

/-- A host write of a DMEM word writes it whole and inside DMEM (R83, R86). -/
theorem keeps_writeWord (s : State) {i : Nat} (hi : i < s.params.dmemWords) (v : Word) :
    s.Keeps { s with dmem := s.dmem.writeWord i v } :=
  ⟨fun h => { h with
    memory := Memory.wf_writeWord i v h.memory
    within := Memory.within_writeWord v hi h.within
    words := Memory.wholeWords_writeWord i v h.words }, rfl⟩

theorem serve_keeps {s t : State} {a : Access} (h : s.serve a = .next t) : s.Keeps t := by
  rcases serve_cases s a with ⟨hs, -⟩ | ⟨_, r, -, -, hs⟩ | ⟨_, r, v, -, -, hs⟩ |
    ⟨_, i, w, -, -, -, -, -, hs⟩ | ⟨_, i, -, -, -, -, -, hs⟩ | ⟨_, i, v, -, -, hi, -, hs⟩
  · cases hs.symm.trans h
    exact keeps_busError s
  · cases hs.symm.trans h
    exact keeps_respond s _
  · cases hs.symm.trans h
    exact (keeps_writeReg s r v).trans (keeps_respond _ _)
  · cases hs.symm.trans h
    exact keeps_respond s _
  · cases hs.symm.trans h
  · cases hs.symm.trans h
    exact (keeps_writeWord s hi v).trans (keeps_respond _ _)

theorem host_keeps {s t : State} {i : Input} (h : s.host i = .next t) : s.Keeps t := by
  rcases host_cases s i with ⟨a, -, hs⟩ | ⟨-, -, -, hs⟩ | ⟨-, hs⟩ | ⟨-, hs⟩
  · exact serve_keeps (hs.symm.trans h)
  · cases hs.symm.trans h
    exact .refl s
  · cases hs.symm.trans h
    exact keeps_poll s
  · cases hs.symm.trans h
    exact keeps_hardReset s

/-! ### The step -/

theorem step_keeps {s t : State} (h : step s = .next t) : s.Keeps t := by
  rcases step_cases s with ⟨-, i, -, hs⟩ | ⟨-, e, -, hs⟩ | ⟨-, -, hs⟩ | ⟨-, i, rest, -, hs⟩
  · exact exec_keeps (hs.symm.trans h)
  · cases hs.symm.trans h
    exact keeps_reportError s rfl
  · cases hs.symm.trans h
    exact .refl s
  · exact (keeps_takeInput s rest).trans (host_keeps (hs.symm.trans h))

/-- Settles O7: the engine's completion and every host action keep the invariant and the
parameters. -/
theorem everyStepKeepsTheInvariant : Obligations.EveryStepKeepsTheInvariant := by
  intro s t hinv hstep
  obtain ⟨hkeep, hparams⟩ := step_keeps hstep
  exact ⟨hkeep hinv, hparams⟩

end Sys2Proof.Machine
end

section
/-! SUPPORT. What a host's register writes do, one rule per register that acts on a write, with the
bit positions of STATUS and CTRL. -/

namespace Sys2Proof.Machine

open Sys2Proof

/-! ### The bits of STATUS and CTRL -/

theorem getLsbD_flagBit (b : Bool) {pos : Nat} (hpos : pos < 32) (k : Nat) :
    (flagBit b pos).getLsbD k = (b && decide (k = pos)) := by
  cases b with
  | false => simp [flagBit]
  | true =>
    simp only [flagBit, if_true, BitVec.getLsbD_ofNat, Nat.testBit_two_pow, Bool.true_and]
    rw [Bool.eq_iff_iff]
    simp only [Bool.and_eq_true, decide_eq_true_eq]
    omega

theorem ErrCode.code_lt (c : ErrCode) : c.code < 2 ^ 4 := by cases c <;> decide

/-- Bit k of STATUS (R43): each field at its place, ERR from bit 8. -/
theorem getLsbD_statusWord (s : State) {k : Nat} (hk : k < 32) :
    s.statusWord.getLsbD k =
      ((s.busy && decide (k = 0)) || (s.done && decide (k = 1)) ||
        (!decide (k < 8) && s.err.code.testBit (k - 8)) || (s.cmdOvr && decide (k = 16)) ||
        (s.busErr && decide (k = 17))) := by
  have hk8 : k - 8 < 32 := by omega
  simp only [State.statusWord, BitVec.getLsbD_or, BitVec.getLsbD_shiftLeft, BitVec.getLsbD_ofNat,
    getLsbD_flagBit _ (show 0 < 32 by decide), getLsbD_flagBit _ (show 1 < 32 by decide),
    getLsbD_flagBit _ (show 16 < 32 by decide), getLsbD_flagBit _ (show 17 < 32 by decide), hk, hk8,
    decide_true, Bool.true_and]

/-- No error code reaches bit 12 of STATUS. -/
theorem ErrCode.testBit_code (c : ErrCode) {j : Nat} (hj : 4 ≤ j) : c.code.testBit j = false :=
  Nat.testBit_lt_two_pow (c.code_lt.trans_le (Nat.pow_le_pow_right (by decide) hj))

/-- STATUS[11:8] is ERR (R40, R43). -/
theorem statusWord_errField (s : State) :
    (s.statusWord.extractLsb' 8 4).toNat = s.err.code := by
  have hfield : s.statusWord.extractLsb' 8 4 = BitVec.ofNat 4 s.err.code := by
    apply BitVec.eq_of_getLsbD_eq
    intro j hj
    rw [BitVec.getLsbD_extractLsb', getLsbD_statusWord s (by omega), BitVec.getLsbD_ofNat]
    have h1 : 8 + j ≠ 1 := by omega
    have h16 : 8 + j ≠ 16 := by omega
    have h17 : 8 + j ≠ 17 := by omega
    simp [hj, h1, h16, h17]
  rw [hfield, BitVec.toNat_ofNat, Nat.mod_eq_of_lt s.err.code_lt]

/-- The bits of STATUS outside its fields read 0 (R43). -/
theorem statusWord_reserved (s : State) {k : Nat}
    (hk : 2 ≤ k ∧ k ≤ 7 ∨ 12 ≤ k ∧ k ≤ 15 ∨ 18 ≤ k) : s.statusWord.getLsbD k = false := by
  rcases Nat.lt_or_ge k 32 with hlt | hge
  · have h0 : k ≠ 0 := by omega
    have h1 : k ≠ 1 := by omega
    have h16 : k ≠ 16 := by omega
    have h17 : k ≠ 17 := by omega
    have herr : (!decide (k < 8) && s.err.code.testBit (k - 8)) = false := by
      rcases Nat.lt_or_ge k 8 with h | h
      · simp [h]
      · rw [s.err.testBit_code (by omega), Bool.and_false]
    rw [getLsbD_statusWord s hlt, herr]
    simp [h0, h1, h16, h17]
  · exact BitVec.getLsbD_of_ge _ _ hge

/-! ### Register writes over the bus -/

/-- A host's write at a register's offset writes the register and gets OKAY (R83, R88). -/
theorem serve_writeReg (s : State) (r : Reg) (v : Word) :
    s.serve (.write (BitVec.ofNat 17 (Reg.offset r)) 4 v) =
      .next ((s.writeReg r v).respond .ack) := by
  simp only [State.serve, target_reg]

theorem serve_writeCtrl (s : State) (v : Word) :
    s.serve (.write 0x010#17 4 v) = .next ((s.writeCtrl v).respond .ack) :=
  serve_writeReg s .ctrl v

theorem serve_writeStatus (s : State) (v : Word) :
    s.serve (.write 0x014#17 4 v) = .next ((s.writeStatus v).respond .ack) :=
  serve_writeReg s .status v

theorem serve_writeCmd (s : State) (v : Word) :
    s.serve (.write 0x01C#17 4 v) = .next ((s.writeCmd v).respond .ack) :=
  serve_writeReg s .cmd v

/-- After a soft reset every register reads its reset value (R341). -/
theorem readReg_softReset (s : State) (r : Reg) :
    s.softReset.readReg r = resetValue s.params r := by
  cases r
  case status => simp [State.readReg, State.statusWord, flagBit, ErrCode.code, resetValue]
  all_goals rfl

@[simp] theorem readReg_respond (s : State) (p : Response) (r : Reg) :
    (s.respond p).readReg r = s.readReg r := by
  cases r <;> rfl

/-- A write to an operand register is read back there, and nowhere else (R57): each of them is a
field of its own. -/
theorem readReg_writeReg_operand (s : State) {r : Reg} (h : isOperandReg r = true) (v : Word)
    (r' : Reg) : (s.writeReg r v).readReg r' = if r' = r then v else s.readReg r' := by
  cases r <;> cases h <;> cases r' <;> rfl

/-- A write to an operand register changes the live operand registers only (R57). -/
theorem writeReg_operand (s : State) {r : Reg} (h : isOperandReg r = true) (v : Word) :
    s.writeReg r v = { s with ops := (s.writeReg r v).ops } := by
  cases r <;> cases h <;> rfl

/-- A read-only register ignores a write (R57). -/
theorem writeReg_readOnly (s : State) {r : Reg} (h : isReadOnlyReg r = true) (v : Word) :
    s.writeReg r v = s := by
  cases r <;> cases h <;> rfl

/-! ### The statements on registers -/

/-- Settles O13: the fields by `getLsbD_statusWord` and `statusWord_errField`, the write by
`writeStatus`. -/
theorem statusReadsItsFieldsAndClearsOnOnes :
    Obligations.StatusReadsItsFieldsAndClearsOnOnes := by
  intro s
  refine ⟨⟨?busy, ?done, statusWord_errField s, ?cmdOvr, ?busErr, fun k => statusWord_reserved s⟩,
    serve_writeStatus s⟩
  all_goals
    simp only [State.readReg]
    rw [getLsbD_statusWord s (by decide)]
  case busy => simp
  case done => simp
  case cmdOvr => simp [s.err.testBit_code]
  case busErr => simp [s.err.testBit_code]

/-- Settles O14: the two writes are `writeCtrl`'s two branches. -/
theorem ctrlWriteResetsOrStoresTheEnable : Obligations.CtrlWriteResetsOrStoresTheEnable := by
  intro s v
  refine ⟨⟨?enable, fun k hk => ?reserved⟩, fun hv => ?store, fun hv => ?reset⟩
  case enable => rw [State.readReg, State.ctrlWord, getLsbD_flagBit _ (by decide)]; simp
  case reserved =>
    have hk0 : k ≠ 0 := by omega
    rw [State.readReg, State.ctrlWord, getLsbD_flagBit _ (by decide)]
    simp [hk0]
  case store =>
    rw [serve_writeCtrl, State.writeCtrl_enable hv]
    rfl
  case reset =>
    rw [serve_writeCtrl, State.writeCtrl_reset hv]
    exact ⟨_, rfl, fun r => (readReg_respond _ _ r).trans (readReg_softReset s r), rfl, rfl, rfl⟩

/-- Settles O15: the two cases are `writeCmd`'s two branches. -/
theorem cmdWriteIsAcceptedIdleAndDroppedBusy :
    Obligations.CmdWriteIsAcceptedIdleAndDroppedBusy := by
  intro s v
  refine ⟨fun hb => ?_, fun hb => ?_⟩
  · rw [serve_writeCmd, State.writeCmd_idle hb]
    exact ⟨_, rfl, rfl, rfl⟩
  · rw [serve_writeCmd, State.writeCmd_busy hb]
    rfl

/-! ### A completion does not see the live registers -/

theorem writeResults_withOps (s : State) (o : Operands) (ws : List (ResultReg × Int)) :
    State.writeResults { s with ops := o } ws = { s.writeResults ws with ops := o } := by
  induction ws generalizing s with
  | nil => rfl
  | cons w ws ih =>
    have hw : State.writeResult { s with ops := o } w = { s.writeResult w with ops := o } := by
      obtain ⟨r, v⟩ := w
      cases r <;> rfl
    rw [State.writeResults, hw, ih, State.writeResults]

theorem commit_withOps (s : State) (o : Operands) (w : Writes) :
    State.commit { s with ops := o } w = { s.commit w with ops := o } := by
  unfold State.commit
  exact congrArg
    (fun u : State => { u with err := .none, errInfo := .none, busy := false, done := true })
    (writeResults_withOps { s with dmem := s.dmem.writeAll w.dmem } o w.regs)

/-- Settles O18: a command reads LATCH (`exec_eq_complete`), and neither `commit` nor `reportError`
reads or writes the live operand registers. -/
theorem operandRegistersArePlainStorage : Obligations.OperandRegistersArePlainStorage := by
  refine ⟨fun i s o => ?_, fun s r v => ⟨fun hr => ?_, fun hr => ?_⟩⟩
  · rw [exec_eq_complete, exec_eq_complete i s]
    rcases complete_cases s (bodyOf i s.params s.latch.ops s.dmem) with
      ⟨w, hw, -⟩ | ⟨c, info, he, -⟩ | ⟨x, hx, -⟩
    · rw [hw, complete_ok, complete_ok, commit_withOps]
    · rw [he]; rfl
    · rw [hx]; rfl
  · refine ⟨_, serve_writeReg s r v, ?_, ?_, fun r' hne => ?_⟩
    · conv_lhs => rw [writeReg_operand s hr]
      rfl
    · rw [readReg_respond, readReg_writeReg_operand s hr, if_pos rfl]
    · rw [readReg_respond, readReg_writeReg_operand s hr, if_neg hne]
  · rw [serve_writeReg, writeReg_readOnly s hr]
    rfl

end Sys2Proof.Machine
end

section
/-! SUPPORT. What a step does: the completion, and, sorted by their effect, the host actions. The
statements on the flags, the interrupt and a command in flight follow from these cases. -/

namespace Sys2Proof.Machine

open Sys2Proof

/-! ### The engine's turn -/

/-- When it is the engine's turn, the step runs the command the latched word decodes to (R61). -/
theorem step_of_decode {s : State} {i : Instr} (hturn : s.enginesTurn = true)
    (hdec : decode s.latch.cmd = .ok i) : step s = exec i s := by
  rcases step_cases s with ⟨-, i', hdec', hs⟩ | ⟨-, e, hdec', -⟩ | ⟨hturn', -⟩ | ⟨hturn', -⟩
  · cases hdec.symm.trans hdec'
    exact hs
  · cases hdec.symm.trans hdec'
  · cases hturn.symm.trans hturn'
  · cases hturn.symm.trans hturn'

/-- The word `withFetchWord` latches for a row of the opcode table is the row's command. -/
theorem decode_withFetchWord (s : State) {nbits w : Nat} {i : Instr}
    (h : decodeTableWord nbits w = some i) :
    decode (s.withFetchWord nbits w).latch.cmd = .ok i := by
  unfold decodeTableWord at h
  split at h
  · next hw =>
    change decode (BitVec.ofNat 32 (w % 2 ^ nbits)) = .ok i
    rw [Nat.mod_eq_of_lt hw.2]
    cases hd : decode (BitVec.ofNat 32 w) with
    | ok j =>
      rw [hd] at h
      cases h
      rfl
    | error e =>
      rw [hd] at h
      cases h
  · cases h

/-- Settles O3: both clauses are `step_of_decode`, the second on the placed word. -/
theorem enginesTurnRunsTheDecodedCommand : Obligations.EnginesTurnRunsTheDecodedCommand :=
  ⟨fun s _ hb hdue hdec => step_of_decode ((enginesTurn_iff s).2 ⟨hb, hdue⟩) hdec,
    fun s nbits w _ hrow =>
      step_of_decode (enginesTurn_withFetchWord s nbits w) (decode_withFetchWord s hrow)⟩

/-- A step on the engine's turn is a completion, of a command or of an illegal word (R61, R310). -/
theorem completion_cases {s t : State} (hturn : s.enginesTurn = true) (h : step s = .next t) :
    (∃ w, t = s.commit w) ∨ ∃ code info, t = s.reportError code info := by
  rcases step_cases s with ⟨-, i, -, hs⟩ | ⟨-, e, -, hs⟩ | ⟨hturn', -⟩ | ⟨hturn', -⟩
  · rw [h, exec_eq_complete] at hs
    rcases complete_next hs.symm with ⟨w, -, ht⟩ | ⟨c, info, -, ht⟩
    · exact .inl ⟨w, ht⟩
    · exact .inr ⟨c, info, ht⟩
  · cases h.symm.trans hs
    exact .inr ⟨_, _, rfl⟩
  · cases hturn.symm.trans hturn'
  · cases hturn.symm.trans hturn'

/-- What every completion does to STATUS and CTRL (R61): BUSY clears, DONE sets, and IRQ_EN, CMD_OVR
and BUSERR stay. -/
theorem completion_flags {s t : State} (hturn : s.enginesTurn = true) (h : step s = .next t) :
    t.busy = false ∧ t.done = true ∧ t.irqEn = s.irqEn ∧ t.cmdOvr = s.cmdOvr ∧
      t.busErr = s.busErr := by
  rcases completion_cases hturn h with ⟨w, rfl⟩ | ⟨c, info, rfl⟩
  · simp
  · simp

/-- A step off the engine's turn waits, with no host action pending, or serves the next one. -/
theorem hostStep_cases {s t : State} (hturn : s.enginesTurn = false) (h : step s = .next t) :
    t = s ∨ ∃ i rest, s.inputs = i :: rest ∧ (s.takeInput rest).host i = .next t := by
  rcases step_cases s with ⟨hturn', -⟩ | ⟨hturn', -⟩ | ⟨-, -, hs⟩ | ⟨-, i, rest, hin, hs⟩
  · cases hturn.symm.trans hturn'
  · cases hturn.symm.trans hturn'
  · cases h.symm.trans hs
    exact .inl rfl
  · exact .inr ⟨i, rest, hin, hs.symm.trans h⟩

/-! ### Host actions by their effect -/

/-- t is s but for IRQ_EN, the live operand registers, BUSERR, which can only rise, the responses,
and a WAIT that goes on. -/
structure State.Touched (s t : State) : Prop where
  same : t = { s with
    irqEn := t.irqEn, ops := t.ops, busErr := t.busErr, responses := t.responses
    inputs := t.inputs }
  busErr : s.busErr = true → t.busErr = true
  inputs : t.inputs = s.inputs ∨ t.inputs = .wait :: s.inputs

theorem State.Touched.respond (s : State) (r : Response) : s.Touched (s.respond r) :=
  ⟨rfl, id, .inl rfl⟩

theorem State.Touched.poll (s : State) : s.Touched s.poll := by
  dsimp only [State.poll]
  split
  · exact ⟨rfl, id, .inr rfl⟩
  · exact ⟨rfl, id, .inl rfl⟩

/-- A host action that resets is a hardware reset, or a soft reset with its response (R340). -/
theorem reset_cases {s t : State} {i : Input} (hi : Input.resets i) (h : s.host i = .next t) :
    t = s.hardReset ∨ t = s.softReset.respond .ack := by
  rcases hi with rfl | ⟨v, hv, hbit⟩
  · cases h
    exact .inl rfl
  · rcases host_cases s i with ⟨a, ha, hs⟩ | ⟨hnone, -⟩ | ⟨rfl, -⟩ | ⟨rfl, -⟩
    · cases hv.symm.trans ha
      rw [serve_writeCtrl, State.writeCtrl_reset hbit, h] at hs
      cases hs
      exact .inr rfl
    · cases hv.symm.trans hnone
    · cases hv
    · cases hv

/-- An offset with a register's number is that register's offset. -/
theorem offset_eq_of_toNat {off : Offset} {r : Reg} (h : off.toNat = Reg.offset r) :
    off = BitVec.ofNat 17 (Reg.offset r) := by rw [← h, BitVec.ofNat_toNat, BitVec.setWidth_eq]

/-- Every effect a host action can have: a reset, a write to STATUS, a write to CMD, a write to a
DMEM word while idle, or none of these. -/
theorem host_effect {s t : State} {i : Input} (h : s.host i = .next t) :
    Input.resets i ∨
    (∃ v, Input.reaching i = some (.write 0x014#17 4 v) ∧ t = (s.writeStatus v).respond .ack) ∨
    (∃ v, Input.reaching i = some (.write 0x01C#17 4 v) ∧ t = (s.writeCmd v).respond .ack) ∨
    (s.busy = false ∧ ∃ (off : Offset) (k : Nat) (v : Word),
      Input.reaching i = some (.write off 4 v) ∧ off.toNat = 0x10000 + 4 * k ∧
      k < s.params.dmemWords ∧
      t = State.respond { s with dmem := s.dmem.writeWord k v } .ack) ∨
    s.Touched t := by
  rcases host_cases s i with ⟨a, ha, hs⟩ | ⟨-, -, -, hs⟩ | ⟨-, hs⟩ | ⟨rfl, -⟩
  · rw [h] at hs
    rcases serve_cases s a with ⟨hv, -⟩ | ⟨off, r, -, -, hv⟩ | ⟨off, r, v, rfl, hoff, hv⟩ |
      ⟨off, k, w, -, -, -, -, -, hv⟩ | ⟨off, k, -, -, -, -, -, hv⟩ |
      ⟨off, k, v, rfl, hoff, hk, hb, hv⟩
    all_goals cases hs.trans hv
    · exact .inr (.inr (.inr (.inr ⟨rfl, fun _ => rfl, .inl rfl⟩)))
    · exact .inr (.inr (.inr (.inr (.respond s _))))
    · rw [offset_eq_of_toNat hoff] at ha
      cases r
      case ctrl =>
        cases hbit : v.getLsbD 1 with
        | true => exact .inl (.inr ⟨v, ha, hbit⟩)
        | false =>
          refine .inr (.inr (.inr (.inr ?_)))
          rw [State.writeReg, State.writeCtrl_enable hbit]
          exact ⟨rfl, id, .inl rfl⟩
      case status => exact .inr (.inl ⟨v, ha, rfl⟩)
      case cmd => exact .inr (.inr (.inl ⟨v, ha, rfl⟩))
      all_goals exact .inr (.inr (.inr (.inr ⟨rfl, id, .inl rfl⟩)))
    · exact .inr (.inr (.inr (.inr (.respond s _))))
    · exact .inr (.inr (.inr (.inl ⟨hb, off, k, v, ha, hoff, hk, rfl⟩)))
  · cases h.symm.trans hs
    exact .inr (.inr (.inr (.inr ⟨rfl, id, .inl rfl⟩)))
  · cases h.symm.trans hs
    exact .inr (.inr (.inr (.inr (.poll s))))
  · exact .inl (.inl rfl)

/-! ### Invalid accesses -/

/-- The registers fill the aligned offsets up to 0x068, but for the hole at 0x02C (R32, R85). -/
theorem offset_shape (r : Reg) :
    Reg.offset r % 4 = 0 ∧ Reg.offset r ≤ 0x068 ∧ Reg.offset r ≠ 0x02C := by
  cases r <;> decide

theorem validAccess_reg {off : Offset} {r : Reg} (h : off.toNat = Reg.offset r) (n : Nat)
    (busy : Bool) : ValidAccess n busy off 4 := by
  obtain ⟨haligned, hmapped⟩ := offset_shape r
  unfold ValidAccess
  rw [h]
  exact ⟨rfl, haligned, .inl hmapped⟩

theorem validAccess_word {off : Offset} {k n : Nat} (h : off.toNat = 0x10000 + 4 * k)
    (hk : k < n) : ValidAccess n false off 4 :=
  ⟨rfl, by omega, .inr ⟨by omega, by omega, rfl⟩⟩

/-- An access of a shape R83 does not call valid is a bus error (R84, R311). -/
theorem serve_invalid {s : State} {a : Access}
    (h : ¬ ValidAccess s.params.dmemWords s.busy a.shape.1 a.shape.2) :
    s.serve a = .next s.busError := by
  rcases serve_cases s a with ⟨hv, -⟩ | ⟨off, r, rfl, hoff, -⟩ | ⟨off, r, v, rfl, hoff, -⟩ |
    ⟨off, k, w, rfl, hoff, hk, hb, -⟩ | ⟨off, k, rfl, hoff, hk, hb, -⟩ |
    ⟨off, k, v, rfl, hoff, hk, hb, -⟩
  · exact hv
  · exact absurd (validAccess_reg hoff _ _) h
  · exact absurd (validAccess_reg hoff _ _) h
  all_goals
    rw [hb] at h
    exact absurd (validAccess_word hoff hk) h

/-! ### The interrupt and the flags -/

/-- Settles O21: each clause reads the two fields of `State.irq` off the effect of its action. -/
theorem interruptFollowsEnableAndDone : Obligations.InterruptFollowsEnableAndDone := by
  refine ⟨fun s => ?level, fun s t hturn h => ?completion, fun s v hv => ?enable,
    fun s t v hv h => ?acknowledge, fun s t v hb h => ?acceptance, fun s t i hi h => ?reset,
    fun s t a ha h => ?busError, fun s t v hb h => ?overrun⟩
  case level => rw [State.irq_eq, Bool.and_eq_true]
  case completion =>
    obtain ⟨-, hdone, hen, -⟩ := completion_flags hturn h
    exact ⟨hdone, hen, by rw [State.irq_eq, hdone, hen, Bool.and_true]⟩
  case enable =>
    rw [serve_writeCtrl, State.writeCtrl_enable hv]
    exact ⟨_, rfl, rfl, rfl⟩
  case acknowledge =>
    cases h.symm.trans (serve_writeStatus s v)
    exact ⟨by simp [State.irq_eq, hv], rfl⟩
  case acceptance =>
    cases h.symm.trans (serve_writeCmd s v)
    simp [State.irq_eq, State.writeCmd_idle hb]
  case reset =>
    rcases reset_cases hi h with rfl | rfl
    · rfl
    · rfl
  case busError =>
    cases h.symm.trans (serve_invalid ha)
    rfl
  case overrun =>
    cases h.symm.trans (serve_writeCmd s v)
    rw [State.writeCmd_busy hb]
    rfl

/-- A write to CMD keeps BUSERR, and CMD_OVR does not fall (R60, R312). -/
theorem writeCmd_flags (s : State) (v : Word) :
    (s.writeCmd v).busErr = s.busErr ∧ (s.cmdOvr = true → (s.writeCmd v).cmdOvr = true) := by
  cases hb : s.busy with
  | true =>
    rw [State.writeCmd_busy hb]
    exact ⟨rfl, fun _ => rfl⟩
  | false =>
    rw [State.writeCmd_idle hb]
    exact ⟨rfl, id⟩

/-- A host action that is no reset clears BUSERR and CMD_OVR only as a write to STATUS (R41, R42). -/
theorem host_flags {s t : State} {i : Input} (h : s.host i = .next t) :
    Input.resets i ∨
    (∃ v, Input.reaching i = some (.write 0x014#17 4 v) ∧
      t.busErr = (s.busErr && !v.getLsbD 17) ∧ t.cmdOvr = (s.cmdOvr && !v.getLsbD 16)) ∨
    ((s.busErr = true → t.busErr = true) ∧ (s.cmdOvr = true → t.cmdOvr = true)) := by
  rcases host_effect h with hi | ⟨v, hv, rfl⟩ | ⟨v, -, rfl⟩ | ⟨-, off, k, v, -, -, -, rfl⟩ | ht
  · exact .inl hi
  · exact .inr (.inl ⟨v, hv, rfl, rfl⟩)
  · obtain ⟨hbusErr, hcmdOvr⟩ := writeCmd_flags s v
    exact .inr (.inr ⟨fun hs => hbusErr.trans hs, hcmdOvr⟩)
  · exact .inr (.inr ⟨id, id⟩)
  · exact .inr (.inr ⟨ht.busErr, fun hs => (congrArg State.cmdOvr ht.same).trans hs⟩)

/-- Settles O22: a completion keeps both flags (`completion_flags`), and a host action clears them
only as `host_flags` says. -/
theorem overrunAndBusErrorFlagsAreSticky : Obligations.OverrunAndBusErrorFlagsAreSticky := by
  intro s t h
  cases hturn : s.enginesTurn with
  | true =>
    obtain ⟨-, -, -, hcmdOvr, hbusErr⟩ := completion_flags hturn h
    exact ⟨fun hs ht => by simp [hbusErr, hs] at ht, fun hs ht => by simp [hcmdOvr, hs] at ht⟩
  | false =>
    rcases hostStep_cases hturn h with rfl | ⟨i, rest, hin, hhost⟩
    · exact ⟨fun hs ht => by simp [hs] at ht, fun hs ht => by simp [hs] at ht⟩
    · rcases host_flags hhost with hi | ⟨v, hv, hbusErr, hcmdOvr⟩ | ⟨hbusErr, hcmdOvr⟩
      · exact ⟨fun _ _ => ⟨i, rest, hin, .inl hi⟩, fun _ _ => ⟨i, rest, hin, .inl hi⟩⟩
      · refine ⟨fun hs ht => ⟨i, rest, hin, .inr ⟨v, hv, ?_⟩⟩,
          fun hs ht => ⟨i, rest, hin, .inr ⟨v, hv, ?_⟩⟩⟩
        · simpa [hbusErr, hs] using ht
        · simpa [hcmdOvr, hs] using ht
      · exact ⟨fun hs ht => by simp [hbusErr hs] at ht, fun hs ht => by simp [hcmdOvr hs] at ht⟩

/-! ### BUSY -/

/-- A reset leaves the engine idle (R343). -/
theorem busy_of_reset {s t : State} {i : Input} (hi : Input.resets i) (h : s.host i = .next t) :
    t.busy = false := by
  rcases reset_cases hi h with rfl | rfl
  · rfl
  · rfl

/-- A host action makes an idle engine busy only as the acceptance of a write to CMD (R60). -/
theorem host_accepts {s t : State} {i : Input} (hidle : s.busy = false) (h : s.host i = .next t)
    (hbusy : t.busy = true) :
    ∃ v, Input.reaching i = some (.write 0x01C#17 4 v) ∧
      t = ((s.accept v).drawTurns).respond .ack := by
  rcases host_effect h with hi | ⟨v, -, rfl⟩ | ⟨v, hv, rfl⟩ | ⟨-, off, k, v, -, -, -, rfl⟩ | ht
  · cases (busy_of_reset hi h).symm.trans hbusy
  · cases hidle.symm.trans hbusy
  · exact ⟨v, hv, by rw [State.writeCmd_idle hidle]⟩
  · cases hidle.symm.trans hbusy
  · cases (hidle.symm.trans (congrArg State.busy ht.same).symm).trans hbusy

/-- Settles O23: an idle engine's step is a host action, and `host_accepts` says which one. -/
theorem busyRisesOnlyByAcceptance : Obligations.BusyRisesOnlyByAcceptance := by
  intro s t hidle h hbusy
  have hturn : s.enginesTurn = false := by simp [State.enginesTurn, hidle]
  rcases hostStep_cases hturn h with rfl | ⟨i, rest, hin, hhost⟩
  · cases hidle.symm.trans hbusy
  · obtain ⟨v, hv, rfl⟩ := host_accepts (s := s.takeInput rest) hidle hhost hbusy
    exact ⟨i, rest, v, hin, hv, rfl, rfl, rfl, rfl, rfl, rfl, rfl, rfl⟩

/-! ### A command in flight -/

/-- What acceptance sets up for a command, and what its completion writes: LATCH, CMD, DMEM and the
result registers (R58, R61, R87). -/
structure Flight where
  latch : Latch
  cmd : Word
  dmem : Memory
  dLen : Word
  eLen : Word
  r0 : Word
  r1 : Word
  r2 : Word

/-- The command in flight of a state. -/
def State.flight (s : State) : Flight :=
  { latch := s.latch, cmd := s.cmd, dmem := s.dmem, dLen := s.dLen, eLen := s.eLen, r0 := s.r0
    r1 := s.r1, r2 := s.r2 }

/-- States with the same command in flight agree on each of its parts. -/
theorem flight_eq {s t : State} (h : t.flight = s.flight) :
    t.latch = s.latch ∧ t.cmd = s.cmd ∧ t.dmem = s.dmem ∧ t.dLen = s.dLen ∧ t.eLen = s.eLen ∧
      t.r0 = s.r0 ∧ t.r1 = s.r1 ∧ t.r2 = s.r2 :=
  ⟨congrArg Flight.latch h, congrArg Flight.cmd h, congrArg Flight.dmem h, congrArg Flight.dLen h,
    congrArg Flight.eLen h, congrArg Flight.r0 h, congrArg Flight.r1 h, congrArg Flight.r2 h⟩

/-- A host action other than a reset leaves a command in flight, with its operands, its DMEM and
the count of host actions ahead of it (R58, R87); at most a WAIT stays on the list. -/
theorem host_keeps_flight {s t : State} {i : Input} (hbusy : s.busy = true)
    (hi : ¬ Input.resets i) (h : s.host i = .next t) :
    t.busy = true ∧ t.flight = s.flight ∧ t.hostTurns = s.hostTurns ∧
      (t.inputs = s.inputs ∨ t.inputs = .wait :: s.inputs) := by
  rcases host_effect h with hi' | ⟨v, -, rfl⟩ | ⟨v, -, rfl⟩ | ⟨hidle, -⟩ | ht
  · exact absurd hi' hi
  · exact ⟨hbusy, rfl, rfl, .inl rfl⟩
  · rw [State.writeCmd_busy hbusy]
    exact ⟨hbusy, rfl, rfl, .inl rfl⟩
  · cases hbusy.symm.trans hidle
  · obtain ⟨same, -, hinputs⟩ := ht
    exact ⟨(congrArg State.busy same).trans hbusy, (congrArg State.flight same).trans rfl,
      (congrArg State.hostTurns same).trans rfl, hinputs⟩

/-- Settles O24: the completion clears BUSY, and so does a reset; any other host action keeps the
command in flight. -/
theorem latchAndDmemAreFixedWhileBusy : Obligations.LatchAndDmemAreFixedWhileBusy := by
  intro s t hbusy h hbusy'
  cases hturn : s.enginesTurn with
  | true => cases (completion_flags hturn h).1.symm.trans hbusy'
  | false =>
    rcases hostStep_cases hturn h with rfl | ⟨i, rest, -, hhost⟩
    · exact flight_eq rfl
    · have hi : ¬ Input.resets i := fun hi => by
        cases (busy_of_reset hi hhost).symm.trans hbusy'
      obtain ⟨-, hflight, -⟩ := host_keeps_flight (s := s.takeInput rest) hbusy hi hhost
      exact flight_eq (s := s) hflight

/-! ### Reaching the completion -/

/-- No host action stops the machine while BUSY: DMEM is closed, so no unwritten word is read (R87). -/
theorem host_next_of_busy {s : State} (hbusy : s.busy = true) (i : Input) :
    ∃ t, s.host i = .next t := by
  rcases host_cases s i with ⟨a, -, hs⟩ | ⟨-, -, -, hs⟩ | ⟨-, hs⟩ | ⟨-, hs⟩
  · rw [hs]
    rcases serve_cases s a with ⟨hv, -⟩ | ⟨off, r, -, -, hv⟩ | ⟨off, r, v, -, -, hv⟩ |
      ⟨off, k, w, -, -, -, -, -, hv⟩ | ⟨off, k, -, -, -, hidle, -⟩ |
      ⟨off, k, v, -, -, -, -, hv⟩
    · exact ⟨_, hv⟩
    · exact ⟨_, hv⟩
    · exact ⟨_, hv⟩
    · exact ⟨_, hv⟩
    · cases hbusy.symm.trans hidle
    · exact ⟨_, hv⟩
  · exact ⟨_, hs⟩
  · exact ⟨_, hs⟩
  · exact ⟨_, hs⟩

theorem not_resets_wait : ¬ Input.resets .wait := by simp [Input.resets, Input.reaching]

/-- While it is not yet the engine's turn, the step of a busy engine serves one host action, which
brings the completion one nearer and, when it is no reset, leaves the command in flight. -/
theorem step_towards_completion {s : State} (hbusy : s.busy = true)
    (hturn : s.enginesTurn = false) (hno : ∀ i ∈ s.inputs.take s.hostTurns, ¬ Input.resets i) :
    ∃ t, step s = .next t ∧ t.busy = true ∧ t.flight = s.flight ∧ s.hostTurns = t.hostTurns + 1 ∧
      ∀ i ∈ t.inputs.take t.hostTurns, ¬ Input.resets i := by
  have hdue : ¬ (s.hostTurns = 0 ∨ s.inputs = []) := fun hdue => by
    cases ((enginesTurn_iff s).2 ⟨hbusy, hdue⟩).symm.trans hturn
  rcases step_cases s with ⟨hturn', -⟩ | ⟨hturn', -⟩ | ⟨-, hin, -⟩ | ⟨-, i, rest, hin, hs⟩
  · cases hturn.symm.trans hturn'
  · cases hturn.symm.trans hturn'
  · exact absurd (.inr hin) hdue
  · obtain ⟨n, hn⟩ := Nat.exists_eq_succ_of_ne_zero fun h0 => hdue (.inl h0)
    obtain ⟨t, ht⟩ := host_next_of_busy (s := s.takeInput rest) hbusy i
    rw [hin, hn, List.take_succ_cons, List.forall_mem_cons] at hno
    obtain ⟨hi, hrest⟩ := hno
    obtain ⟨hbusy', hflight, hturns, hinputs⟩ :=
      host_keeps_flight (s := s.takeInput rest) hbusy hi ht
    have hleft : t.hostTurns = n := by rw [hturns, State.takeInput_hostTurns, hn]; rfl
    refine ⟨t, hs.trans ht, hbusy', hflight, by rw [hn, hleft], ?_⟩
    rw [hleft]
    rcases hinputs with hinputs | hinputs
    · rw [hinputs]
      exact hrest
    · rw [hinputs, State.takeInput_inputs]
      intro j hj
      rcases List.mem_cons.1 (List.take_subset_take_left _ n.le_succ hj) with rfl | hj
      · exact not_resets_wait
      · exact hrest j hj

/-- Settles O5, by induction on the number of host actions ordered before the completion. -/
theorem acceptedCommandReachesItsCompletion : Obligations.AcceptedCommandReachesItsCompletion := by
  intro s hbusy hno
  have hrun : ∃ k ≤ s.hostTurns, ∃ t, Host.Core.run core k s = .next t ∧
      t.enginesTurn = true ∧ t.flight = s.flight := by
    induction hn : s.hostTurns generalizing s with
    | zero => exact ⟨0, le_rfl, s, rfl, (enginesTurn_iff s).2 ⟨hbusy, .inl hn⟩, rfl⟩
    | succ n ih =>
      cases hturn : s.enginesTurn with
      | true => exact ⟨0, Nat.zero_le _, s, rfl, hturn, rfl⟩
      | false =>
        obtain ⟨u, hstep, hbusy', hflight, hturns, hno'⟩ :=
          step_towards_completion hbusy hturn hno
        obtain ⟨k, hk, t, hrun, hdone, hflight'⟩ := ih u hbusy' hno' (by omega)
        refine ⟨k + 1, by omega, t, ?_, hdone, hflight'.trans hflight⟩
        simp only [Host.Core.run]
        rw [show core.step s = .next u from hstep]
        exact hrun
  obtain ⟨k, hk, t, hrun, hdone, hflight⟩ := hrun
  obtain ⟨hlatch, hcmd, hdmem, hd, he, h0, h1, h2⟩ := flight_eq hflight
  exact ⟨k, hk, t, hrun, hdone, hlatch, hdmem, hcmd, hd, he, h0, h1, h2⟩

end Sys2Proof.Machine
end

section
/-! SUPPORT. What the body of a command reads and answers, said once for every command: it stops at an
unwritten word of a source in bounds and nowhere else, it succeeds only as `Finish` on the results of
its command, and it sees of DMEM only the words its sources name. -/

namespace Sys2Proof.Machine

open Sys2Proof

/-! ### How a computation runs -/

/-- The computation ends with a value that satisfies `P`, at an unwritten word that satisfies `U`, or
with an error, which has a code (R301). -/
def Runs {α : Type} (P : α → Prop) (U : Nat → Prop) : Except Stop α → Prop
  | .ok a => P a
  | .error (.error code _) => code ≠ .none
  | .error (.unwritten w) => U w

section

variable {α β : Type} {P : α → Prop} {Q : β → Prop} {U : Nat → Prop}

/-- The stop of one computation, another may pass on. -/
theorem Runs.stop {x : Except Stop α} (h : Runs P U x) {e : Stop} (hx : x = .error e) :
    Runs Q U (.error e) := by
  subst hx
  cases e <;> exact h

theorem Runs.bind {x : Except Stop α} {f : α → Except Stop β} (hx : Runs P U x)
    (hf : ∀ a, Runs Q U (f a)) : Runs Q U (x >>= f) := by
  cases x with
  | ok a => exact hf a
  | error e => exact hx.stop rfl

end

/-! ### The arithmetic

It reads no word of DMEM, so it stops at none, whatever `U` is; every error it raises has a code. -/

section

variable {U : Nat → Prop}

theorem raise_runs {α : Type} {P : α → Prop} {code : ErrCode} {info : Info} (h : code ≠ .none) :
    Runs P U (raise code info) := h

theorem need_runs (ok : Bool) {code : ErrCode} {info : Info} (h : code ≠ .none) :
    Runs (fun _ => True) U (need ok code info) := by
  cases ok with
  | false => exact h
  | true => trivial

theorem modinv_runs (a m : Int) : Runs (fun _ => True) U (modinv a m) := by
  unfold modinv
  split
  · trivial
  · split
    split
    · trivial
    · exact raise_runs nofun

theorem divmodp_runs (f g : Poly) (p : Int) : Runs (fun _ => True) U (divmodp f g p) := by
  unfold divmodp divReduced
  split
  · exact raise_runs nofun
  · split
    · next he => exact (modinv_runs _ _).stop he
    · split <;> trivial

theorem invLoop_runs (p : Int) (n fuel : Nat) (f g t1 t2 : Poly) :
    Runs (fun _ => True) U (invLoop p n fuel f g t1 t2) := by
  induction fuel generalizing f g t1 t2 with
  | zero => exact raise_runs nofun
  | succ fuel ih =>
    unfold invLoop
    split
    · exact raise_runs nofun
    · split
      · next he => exact (modinv_runs _ _).stop he
      · trivial
    · split
      · next he => exact (divmodp_runs _ _ _).stop he
      · exact ih _ _ _ _

theorem invpoly_runs (x : Poly) (p : Int) (n : Nat) : Runs (fun _ => True) U (invpoly x p n) :=
  invLoop_runs ..

theorem henselLoop_runs (f : Poly) (q : Int) (n fuel : Nat) (g : Poly) :
    Runs (fun _ => True) U (henselLoop f q n fuel g) := by
  induction fuel generalizing g with
  | zero => exact raise_runs nofun
  | succ fuel ih =>
    unfold henselLoop
    split
    · trivial
    · exact ih _

theorem inv2k_runs (f : Poly) (q : Int) (n : Nat) : Runs (fun _ => True) U (inv2k f q n) := by
  unfold inv2k
  split
  · next he => exact (invpoly_runs _ _ _).stop he
  · exact henselLoop_runs _ _ _ _ _

end

/-! ### Sources -/

/-- The command reads source x (R114). -/
def reads (i : Instr) : Src → Bool
  | .a => readsA i
  | .b => readsB i

theorem readsA_of_readsB {i : Instr} (h : readsB i = true) : readsA i = true := by
  revert h
  cases i <;> decide

/-- w is a word of source x, which is in bounds, and nothing has written it (R92, R93). -/
structure UnwrittenIn (par : Params) (o : Operands) (m : Memory) (x : Src) (w : Nat) : Prop where
  first : o.srcAddr x ≤ w
  last : w < o.srcAddr x + o.srcLen x
  bounds : o.srcAddr x + o.srcLen x ≤ par.dmemWords
  unwritten : m.readWord w = none

section

variable {U : Nat → Prop} {par : Params} {o : Operands} {m : Memory}

/-- The bounds check of a source and what is done with its words, where it passes. -/
theorem checkSrc_bind_runs {β : Type} {Q : β → Prop} (x : Src) {k : Unit → Except Stop β}
    (hk : o.srcLen x = 0 ∨ o.srcAddr x + o.srcLen x ≤ par.dmemWords → Runs Q U (k ())) :
    Runs Q U (checkSrc par o x >>= k) := by
  by_cases h : o.srcLen x = 0 ∨ o.srcAddr x + o.srcLen x ≤ par.dmemWords
  · rw [checkSrc_ok h]
    exact hk h
  · rw [checkSrc_out (by omega) (by omega)]
    exact raise_runs nofun

/-- `MemRead` of a source in bounds stops only at an unwritten word of it. -/
theorem readSeq_runs {x : Src} (hU : ∀ w, UnwrittenIn par o m x w → U w)
    (hx : o.srcLen x = 0 ∨ o.srcAddr x + o.srcLen x ≤ par.dmemWords) :
    Runs (fun _ => True) U (m.readSeq (o.srcAddr x) (o.srcLen x)) := by
  cases h : m.readSeq (o.srcAddr x) (o.srcLen x) with
  | ok vs => trivial
  | error e =>
    obtain ⟨w, rfl, hfirst, hlast, hw⟩ := Memory.readSeq_error h
    exact hU w ⟨hfirst, hlast, by omega, hw⟩

end

/-- The command stops at word w: it reads a source in which w is unwritten. -/
def StopsAt (i : Instr) (par : Params) (o : Operands) (m : Memory) (w : Nat) : Prop :=
  ∃ x, reads i x = true ∧ UnwrittenIn par o m x w

section

variable {i : Instr} {par : Params} {o : Operands} {m : Memory}

theorem readSrc_runs (h : readsA i = true) :
    Runs (fun _ => True) (StopsAt i par o m) (readSrc par o m .a) :=
  checkSrc_bind_runs .a fun ha => readSeq_runs (fun _ hw => ⟨.a, h, hw⟩) ha

theorem readSrcs_runs (h : readsB i = true) :
    Runs (fun _ => True) (StopsAt i par o m) (readSrcs par o m) :=
  checkSrc_bind_runs .a fun ha => checkSrc_bind_runs .b fun hb =>
    (readSeq_runs (fun _ hw => ⟨.a, readsA_of_readsB h, hw⟩) ha).bind fun _ =>
      (readSeq_runs (fun _ hw => ⟨.b, h, hw⟩) hb).bind fun _ => trivial

end

/-! ### What a body answers -/

/-- The R registers a command writes, in order (R114). -/
def scalarResults : Instr → List ResultReg
  | .egcd => [.r0, .r1, .r2]
  | .modinv => [.r0]
  | _ => []

/-- w is what `Finish` answers on the results of the command: a D and an E sequence where the command
has them, and values for its R registers (R114, R124). -/
structure Finished (i : Instr) (o : Operands) (w : Writes) (d e : Option Poly)
    (regs : List (ResultReg × Int)) : Prop where
  hasD : d.isSome = writesD i
  hasE : e.isSome = writesE i
  scalars : regs.map Prod.fst = scalarResults i
  dmem : w.dmem = dstWrite o .d d ++ dstWrite o .e e
  regs : w.regs = regs ++ lenWrite .dLen d ++ lenWrite .eLen e

theorem finish_runs {U : Nat → Prop} {i : Instr} {par : Params} {o : Operands} {d e : Option Poly}
    {regs : List (ResultReg × Int)} (hd : d.isSome = writesD i) (he : e.isSome = writesE i)
    (hregs : regs.map Prod.fst = scalarResults i) :
    Runs (fun w => ∃ d e regs, Finished i o w d e regs) U (finish par o d e regs) := by
  rcases finish_cases par o d e regs with ⟨hf, -⟩ | ⟨c, info, hf, hc, -⟩
  · rw [hf]
    exact ⟨d, e, regs, hd, he, hregs, rfl, rfl⟩
  · rw [hf]
    exact hc

/-- Every body: it stops only at an unwritten word of a source of its command, and it succeeds only as
`Finish` on the results of its command. -/
theorem bodyOf_runs (i : Instr) (par : Params) (o : Operands) (m : Memory) :
    Runs (fun w => ∃ d e regs, Finished i o w d e regs) (StopsAt i par o m)
      (bodyOf i par o m) := by
  cases i with
  | nop => exact finish_runs rfl rfl rfl
  | egcd =>
    exact (need_runs _ (by decide)).bind fun _ => (need_runs _ (by decide)).bind fun _ =>
      finish_runs rfl rfl rfl
  | modinv =>
    exact (need_runs _ (by decide)).bind fun _ => (need_runs _ (by decide)).bind fun _ =>
      (modinv_runs _ _).bind fun _ => finish_runs rfl rfl rfl
  | trim => exact (readSrc_runs rfl).bind fun _ => finish_runs rfl rfl rfl
  | add => exact (readSrcs_runs rfl).bind fun _ => finish_runs rfl rfl rfl
  | sub => exact (readSrcs_runs rfl).bind fun _ => finish_runs rfl rfl rfl
  | conv =>
    exact (need_runs _ (by decide)).bind fun _ => (readSrcs_runs rfl).bind fun _ =>
      finish_runs rfl rfl rfl
  | pmod =>
    exact (need_runs _ (by decide)).bind fun _ => (readSrc_runs rfl).bind fun _ =>
      finish_runs rfl rfl rfl
  | divp =>
    exact (need_runs _ (by decide)).bind fun _ => (readSrcs_runs rfl).bind fun _ =>
      (divmodp_runs ..).bind fun _ => finish_runs rfl rfl rfl
  | invp =>
    exact (need_runs _ (by decide)).bind fun _ => (need_runs _ (by decide)).bind fun _ =>
      (readSrc_runs rfl).bind fun _ => (invpoly_runs ..).bind fun _ => finish_runs rfl rfl rfl
  | inv2k =>
    exact (need_runs _ (by decide)).bind fun _ => (need_runs _ (by decide)).bind fun _ =>
      (readSrc_runs rfl).bind fun _ => (inv2k_runs ..).bind fun _ => finish_runs rfl rfl rfl
  | bmod =>
    exact (need_runs _ (by decide)).bind fun _ => (readSrc_runs rfl).bind fun _ =>
      finish_runs rfl rfl rfl
  | b3enc =>
    exact (readSrc_runs rfl).bind fun _ => (need_runs _ (by decide)).bind fun _ =>
      finish_runs rfl rfl rfl
  | b3dec =>
    exact (readSrc_runs rfl).bind fun _ => (need_runs _ (by decide)).bind fun _ =>
      finish_runs rfl rfl rfl
  | pack =>
    exact (need_runs _ (by decide)).bind fun _ => (readSrc_runs rfl).bind fun _ =>
      finish_runs rfl rfl rfl
  | unpack =>
    exact (need_runs _ (by decide)).bind fun _ => (readSrc_runs rfl).bind fun _ =>
      (need_runs _ (by decide)).bind fun _ => finish_runs rfl rfl rfl

/-! ### Completing on written sources -/

/-- A source that is out of bounds or written has no word to stop at. -/
theorem not_unwrittenIn {s : State} {x : Src} (h : SourceOut s x ∨ ∃ p, SourceIs s x p) (w : Nat) :
    ¬ UnwrittenIn s.params s.latch.ops s.dmem x w := by
  rintro ⟨hfirst, hlast, hbounds, hw⟩
  rcases h with ⟨-, hout⟩ | ⟨p, hlen, -, hholds⟩
  · omega
  · have hk : w - s.latch.ops.srcAddr x < p.length := by omega
    have hword := hholds _ hk
    rw [Nat.add_sub_cancel' hfirst, hw, List.getElem?_eq_getElem hk] at hword
    cases hword

/-- Settles O31: with no word to stop at, the body succeeds or raises an error it may report. -/
theorem everyCommandCompletesOnWrittenSources :
    Obligations.EveryCommandCompletesOnWrittenSources := by
  intro i s ha hb
  have hruns := bodyOf_runs i s.params s.latch.ops s.dmem
  have hends := bodyOf_ends i s.params s.latch.ops s.dmem
  rcases complete_cases s (bodyOf i s.params s.latch.ops s.dmem) with
    ⟨w, -, hs⟩ | ⟨c, info, he, hs⟩ | ⟨w, he, -⟩
  · exact ⟨_, (exec_eq_complete i s).trans hs, rfl, rfl, rfl⟩
  · rw [he] at hends
    exact ⟨_, (exec_eq_complete i s).trans hs, rfl, rfl, hends⟩
  · rw [he] at hruns
    obtain ⟨x, hx, hw⟩ := hruns
    cases x with
    | a => exact absurd hw (not_unwrittenIn (ha hx) w)
    | b => exact absurd hw (not_unwrittenIn (hb hx) w)

/-! ### What a body sees of DMEM -/

theorem Memory.readSeq_congr {m m' : Memory} {addr n : Nat}
    (h : ∀ k < n, m'.readWord (addr + k) = m.readWord (addr + k)) :
    m'.readSeq addr n = m.readSeq addr n := by
  induction n generalizing addr with
  | zero => rfl
  | succ n ih =>
    have hhead : m'.readWord addr = m.readWord addr := h 0 n.succ_pos
    have htail : m'.readSeq (addr + 1) n = m.readSeq (addr + 1) n := ih fun k hk => by
      have := h (k + 1) (by omega)
      rwa [show addr + (k + 1) = addr + 1 + k by omega] at this
    simp only [Memory.readSeq, hhead, htail]

/-- A body sees only the words of the sources its command reads (R94, R120). -/
theorem bodyOf_congr {i : Instr} {par : Params} {o : Operands} {m m' : Memory}
    (h : ∀ x, reads i x = true → ∀ k < o.srcLen x,
      m'.readWord (o.srcAddr x + k) = m.readWord (o.srcAddr x + k)) :
    bodyOf i par o m' = bodyOf i par o m := by
  have hseq : ∀ x, reads i x = true →
      m'.readSeq (o.srcAddr x) (o.srcLen x) = m.readSeq (o.srcAddr x) (o.srcLen x) :=
    fun x hx => Memory.readSeq_congr (h x hx)
  have hone : readsA i = true → readSrc par o m' .a = readSrc par o m .a := fun ha => by
    simp only [readSrc, hseq .a ha]
  have hboth : readsB i = true → readSrcs par o m' = readSrcs par o m := fun hb => by
    simp only [readSrcs, hseq .a (readsA_of_readsB hb), hseq .b hb]
  cases i
  case nop | egcd | modinv => rfl
  case add | sub | conv | divp =>
    simp only [bodyOf, addBody, subBody, convBody, divpBody, hboth rfl]
  all_goals
    simp only [bodyOf, trimBody, pmodBody, invpBody, inv2kBody, bmodBody, b3encBody, b3decBody,
      packBody, unpackBody, hone rfl]

/-! ### What a commit leaves of the state before it -/

/-- The value of a result register. -/
def State.result (s : State) : ResultReg → Word
  | .dLen => s.dLen
  | .eLen => s.eLen
  | .r0 => s.r0
  | .r1 => s.r1
  | .r2 => s.r2

theorem result_writeResult (s : State) (w : ResultReg × Int) (r : ResultReg) :
    (s.writeResult w).result r = if r = w.1 then enc32 w.2 else s.result r := by
  obtain ⟨r', v⟩ := w
  cases r' <;> cases r <;> rfl

/-- A result register that is written, or that two states agree on, is the same afterwards. -/
theorem result_writeResults_congr {s s' : State} {ws : List (ResultReg × Int)} {r : ResultReg}
    (h : r ∈ ws.map Prod.fst ∨ s'.result r = s.result r) :
    (s'.writeResults ws).result r = (s.writeResults ws).result r := by
  induction ws generalizing s s' with
  | nil => exact h.resolve_left (by simp)
  | cons w ws ih =>
    refine ih ?_
    rw [result_writeResult, result_writeResult]
    by_cases hr : r = w.1
    · simp [hr]
    · simpa [hr] using h

/-- A result register that is not written keeps its value. -/
theorem result_writeResults_other {s : State} {ws : List (ResultReg × Int)} {r : ResultReg}
    (h : r ∉ ws.map Prod.fst) : (s.writeResults ws).result r = s.result r := by
  induction ws generalizing s with
  | nil => rfl
  | cons w ws ih =>
    rw [List.map_cons, List.mem_cons, not_or] at h
    rw [State.writeResults, ih h.2, result_writeResult, if_neg h.1]

/-- The last write to a result register is the one that counts. -/
theorem result_writeResults_last (s : State) (ws : List (ResultReg × Int)) {r : ResultReg} (v : Int)
    {ws' : List (ResultReg × Int)} (h : r ∉ ws'.map Prod.fst) :
    (s.writeResults (ws ++ (r, v) :: ws')).result r = enc32 v := by
  induction ws generalizing s with
  | nil =>
    rw [List.nil_append, State.writeResults, result_writeResults_other h, result_writeResult,
      if_pos rfl]
  | cons w ws ih => exact ih _

theorem result_commit (s : State) (w : Writes) (r : ResultReg) :
    (s.commit w).result r =
      (State.writeResults { s with dmem := s.dmem.writeAll w.dmem } w.regs).result r := by
  cases r <;> rfl

/-- A word that a sequence write covers, or that two memories agree on, is the same afterwards. -/
theorem Memory.readWord_writeSeq_congr {m m' : Memory} {addr : Nat} {vs : Poly} {j : Nat}
    (h : (addr ≤ j ∧ j < addr + vs.length) ∨ m'.readWord j = m.readWord j) :
    (m'.writeSeq addr vs).readWord j = (m.writeSeq addr vs).readWord j := by
  by_cases hj : addr ≤ j ∧ j < addr + vs.length
  · obtain ⟨k, rfl⟩ := Nat.exists_eq_add_of_le hj.1
    have hk : k < vs.length := by omega
    rw [Memory.readWord_writeSeq m' addr vs hk, Memory.readWord_writeSeq m addr vs hk]
  · rw [Memory.readWord_writeSeq_outside m' addr vs (by omega),
      Memory.readWord_writeSeq_outside m addr vs (by omega)]
    exact h.resolve_left hj

/-- A word that the writes of a completion cover, or that two memories agree on, is the same
afterwards, in whatever order they overlap (R95). -/
theorem Memory.readWord_writeAll_congr {m m' : Memory} {ws : List (Nat × Poly)} {j : Nat}
    (h : (∃ d ∈ ws, d.1 ≤ j ∧ j < d.1 + d.2.length) ∨ m'.readWord j = m.readWord j) :
    (m'.writeAll ws).readWord j = (m.writeAll ws).readWord j := by
  induction ws generalizing m m' with
  | nil => exact h.resolve_left (by simp)
  | cons d ws ih =>
    refine ih ?_
    rcases h with ⟨d', hd', hj⟩ | h
    · rcases List.mem_cons.1 hd' with rfl | hd'
      · exact .inr (Memory.readWord_writeSeq_congr (.inl hj))
      · exact .inl ⟨d', hd', hj⟩
    · exact .inr (Memory.readWord_writeSeq_congr (.inr h))

/-- A sequence that a commit writes, with its length register, is the same whatever the state before:
the register and as many words as it says. -/
theorem commit_sequence_congr (s s' : State) {w : Writes} {r : ResultReg} {addr : Nat} {vs : Poly}
    {ws ws' : List (ResultReg × Int)} (hseq : (addr, vs) ∈ w.dmem)
    (hregs : w.regs = ws ++ (r, (vs.length : Int)) :: ws') (hr : r ∉ ws'.map Prod.fst) :
    (s'.commit w).result r = (s.commit w).result r ∧
      ∀ k < ((s.commit w).result r).toNat,
        (s'.commit w).dmem.readWord (addr + k) = (s.commit w).dmem.readWord (addr + k) := by
  have hvalue : ∀ u : State, (u.commit w).result r = enc32 vs.length := fun u => by
    rw [result_commit, hregs, result_writeResults_last _ _ _ hr]
  refine ⟨by rw [hvalue, hvalue], fun k hk => ?_⟩
  have hle : (enc32 (vs.length : Int)).toNat ≤ vs.length := toNat_enc32_le (by omega)
  rw [hvalue] at hk
  rw [State.commit_dmem, State.commit_dmem]
  exact Memory.readWord_writeAll_congr
    (.inl ⟨_, hseq, Nat.le_add_right .., Nat.add_lt_add_left (hk.trans_le hle) _⟩)

/-- An R register the command writes is the same after a commit, whatever the state before. -/
theorem commit_scalar_congr (s s' : State) {i : Instr} {o : Operands} {w : Writes}
    {d e : Option Poly} {regs : List (ResultReg × Int)} (hw : Finished i o w d e regs)
    {r : ResultReg} (hr : r ∈ scalarResults i) :
    (s'.commit w).result r = (s.commit w).result r := by
  rw [result_commit, result_commit]
  refine result_writeResults_congr (.inl ?_)
  rw [hw.regs, List.append_assoc, List.map_append, hw.scalars]
  exact List.mem_append_left _ hr

/-- Settles O30: both states run the same body (`bodyOf_congr`), and what a commit writes does not
depend on the state it is applied to. -/
theorem outcomeDependsOnlyOnTheNamedWords : Obligations.OutcomeDependsOnlyOnTheNamedWords := by
  intro i s s' t hparams hops ha hb h
  have hbody : bodyOf i s'.params s'.latch.ops s'.dmem =
      bodyOf i s.params s.latch.ops s.dmem := by
    rw [hparams, hops]
    exact bodyOf_congr fun x => match x with
      | .a => ha
      | .b => hb
  have hexec : exec i s' = complete s' (bodyOf i s.params s.latch.ops s.dmem) := by
    rw [exec_eq_complete, hbody]
  have hruns := bodyOf_runs i s.params s.latch.ops s.dmem
  rw [exec_eq_complete] at h
  rcases complete_next h with ⟨w, hw, rfl⟩ | ⟨c, info, he, rfl⟩
  · rw [hw] at hruns hexec
    obtain ⟨d, e, regs, hfin⟩ := hruns
    refine ⟨_, hexec, rfl, rfl, fun _ => ⟨fun hD => ?_, fun hE => ?_, fun hi => ?_, fun hi => ?_⟩⟩
    · obtain ⟨vs, rfl⟩ := Option.isSome_iff_exists.1 (hfin.hasD.trans hD)
      exact commit_sequence_congr s s' (r := .dLen) (vs := vs) (by simp [hfin.dmem, dstWrite])
        (by rw [hfin.regs, List.append_assoc]; rfl) (by cases e <;> simp [lenWrite])
    · obtain ⟨vs, rfl⟩ := Option.isSome_iff_exists.1 (hfin.hasE.trans hE)
      exact commit_sequence_congr s s' (r := .eLen) (vs := vs) (by simp [hfin.dmem, dstWrite])
        hfin.regs (by simp)
    · exact commit_scalar_congr s s' hfin (r := .r0) (by rcases hi with rfl | rfl <;> decide)
    · subst hi
      exact ⟨commit_scalar_congr s s' hfin (r := .r1) (by decide),
        commit_scalar_congr s s' hfin (r := .r2) (by decide)⟩
  · rw [he] at hruns hexec
    exact ⟨_, hexec, rfl, rfl, fun hnone => absurd hnone hruns⟩

end Sys2Proof.Machine
end

section
/-! SUPPORT. The accesses of the host by their targets: which register or DMEM word a valid access
acts on, what a bus address reaches, and what a step can do to DMEM or stop at. -/

namespace Sys2Proof.Machine

open Sys2Proof

/-! ### What a valid access acts on -/

/-- Every aligned offset up to 0x068 but the hole at 0x02C is a register's (R32, R85). -/
theorem exists_offset_eq {off : Nat} (haligned : off % 4 = 0) (hle : off ≤ 0x068)
    (hhole : off ≠ 0x02C) : ∃ r, off = Reg.offset r := by
  have hmap : ∀ k < 27, k ≠ 11 → ∃ r ∈ regMap, 4 * k = Reg.offset r := by decide
  obtain ⟨r, -, hr⟩ := hmap (off / 4) (by omega) (by omega)
  exact ⟨r, by omega⟩

/-- An access to a DMEM word while idle acts on that word (R86, R87). -/
theorem target_of_wordOffset {s : State} (hidle : s.busy = false) {off : Offset} {i : Nat}
    (hoff : off.toNat = 0x10000 + 4 * i) (hi : i < s.params.dmemWords) :
    s.target off 4 = some (.word i) := by
  simp [State.target, hoff, targetAt_wordOffset hi, hidle]

/-- A valid access acts on a register or on a DMEM word (R83). -/
theorem target_ne_none_of_validAccess {s : State} {off : Offset} {size : Nat}
    (h : ValidAccess s.params.dmemWords s.busy off size) : s.target off size ≠ none := by
  obtain ⟨rfl, haligned, ⟨hle, hhole⟩ | ⟨hfirst, hlast, hidle⟩⟩ := h
  · obtain ⟨r, hr⟩ := exists_offset_eq haligned hle hhole
    rw [offset_eq_of_toNat hr, target_reg]
    nofun
  · rw [target_of_wordOffset hidle (i := (off.toNat - 0x10000) / 4) (by omega) (by omega)]
    nofun

/-- No register write, the soft reset included, touches the responses given so far (log 5, log 11). -/
theorem writeReg_responses (s : State) (r : Reg) (v : Word) :
    (s.writeReg r v).responses = s.responses := by
  cases r
  case ctrl => simp only [State.writeReg, State.writeCtrl]; split <;> rfl
  case cmd => simp only [State.writeReg, State.writeCmd]; split <;> rfl
  all_goals rfl

/-- Settles O16: an invalid access is `serve_invalid`; a valid one has a target, so every answer of
`serve_cases` left to it is an OKAY. -/
theorem exactlyTheInvalidAccessesGetSlverr : Obligations.ExactlyTheInvalidAccessesGetSlverr := by
  refine fun s a => ⟨fun hinvalid => ⟨serve_invalid hinvalid, rfl⟩, fun hvalid t h => ?_⟩
  rcases serve_cases s a with ⟨-, hnone⟩ | ⟨off, r, -, -, hs⟩ | ⟨off, r, v, -, -, hs⟩ |
    ⟨off, i, w, -, -, -, -, -, hs⟩ | ⟨off, i, -, -, -, -, -, hs⟩ | ⟨off, i, v, -, -, -, -, hs⟩
  · exact absurd hnone (target_ne_none_of_validAccess hvalid)
  all_goals cases hs.symm.trans h
  · exact ⟨.data (s.readReg r), nofun, rfl⟩
  · exact ⟨.ack, nofun, by rw [State.respond_responses, writeReg_responses]⟩
  · exact ⟨.data w, nofun, rfl⟩
  · exact ⟨.ack, nofun, rfl⟩

/-! ### The DMEM window -/

/-- A read of a written word's offset answers the word (R86). -/
theorem serve_readWord {s : State} {off : Offset} {i : Nat} {w : Word}
    (htarget : s.target off 4 = some (.word i)) (hw : s.dmem.readWord i = some w) :
    s.serve (.read off 4) = .next (s.respond (.data w)) := by
  simp only [State.serve, htarget, hw]

/-- A write at a word's offset stores the data word there (R86). -/
theorem serve_writeWord {s : State} {off : Offset} {i : Nat}
    (htarget : s.target off 4 = some (.word i)) (v : Word) :
    s.serve (.write off 4 v) =
      .next (State.respond { s with dmem := s.dmem.writeWord i v } .ack) := by
  simp only [State.serve, htarget]

/-- Settles O17: the window's offset names the word (`target_word`) before and after the write, and
the rest is the laws of a word write. -/
theorem dmemWindowStoresWholeWords : Obligations.DmemWindowStoresWholeWords := by
  intro s i v hparams hidle hi
  have htarget := target_word hparams hidle hi
  refine ⟨fun w hw => serve_readWord htarget hw, _, serve_writeWord htarget v, rfl,
    Memory.readWord_writeWord_same _ _ _, fun j hj => Memory.readWord_writeWord_other _ v hj,
    fun a ha => Memory.readByte_writeWord_outside _ _ v ha, ?_⟩
  exact serve_readWord (target_word hparams hidle hi) (Memory.readWord_writeWord_same _ _ _)

/-! ### What a step does to DMEM, and where it stops -/

/-- A host action that brings an access to the port is that access (R82). -/
theorem host_of_reaching (s : State) {i : Input} {a : Access} (h : Input.reaching i = some a) :
    s.host i = s.serve a := by
  rcases host_cases s i with ⟨a', ha, hs⟩ | ⟨hnone, -⟩ | ⟨rfl, -⟩ | ⟨rfl, -⟩
  · cases h.symm.trans ha
    exact hs
  · cases h.symm.trans hnone
  · cases h
  · cases h

theorem writeCmd_dmem (s : State) (v : Word) : (s.writeCmd v).dmem = s.dmem := by
  simp only [State.writeCmd]
  split <;> rfl

/-- A host action changes DMEM only as a hardware reset or as a write to one word while idle (R80,
R86, R341). -/
theorem host_dmem {s t : State} {i : Input} (h : s.host i = .next t) :
    t.dmem = s.dmem ∨ i = .hardReset ∨ (s.busy = false ∧ ∃ (off : Offset) (k : Nat) (v : Word),
      Input.reaching i = some (.write off 4 v) ∧ off.toNat = 0x10000 + 4 * k ∧
      t.dmem = s.dmem.writeWord k v) := by
  rcases host_effect h with (hi | ⟨v, hv, hbit⟩) | ⟨v, -, rfl⟩ | ⟨v, -, rfl⟩ |
    ⟨hidle, off, k, v, hv, hoff, -, rfl⟩ | ht
  · exact .inr (.inl hi)
  · rw [host_of_reaching s hv, serve_writeCtrl, State.writeCtrl_reset hbit] at h
    cases h
    exact .inl rfl
  · exact .inl rfl
  · exact .inl (writeCmd_dmem s v)
  · exact .inr (.inr ⟨hidle, off, k, v, hv, hoff, rfl⟩)
  · exact .inl ((congrArg State.dmem ht.same).trans rfl)

/-- Settles O25: of the completions only `commit` writes DMEM, and `host_dmem` says which host
actions do. -/
theorem dmemChangesOnlyByCompletionHostWriteOrHardReset :
    Obligations.DmemChangesOnlyByCompletionHostWriteOrHardReset := by
  intro s t h hchanged
  cases hturn : s.enginesTurn with
  | true =>
    rcases completion_cases hturn h with ⟨w, rfl⟩ | ⟨code, info, rfl⟩
    · exact .inl ⟨rfl, rfl, rfl⟩
    · exact absurd rfl hchanged
  | false =>
    rcases hostStep_cases hturn h with rfl | ⟨i, rest, hin, hhost⟩
    · exact absurd rfl hchanged
    · rcases host_dmem hhost with hsame | hreset | ⟨hidle, off, k, v, hv, hoff, hdmem⟩
      · exact absurd hsame hchanged
      · exact .inr ⟨i, rest, hin, .inl hreset⟩
      · have hk : (off.toNat - 0x10000) / 4 = k := by omega
        exact .inr ⟨i, rest, hin, .inr ⟨hidle, off, v, hv, by omega, by rw [hk]; exact hdmem⟩⟩

/-- A completion is refused only at an unwritten word of a source its command reads (R93, I2). -/
theorem exec_refused {i : Instr} {s : State} {r : Refusal} (h : exec i s = .refused r) :
    ∃ w, r = .unwrittenDmem w ∧ StopsAt i s.params s.latch.ops s.dmem w := by
  have hruns := bodyOf_runs i s.params s.latch.ops s.dmem
  rw [exec_eq_complete] at h
  rcases complete_cases s (bodyOf i s.params s.latch.ops s.dmem) with
    ⟨_, -, hs⟩ | ⟨_, _, -, hs⟩ | ⟨w, hw, hs⟩
  all_goals cases hs.symm.trans h
  rw [hw] at hruns
  exact ⟨w, rfl, hruns⟩

/-- A host action is refused only as a read of an unwritten word while idle (R93, I2). -/
theorem host_refused {s : State} {i : Input} {r : Refusal} (h : s.host i = .refused r) :
    ∃ (w : Nat) (off : Offset), r = .unwrittenDmem w ∧ w < s.params.dmemWords ∧
      s.dmem.readWord w = none ∧ s.busy = false ∧ Input.reaching i = some (.read off 4) ∧
      off.toNat = 0x10000 + 4 * w := by
  rcases host_cases s i with ⟨a, ha, hs⟩ | ⟨-, -, -, hs⟩ | ⟨-, hs⟩ | ⟨-, hs⟩
  · rw [h] at hs
    rcases serve_cases s a with ⟨hv, -⟩ | ⟨_, _, -, -, hv⟩ | ⟨_, _, _, -, -, hv⟩ |
      ⟨_, _, _, -, -, -, -, -, hv⟩ | ⟨off, w, rfl, hoff, hw, hidle, hunwritten, hv⟩ |
      ⟨_, _, _, -, -, -, -, hv⟩
    all_goals cases hs.trans hv
    exact ⟨w, off, rfl, hw, hunwritten, hidle, ha, hoff⟩
  all_goals cases hs.symm.trans h

/-- Settles O26: there is no fault to stop with, and of the cases of a step only a command's
completion (`exec_refused`) and a host action (`host_refused`) can be refused. -/
theorem stepStopsOnlyAtAnUnwrittenWord : Obligations.StepStopsOnlyAtAnUnwrittenWord := by
  refine fun s => ⟨nofun, fun r h => ?_⟩
  rcases step_cases s with ⟨hturn, i, hdec, hs⟩ | ⟨-, _, -, hs⟩ | ⟨-, -, hs⟩ | ⟨-, i, rest, hin, hs⟩
  · obtain ⟨w, rfl, x, hx, hfirst, hlast, hbounds, hunwritten⟩ := exec_refused (hs.symm.trans h)
    refine ⟨w, rfl, hlast.trans_le hbounds, hunwritten, .inl ⟨hturn, i, hdec, ?_⟩⟩
    cases x with
    | a => exact .inl ⟨hx, hfirst, hlast⟩
    | b => exact .inr ⟨hx, hfirst, hlast⟩
  · cases hs.symm.trans h
  · cases hs.symm.trans h
  · obtain ⟨w, off, rfl, hw, hunwritten, hidle, ha, hoff⟩ := host_refused (hs.symm.trans h)
    refine ⟨w, rfl, hw, hunwritten, .inr ⟨hidle, i, rest, hin, ?_⟩⟩
    rw [ha, ← hoff, BitVec.ofNat_toNat, BitVec.setWidth_eq]

/-! ### Arrival order -/

/-- Off the engine's turn the step is the host's (R97). -/
theorem step_eq_hostStep {s : State} (hturn : ¬ s.enginesTurn = true) : step s = s.hostStep :=
  if_neg hturn

/-- Settles O4: off the engine's turn the step is `hostStep`, in its two cases. -/
theorem hostActionsAreServedInArrivalOrder : Obligations.HostActionsAreServedInArrivalOrder := by
  refine ⟨fun s i rest hin hwait => ?_, fun s hin hidle => ?_⟩
  · have hturn : ¬ s.enginesTurn = true := by
      rw [enginesTurn_iff, hin]
      rintro ⟨hbusy, hzero | hnil⟩
      · exact hwait.elim (fun hidle => by simp [hbusy] at hidle) (absurd hzero)
      · cases hnil
    rw [step_eq_hostStep hturn, State.hostStep, hin]
    rfl
  · have hturn : ¬ s.enginesTurn = true := fun hturn => by
      simp [busy_of_enginesTurn hturn] at hidle
    rw [step_eq_hostStep hturn, State.hostStep, hin]

/-! ### Register reads -/

/-- A host's read at a register's offset answers the register's value (R83, R88). -/
theorem serve_readReg (s : State) (r : Reg) :
    s.serve (.read (BitVec.ofNat 17 (Reg.offset r)) 4) =
      .next (s.respond (.data (s.readReg r))) := by
  simp only [State.serve, target_reg]

/-- DMEM_SIZE and NMAX hold the implementation parameters, which fit their 32 bits (R5, R35, R36). -/
theorem toNat_readReg_params {s : State} (h : s.params.wellFormed = true) :
    (s.readReg .dmemSize).toNat = s.params.dmemWords ∧
      (s.readReg .nmax).toNat = s.params.nMax := by
  simp only [Params.wellFormed, Bool.and_eq_true, decide_eq_true_eq] at h
  simp only [State.readReg, BitVec.toNat_ofNat]
  omega

/-- Settles O12: the offsets and the fields are those of `Reg.offset` and `State.readReg`, the read
is `serve_readReg`, and the two sizes are `toNat_readReg_params`. -/
theorem registerReadsHaveNoSideEffect : Obligations.RegisterReadsHaveNoSideEffect := by
  refine ⟨?offsets, fun s => ?fields, serve_readReg, fun s => ⟨rfl, rfl, toNat_readReg_params⟩⟩
  case offsets => decide
  case fields => simp [State.readReg]

/-! ### The window on the host bus -/

theorem route_inside {addr : Nat} (hfirst : Config.base ≤ addr)
    (hlast : addr < Config.base + 0x20000) :
    route addr = some (BitVec.ofNat 17 (addr - Config.base)) := if_pos ⟨hfirst, hlast⟩

theorem route_outside {addr : Nat} (h : addr < Config.base ∨ Config.base + 0x20000 ≤ addr) :
    route addr = none := if_neg fun ⟨hfirst, hlast⟩ =>
  h.elim (Nat.not_lt.2 hfirst) (Nat.not_le.2 hlast)

/-- Settles O19: the routing of a bus address, inside the window and outside it. -/
theorem onlyTheWindowReachesTheEngine : Obligations.OnlyTheWindowReachesTheEngine := by
  refine fun s addr size v => ⟨fun hout => ?outside, fun hfirst hlast => ?inside,
    Nat.mul_mod_right _ _⟩
  case outside =>
    simp [State.host, Input.reaching, route_outside hout, State.serveRouted]
  case inside =>
    simp [State.host, Input.reaching, route_inside hfirst hlast, State.serveRouted]

end Sys2Proof.Machine
end

section
/-! SUPPORT. The encoding of commands: the decoder inverts the encoder, and the two descriptions of the
legal words, the opcodes of R113 and the reserved ranges of R116, agree. Then the loop WAIT of a host
script. -/

/-- The statement made for every instruction, of any command. -/
theorem Sys2Proof.Laws.EncodingRoundTrip.all (i : Sys2Proof.Instr) : Statement i := by
  cases i
  exacts [nop, egcd, modinv, trim, add, sub, conv, pmod, divp, invp, inv2k, bmod, b3enc, b3dec,
    pack, unpack]

namespace Sys2Proof

/-! ### The fields of a command word -/

/-- The field OPC as a number (R111). -/
theorem toNat_opcField (w : Word) : (opcField w).toNat = w.toNat % 256 := by
  simp [opcField]

/-- Bits [31:8] are 0 in the words below 256 (R111). -/
theorem rsvdField_eq_zero_iff (w : Word) : rsvdField w = 0#24 ↔ w.toNat < 256 := by
  rw [← BitVec.toNat_inj]
  simp only [rsvdField, BitVec.extractLsb'_toNat, Nat.shiftRight_eq_div_pow, BitVec.toNat_ofNat]
  omega

/-! ### Decoder and encoder -/

theorem decode_encode (i : Instr) : decode (encode i) = .ok i :=
  let ⟨_, _, hdecode⟩ := Laws.EncodingRoundTrip.all i
  hdecode

theorem legalWord_encode (i : Instr) : legalWord (encode i) = true :=
  let ⟨hlegal, _⟩ := Laws.EncodingRoundTrip.all i
  hlegal

/-- The two columns of the opcode map (R113). -/
theorem toNat_encode_of_mem : ∀ row ∈ opcodeMap, (encode row.2).toNat = row.1.toNat := by decide

/-- What the decoder accepts has no reserved bit and an opcode of the map (R112, R113). -/
theorem decode_eq_ok {w : Word} {i : Instr} (h : decode w = .ok i) :
    rsvdField w = 0#24 ∧ (opcField w, i) ∈ opcodeMap := by
  unfold decode at h
  split at h
  · next hrsvd =>
    split at h
    · next hrow =>
      cases h
      obtain ⟨before, after, hmap, -⟩ := List.lookup_eq_some_iff.1 hrow
      exact ⟨hrsvd, by simp [hmap]⟩
    · cases h
  · cases h

/-- A command is selected by its own word and by no other (R112). -/
theorem decode_eq_ok_iff (w : Word) (i : Instr) : decode w = .ok i ↔ w = encode i := by
  refine ⟨fun h => ?_, fun h => h ▸ decode_encode i⟩
  obtain ⟨hrsvd, hrow⟩ := decode_eq_ok h
  have hlt := (rsvdField_eq_zero_iff w).1 hrsvd
  refine BitVec.eq_of_toNat_eq ?_
  rw [toNat_encode_of_mem _ hrow, toNat_opcField, Nat.mod_eq_of_lt hlt]

/-! ### Legal words -/

theorem reservedOpcode_of_le {opc : Nat} (hfirst : 0x24 ≤ opc) (hlast : opc ≤ 0xFF) :
    reservedOpcode opc = true := by simp [reservedOpcode, hfirst, hlast]

/-- The opcodes below 0x24 that R116 does not reserve are those of the map. -/
theorem exists_mem_opcodeMap :
    ∀ opc < 0x24, reservedOpcode opc = false → ∃ row ∈ opcodeMap, row.1.toNat = opc := by decide

theorem legalWord_iff (w : Word) : legalWord w = true ↔ ∃ i, decode w = .ok i := by
  refine ⟨fun h => ?_, fun ⟨i, hi⟩ => ?_⟩
  · simp only [legalWord, Bool.and_eq_true, beq_iff_eq, Bool.not_eq_true'] at h
    obtain ⟨hbits, hopc⟩ := h
    rw [Nat.mod_eq_of_lt (by omega)] at hopc
    have hlt : w.toNat < 0x24 := by
      by_contra hge
      simp [reservedOpcode_of_le (not_lt.1 hge) (by omega)] at hopc
    obtain ⟨row, hrow, hw⟩ := exists_mem_opcodeMap _ hlt hopc
    refine ⟨row.2, (decode_eq_ok_iff w row.2).2 (BitVec.eq_of_toNat_eq ?_)⟩
    rw [toNat_encode_of_mem row hrow, hw]
  · rw [(decode_eq_ok_iff w i).1 hi]
    exact legalWord_encode i

end Sys2Proof

namespace Sys2Proof.Machine

open Sys2Proof

/-! ### Illegal words -/

/-- A latched word that is no command completes with ILLEGAL_OPCODE (R310). -/
theorem step_of_decode_error {s : State} {e : Reject} (hturn : s.enginesTurn = true)
    (hdec : decode s.latch.cmd = .error e) :
    step s = .next (s.failedWith .illegalOpcode .none) := by
  rcases step_cases s with ⟨-, i, hdec', -⟩ | ⟨-, -, -, hs⟩ | ⟨hturn', -⟩ | ⟨hturn', -⟩
  · cases hdec.symm.trans hdec'
  · exact hs
  · cases hturn.symm.trans hturn'
  · cases hturn.symm.trans hturn'

/-- Settles O2: the decoder inverts the encoder, and an illegal word, which does not decode, is reported
as such. -/
theorem decodeSelectsExactlyTheLegalWords : Obligations.DecodeSelectsExactlyTheLegalWords := by
  refine ⟨decode_eq_ok_iff, legalWord_iff, fun s hbusy hdue hillegal => ?_⟩
  cases hdec : decode s.latch.cmd with
  | ok i => simp [(legalWord_iff _).2 ⟨i, hdec⟩] at hillegal
  | error e => exact step_of_decode_error ((enginesTurn_iff s).2 ⟨hbusy, hdue⟩) hdec

/-- Settles O1: the nine words are the encodings of their commands, and the decoder evaluates the
three others. -/
theorem wordsOfTheOpcodeMapDecode : Obligations.WordsOfTheOpcodeMapDecode :=
  ⟨decode_encode .nop, decode_encode .egcd, decode_encode .modinv, decode_encode .trim,
    decode_encode .conv, decode_encode .inv2k, decode_encode .bmod, decode_encode .b3enc,
    decode_encode .unpack, rfl, rfl, rfl⟩

/-! ### WAIT -/

/-- The loop WAIT goes on while BUSY is 1 (R119). -/
theorem poll_eq (s : State) : s.poll = { s with
    inputs := if s.busy then .wait :: s.inputs else s.inputs
    responses := .data (s.readReg .status) :: s.responses } := by
  have hbit : (s.readReg .status).getLsbD 0 = s.busy :=
    (getLsbD_statusWord s (by decide)).trans (by simp)
  dsimp only [State.poll]
  rw [hbit]
  split <;> rfl

/-- Settles O20: off the engine's turn WAIT is served (O4), and serving it is one `poll`. -/
theorem waitPollsStatusUntilIdle : Obligations.WaitPollsStatusUntilIdle := by
  intro s rest hin hwait
  obtain ⟨hserved, -⟩ := hostActionsAreServedInArrivalOrder
  rw [hserved s .wait rest hin hwait, State.host, poll_eq]
  rfl

end Sys2Proof.Machine
end

section
/-! SUPPORT. The frame of a command: of LATCH its body sees the marked operand registers alone, and a
commit changes the marked result registers and the bytes of the sequences it writes. -/

namespace Sys2Proof.Machine

open Sys2Proof

/-! ### What a commit changes -/

theorem writeResults_frame (s : State) (ws : List (ResultReg × Int)) : s.writeResults ws = { s with
    dLen := (s.writeResults ws).dLen, eLen := (s.writeResults ws).eLen
    r0 := (s.writeResults ws).r0, r1 := (s.writeResults ws).r1
    r2 := (s.writeResults ws).r2 } := by
  induction ws generalizing s with
  | nil => rfl
  | cons w ws ih =>
    obtain ⟨r, v⟩ := w
    rw [State.writeResults]
    conv_lhs => rw [ih]
    cases r <;> rfl

/-- A commit changes STATUS, ERR_INFO, the result registers and DMEM alone (R61). -/
theorem commit_frame (s : State) (w : Writes) : s.commit w = { s with
    busy := false, done := true, err := .none, errInfo := .none
    dLen := (s.commit w).dLen, eLen := (s.commit w).eLen
    r0 := (s.commit w).r0, r1 := (s.commit w).r1, r2 := (s.commit w).r2
    dmem := (s.commit w).dmem } := by
  rw [State.commit_dmem]
  conv_lhs => rw [State.commit, writeResults_frame]
  rfl

/-- A commit does not depend on LATCH. -/
theorem commit_withLatch (s : State) (l : Latch) (w : Writes) :
    State.commit { s with latch := l } w = { s.commit w with latch := l } := by
  have hresult (r : ResultReg) :
      (State.commit { s with latch := l } w).result r = (s.commit w).result r := by
    rw [Machine.result_commit, Machine.result_commit]
    exact result_writeResults_congr (.inr (by cases r <;> rfl))
  rw [commit_frame, commit_frame s w, State.commit_dmem, State.commit_dmem]
  congr 1
  exacts [hresult .dLen, hresult .eLen, hresult .r0, hresult .r1, hresult .r2]

/-! ### The operand registers a command reads -/

/-- A body reads only the operand registers marked for its command (R114). -/
theorem bodyOf_markedOperands (i : Instr) (par : Params) (o : Operands) (m : Memory) :
    bodyOf i par (markedOperands i o) m = bodyOf i par o m := by cases i <;> rfl

/-- The state with the latched operand registers that are not marked for the command zeroed. -/
abbrev State.marked (i : Instr) (s : State) : State :=
  { s with latch := { s.latch with ops := markedOperands i s.latch.ops } }

/-- A completion is the same on the marked operand registers alone, and keeps them. -/
theorem exec_marked (i : Instr) (s : State) :
    exec i (s.marked i) = match exec i s with
      | .next t => .next (t.marked i)
      | .fault f => .fault f
      | .refused r => .refused r := by
  rw [exec_eq_complete, exec_eq_complete i s, bodyOf_markedOperands]
  rcases complete_cases s (bodyOf i s.params s.latch.ops s.dmem) with
    ⟨w, hw, -⟩ | ⟨c, info, he, -⟩ | ⟨x, hx, -⟩
  · rw [hw, complete_ok, complete_ok, commit_withLatch]
    simp
  · rw [he]; rfl
  · rw [hx]; rfl

/-! ### The result registers a command writes -/

/-- The result registers marked W for a command (R114). -/
def resultRegs (i : Instr) : List ResultReg :=
  scalarResults i ++ (if writesD i then [.dLen] else []) ++ (if writesE i then [.eLen] else [])

/-- A commit of the command's results keeps every result register that is not marked for it. -/
theorem Finished.result_commit {i : Instr} {o : Operands} {w : Writes} {d e : Option Poly}
    {regs : List (ResultReg × Int)} (h : Finished i o w d e regs) (s : State) {r : ResultReg}
    (hr : r ∉ resultRegs i) : (s.commit w).result r = s.result r := by
  have hwritten : w.regs.map Prod.fst = resultRegs i := by
    rw [h.regs, List.map_append, List.map_append, h.scalars, resultRegs, ← h.hasD, ← h.hasE]
    cases d <;> cases e <;> rfl
  rw [Machine.result_commit, result_writeResults_other (by rwa [hwritten])]
  cases r <;> rfl

theorem writesD_of_writesE {i : Instr} (h : writesE i = true) : writesD i = true :=
  readsA_of_readsB (by simp_all [writesE, readsB])

/-- A commit of the command's results keeps DMEM if the command has no destination D. -/
theorem Finished.dmem_commit {i : Instr} {o : Operands} {w : Writes} {d e : Option Poly}
    {regs : List (ResultReg × Int)} (h : Finished i o w d e regs) (s : State)
    (hD : writesD i = false) : (s.commit w).dmem = s.dmem := by
  have hE : writesE i = false := Bool.eq_false_iff.2 fun hE => by
    simp [writesD_of_writesE hE] at hD
  have hd := h.hasD.trans hD
  have he := h.hasE.trans hE
  rw [Option.isSome_eq_false_iff, Option.isNone_iff_eq_none] at hd he
  rw [State.commit_dmem, h.dmem, hd, he]
  rfl

theorem dLen_mem_resultRegs (i : Instr) : .dLen ∈ resultRegs i ↔ writesD i = true := by
  cases i <;> decide

theorem eLen_mem_resultRegs (i : Instr) : .eLen ∈ resultRegs i ↔ writesE i = true := by
  cases i <;> decide

theorem r0_mem_resultRegs (i : Instr) : .r0 ∈ resultRegs i ↔ i = .egcd ∨ i = .modinv := by
  cases i <;> decide

theorem r1_mem_resultRegs (i : Instr) : .r1 ∈ resultRegs i ↔ i = .egcd := by
  cases i <;> decide

theorem r2_mem_resultRegs (i : Instr) : .r2 ∈ resultRegs i ↔ i = .egcd := by
  cases i <;> decide

/-- The frame of R114, register by register. -/
theorem eq_frame {i : Instr} {s t : State}
    (hshape : t = { s with
      busy := false, done := true, err := t.err, errInfo := t.errInfo, dLen := t.dLen
      eLen := t.eLen, r0 := t.r0, r1 := t.r1, r2 := t.r2, dmem := t.dmem })
    (hresult : ∀ r ∉ resultRegs i, t.result r = s.result r)
    (hdmem : writesD i = false → t.dmem = s.dmem) :
    t = { s with
      busy := false, done := true, err := t.err, errInfo := t.errInfo
      dLen := if writesD i then t.dLen else s.dLen
      eLen := if writesE i then t.eLen else s.eLen
      r0 := if i = .egcd ∨ i = .modinv then t.r0 else s.r0
      r1 := if i = .egcd then t.r1 else s.r1
      r2 := if i = .egcd then t.r2 else s.r2
      dmem := if writesD i then t.dmem else s.dmem } := by
  have hmarked {p : Prop} [Decidable p] {r : ResultReg} (hr : r ∈ resultRegs i ↔ p) :
      (if p then t.result r else s.result r) = t.result r :=
    ite_eq_left_iff.2 fun hp => (hresult r (mt hr.1 hp)).symm
  have hd : (if writesD i then t.dLen else s.dLen) = t.dLen := hmarked (dLen_mem_resultRegs i)
  have he : (if writesE i then t.eLen else s.eLen) = t.eLen := hmarked (eLen_mem_resultRegs i)
  have h0 : (if i = .egcd ∨ i = .modinv then t.r0 else s.r0) = t.r0 :=
    hmarked (r0_mem_resultRegs i)
  have h1 : (if i = .egcd then t.r1 else s.r1) = t.r1 := hmarked (r1_mem_resultRegs i)
  have h2 : (if i = .egcd then t.r2 else s.r2) = t.r2 := hmarked (r2_mem_resultRegs i)
  have hm : (if writesD i then t.dmem else s.dmem) = t.dmem :=
    ite_eq_left_iff.2 fun hD => (hdmem (Bool.eq_false_iff.2 hD)).symm
  rw [hd, he, h0, h1, h2, hm]
  exact hshape

/-! ### The bytes a command writes -/

/-- Writes of sequences leave every byte outside them alone. -/
theorem Memory.readByte_writeAll_outside {m : Memory} {ws : List (Nat × Poly)} {a : Nat}
    (h : ∀ d ∈ ws, Outside a d.1 d.2.length) : (m.writeAll ws).readByte a = m.readByte a := by
  induction ws generalizing m with
  | nil => rfl
  | cons d ws ih =>
    obtain ⟨hd, hws⟩ := List.forall_mem_cons.1 h
    exact (ih hws).trans (Memory.readByte_writeSeq_outside m d.1 d.2 hd)

/-- The sequences of a success are each short enough for their length register to hold their
length. -/
def Short (x : Except Stop Writes) : Prop := ∀ w, x = .ok w → ∀ d ∈ w.dmem, d.2.length < 2 ^ 32

theorem Short.bind {α : Type} {x : Except Stop α} {f : α → Except Stop Writes}
    (h : ∀ a, Short (f a)) : Short (x >>= f) := by
  cases x with
  | ok a => exact h a
  | error e => exact nofun

theorem dstWrite_short {par : Params} {o : Operands} {x : Dst} {r : Option Poly}
    (h : dstOk par o x r) : ∀ d ∈ dstWrite o x r, d.2.length < 2 ^ 32 := by
  cases r with
  | none => exact nofun
  | some vs =>
    have hcap : o.dstCap x < 2 ^ 32 := by cases x <;> exact BitVec.isLt _
    rintro d hd
    obtain rfl := List.mem_singleton.1 hd
    exact h.1.trans_lt hcap

/-- `Finish` checks each sequence against a capacity, which is a 32-bit word (R124). -/
theorem finish_short {par : Params} {o : Operands} {d e : Option Poly}
    {regs : List (ResultReg × Int)} : Short (finish par o d e regs) := by
  rintro w hw
  rcases finish_cases par o d e regs with ⟨hf, -, -, -, hd, he⟩ | ⟨c, info, hf, -⟩
  · cases hf.symm.trans hw
    exact List.forall_mem_append.2 ⟨dstWrite_short hd, dstWrite_short he⟩
  · cases hf.symm.trans hw

/-- Every body ends in `Finish`, after at most four checks and computations. -/
theorem bodyOf_short (i : Instr) (par : Params) (o : Operands) (m : Memory) :
    Short (bodyOf i par o m) := by
  cases i
  case nop => exact finish_short
  case trim | add | sub => exact .bind fun _ => finish_short
  case egcd | conv | pmod | bmod | b3enc | b3dec | pack =>
    exact .bind fun _ => .bind fun _ => finish_short
  case modinv | divp | unpack => exact .bind fun _ => .bind fun _ => .bind fun _ => finish_short
  case invp | inv2k =>
    exact .bind fun _ => .bind fun _ => .bind fun _ => .bind fun _ => finish_short

theorem toNat_enc32_natCast {n : Nat} (h : n < 2 ^ 32) : (enc32 (n : Int)).toNat = n := by
  rw [enc32, BitVec.toNat_ofInt]
  omega

section

variable {i : Instr} {o : Operands} {w : Writes} {d e : Option Poly} {vs : Poly}
  {regs : List (ResultReg × Int)}

/-- After a commit D_LEN is the length of the D sequence. -/
theorem Finished.dLen_commit (h : Finished i o w (some vs) e regs) (s : State) :
    (s.commit w).dLen = enc32 vs.length := by
  have hregs : w.regs = regs ++ (.dLen, (vs.length : Int)) :: lenWrite .eLen e := by
    rw [h.regs, List.append_assoc]
    rfl
  refine (Machine.result_commit s w .dLen).trans ?_
  rw [hregs]
  exact result_writeResults_last _ _ _ (by cases e <;> simp [lenWrite])

/-- After a commit E_LEN is the length of the E sequence. -/
theorem Finished.eLen_commit (h : Finished i o w d (some vs) regs) (s : State) :
    (s.commit w).eLen = enc32 vs.length := by
  refine (Machine.result_commit s w .eLen).trans ?_
  rw [h.regs]
  exact result_writeResults_last _ _ _ (by simp)

/-- A commit keeps every byte outside the D_LEN words at D and, where the command has a destination
E, the E_LEN words at E. -/
theorem Finished.readByte_commit (h : Finished i o w d e regs)
    (hshort : ∀ x ∈ w.dmem, x.2.length < 2 ^ 32) (s : State) {a : Nat}
    (hD : writesD i = true → Outside a (o.dstAddr .d) (s.commit w).dLen.toNat)
    (hE : writesE i = true → Outside a (o.dstAddr .e) (s.commit w).eLen.toNat) :
    (s.commit w).dmem.readByte a = s.dmem.readByte a := by
  rw [State.commit_dmem]
  rw [h.dmem] at hshort ⊢
  obtain ⟨hshortD, hshortE⟩ := List.forall_mem_append.1 hshort
  refine Memory.readByte_writeAll_outside (List.forall_mem_append.2 ⟨fun x hx => ?_, fun x hx => ?_⟩)
  · cases d with
    | none => cases hx
    | some vs =>
      have hlen := hshortD x hx
      obtain rfl := List.mem_singleton.1 hx
      have hout := hD h.hasD.symm
      rwa [h.dLen_commit, toNat_enc32_natCast hlen] at hout
  · cases e with
    | none => cases hx
    | some vs =>
      have hlen := hshortE x hx
      obtain rfl := List.mem_singleton.1 hx
      have hout := hE h.hasE.symm
      rwa [h.eLen_commit, toNat_enc32_natCast hlen] at hout

end

/-- Settles O28: what a command reads is `exec_marked`; an error report changes no result and no byte,
and a commit changes those of the command (`Finished`). -/
theorem commandsReadAndWriteOnlyTheirMarkedRegisters :
    Obligations.CommandsReadAndWriteOnlyTheirMarkedRegisters := by
  refine ⟨exec_marked, fun i s t h => ?_⟩
  rw [exec_eq_complete] at h
  rcases complete_next h with ⟨w, hw, rfl⟩ | ⟨c, info, -, rfl⟩
  · have hruns := bodyOf_runs i s.params s.latch.ops s.dmem
    rw [hw] at hruns
    obtain ⟨d, e, regs, hfin⟩ := hruns
    exact ⟨eq_frame (commit_frame s w) (fun r hr => hfin.result_commit s hr) (hfin.dmem_commit s),
      fun _ a hD hE => hfin.readByte_commit (bodyOf_short i _ _ _ w hw) s hD hE⟩
  · exact ⟨eq_frame rfl (fun r _ => by cases r <;> rfl) fun _ => rfl, fun _ a _ _ => rfl⟩

end Sys2Proof.Machine
end

section
/-! SUPPORT. The ModularInt commands EGCD and MODINV (40_modint.md R140 to R143): the recursion of R140
with its Bezout pair and the bounds of R141, the inverse of R142, and what the two commands write. -/

namespace Sys2Proof.Machine

open Sys2Proof

/-! ### The recursion of `egcd` (R140) -/

/-- The first argument strictly decreases, so fuel above it changes nothing (R351). -/
theorem egcdGo_congr_fuel {n m a : Nat} (hn : a < n) (hm : a < m) (b : Nat) :
    egcdGo n a b = egcdGo m a b := by
  induction n generalizing m a b with
  | zero => omega
  | succ n ih =>
    obtain ⟨m, rfl⟩ := Nat.exists_eq_succ_of_ne_zero (show m ≠ 0 by omega)
    simp only [egcdGo]
    split
    · rfl
    · next ha =>
      have hlt := Nat.mod_lt b (Nat.pos_of_ne_zero ha)
      rw [ih (m := m) (by omega) (by omega)]

theorem egcd_zero (b : Nat) : egcd 0 b = ((b : Int), 0, 1) := rfl

theorem egcd_of_pos {a b : Nat} {g y1 x1 : Int} (ha : 0 < a)
    (h : egcd (b % a) a = (g, y1, x1)) :
    egcd a b = (g, x1 - ((b / a : Nat) : Int) * y1, y1) := by
  have hfuel := egcdGo_congr_fuel (Nat.mod_lt b ha) (b % a).lt_succ_self a
  rw [egcd, egcdGo, if_neg ha.ne', hfuel]
  rw [egcd] at h
  rw [h]

/-- Induction along the recursion: what the base case answers, and what one call makes of the answer
of the next. -/
theorem egcd_induction
    {P : (a b : Nat) → (g x y : Int) → egcd a b = (g, x, y) → Prop}
    (zero : ∀ b : Nat, P 0 b b 0 1 (egcd_zero b))
    (pos : ∀ (a b : Nat) (g y1 x1 : Int) (ha : 0 < a) (hr : egcd (b % a) a = (g, y1, x1)),
      P (b % a) a g y1 x1 hr →
        P a b g (x1 - ((b / a : Nat) : Int) * y1) y1 (egcd_of_pos ha hr))
    {a b : Nat} {g x y : Int} (h : egcd a b = (g, x, y)) : P a b g x y h := by
  induction a, b using Nat.gcd.induction generalizing g x y with
  | H0 b =>
    cases h
    exact zero b
  | H1 a b ha ih =>
    obtain ⟨⟨_, _, _⟩, hr⟩ : ∃ r, egcd (b % a) a = r := ⟨_, rfl⟩
    cases (egcd_of_pos ha hr).symm.trans h
    exact pos a b _ _ _ ha hr (ih hr)

/-- The gcd and the Bezout identity of R140. -/
theorem egcd_bezout {a b : Nat} {g x y : Int} (h : egcd a b = (g, x, y)) :
    g = (Nat.gcd a b : Int) ∧ (a : Int) * x + (b : Int) * y = g := by
  induction h using egcd_induction with
  | zero b => simp
  | pos a b g y1 x1 _ _ ih =>
    obtain ⟨hgcd, hbezout⟩ := ih
    refine ⟨hgcd.trans (by rw [← Nat.gcd_rec]), ?_⟩
    push_cast at hbezout ⊢
    linear_combination hbezout - y1 * Int.mul_ediv_add_emod b a

/-- The bounds of R141 on the Bezout pair. Where a divides b the pair of the inner call is (0, 1);
elsewhere the inner bounds add up, since b = (b / a) * a + b % a. -/
theorem egcd_bounds {a b : Nat} {g x y : Int} (h : egcd a b = (g, x, y)) :
    |x| ≤ max 1 (b : Int) ∧ |y| ≤ max 1 (a : Int) := by
  induction h using egcd_induction with
  | zero b => simp
  | pos a b g y1 x1 ha hr ih =>
    obtain ⟨hy1, hx1⟩ := ih
    refine ⟨?_, hy1⟩
    rcases Nat.eq_zero_or_pos (b % a) with hdvd | hrem
    · rw [hdvd, egcd_zero] at hr
      cases hr
      simp
    · rw [max_eq_right (by omega)] at hx1 hy1
      calc |x1 - ((b / a : Nat) : Int) * y1|
          ≤ |x1| + |((b / a : Nat) : Int) * y1| := abs_sub _ _
        _ = |x1| + ((b / a : Nat) : Int) * |y1| := by rw [abs_mul, Nat.abs_cast]
        _ ≤ (b % a : Nat) + ((b / a : Nat) : Int) * a := by gcongr
        _ = b := by exact_mod_cast Nat.mod_add_div' b a
        _ ≤ max 1 (b : Int) := le_max_right _ _

/-- Settles O38: the recursion is `egcd_of_pos`, and every answer of it keeps the Bezout identity. -/
theorem egcdFollowsItsRecursion : Obligations.EgcdFollowsItsRecursion :=
  ⟨egcd_zero, fun _ _ _ _ _ => egcd_of_pos, fun _ _ _ _ _ => egcd_bezout⟩

/-! ### The inverse of `modinv` (R142) -/

/-- The operand of `egcd` in `modinv`, a normalised by one addition of m, is a modulo m. -/
theorem modinv_normalised_modEq {a m : Int} (ha : -m ≤ a) :
    ((if a < 0 then a + m else a).toNat : Int) ≡ a [ZMOD m] := by
  split
  · rw [Int.toNat_of_nonneg (by omega)]
    exact Int.add_modEq_right
  · rw [Int.toNat_of_nonneg (by omega)]

/-- The inverse is the coefficient x of the Bezout pair, reduced: a * x is 1 modulo m (R142). -/
theorem modinv_of_coprime {a m : Int} (hm : 1 ≤ m) (hm2 : m ≠ 2) (ha : -m ≤ a)
    (hgcd : Int.gcd a m = 1) :
    ∃ r, modinv a m = .ok r ∧ 0 ≤ r ∧ r < m ∧ (r * a - 1) % m = 0 := by
  set n : Nat := (if a < 0 then a + m else a).toNat with hn
  have hna : (n : Int) ≡ a [ZMOD m] := modinv_normalised_modEq ha
  have hmcast : (m.toNat : Int) = m := Int.toNat_of_nonneg (by omega)
  obtain ⟨⟨g, x, y⟩, h⟩ : ∃ r, egcd n m.toNat = r := ⟨_, rfl⟩
  obtain ⟨hg, hbezout⟩ := egcd_bezout h
  have hg1 : g = 1 := by
    rw [hg, ← Int.gcd_natCast_natCast, hmcast, ← Int.gcd_emod, hna, Int.gcd_emod, hgcd]
    rfl
  refine ⟨x % m, ?_, Int.emod_nonneg x (by omega), Int.emod_lt_of_pos x (by omega), ?_⟩
  · rw [modinv, if_neg hm2, ← hn, h, hg1]
    rfl
  · rw [← Int.emod_eq_emod_iff_emod_sub_eq_zero]
    calc x % m * a ≡ x * n [ZMOD m] := (Int.mod_modEq x m).mul hna.symm
      _ = 1 - m * y := by rw [← hg1, ← hbezout, hmcast]; ring
      _ ≡ 1 [ZMOD m] := Int.sub_mul_emod_self_left ..

/-! ### What EGCD and MODINV write (R141, R143) -/

theorem s32_le (w : Word) : s32 w ≤ 2147483647 := by
  have := BitVec.toInt_lt (x := w)
  simp only [s32]
  omega

/-- `Finish` of result registers alone, each with a value that fits (R124). -/
theorem finish_regs {par : Params} {o : Operands} {regs : List (ResultReg × Int)}
    (h : regs.all (fun w => fits32 w.2) = true) :
    finish par o none none regs = .ok { dmem := [], regs := regs } := by
  calc finish par o none none regs = .ok { dmem := [], regs := regs ++ [] ++ [] } := by
        unfold finish
        rw [h]
        rfl
    _ = _ := by rw [List.append_nil, List.append_nil]

theorem fits32_of_abs_le {v : Int} (h : |v| ≤ 2147483647) : fits32 v = true := by
  rw [abs_le] at h
  simp only [fits32, Bool.and_eq_true, decide_eq_true_eq]
  omega

theorem s32_enc32_of_abs_le {v : Int} (h : |v| ≤ 2147483647) : s32 (enc32 v) = v := by
  rw [abs_le] at h
  exact s32_enc32 (by omega) (by omega)

/-- EGCD on operands in its domain, where the results fit (R141). -/
theorem exec_egcd {s : State} {g x y : Int} (ha : 0 ≤ s32 s.latch.ops.sa)
    (hb : 0 ≤ s32 s.latch.ops.sb)
    (h : egcd (s32 s.latch.ops.sa).toNat (s32 s.latch.ops.sb).toNat = (g, x, y))
    (hg : |g| ≤ 2147483647) (hx : |x| ≤ 2147483647) (hy : |y| ≤ 2147483647) :
    exec .egcd s = .next { s with
      busy := false, done := true, err := .none, errInfo := .none
      r0 := enc32 g, r1 := enc32 x, r2 := enc32 y } := by
  have hbody : bodyOf .egcd s.params s.latch.ops s.dmem =
      finish s.params s.latch.ops none none [(.r0, g), (.r1, x), (.r2, y)] := by
    simp only [bodyOf, egcdBody, decide_eq_true ha, decide_eq_true hb, need_true, h]
    rfl
  rw [exec_eq_complete, hbody, finish_regs (by simp [fits32_of_abs_le, *])]
  rfl

/-- MODINV on operands in its domain, where the inverse exists and fits (R143). -/
theorem exec_modinv {s : State} {r : Int} (hok : paramsOk .modinv s)
    (h : modinv (s32 s.latch.ops.sa) s.latch.ops.modulus = .ok r) (hr : |r| ≤ 2147483647) :
    exec .modinv s = .next { s with
      busy := false, done := true, err := .none, errInfo := .none, r0 := enc32 r } := by
  obtain ⟨hm, ha⟩ : 1 ≤ s.latch.ops.modulus ∧
    (s.latch.ops.modulus = 2 ∨ -s.latch.ops.modulus ≤ s32 s.latch.ops.sa) := hok
  have hbody : bodyOf .modinv s.params s.latch.ops s.dmem =
      finish s.params s.latch.ops none none [(.r0, r)] := by
    simp only [bodyOf, modinvBody, needMod, decide_eq_true hm, ← Bool.decide_or, decide_eq_true ha,
      need_true, h]
    rfl
  rw [exec_eq_complete, hbody, finish_regs (by simp [fits32_of_abs_le, *])]
  rfl

/-- Settles O39: by `egcd_bounds` the results fit, so EGCD writes them. -/
theorem egcdWritesGcdAndBezoutPair : Obligations.EgcdWritesGcdAndBezoutPair := by
  intro s ha hb
  obtain ⟨⟨g, x, y⟩, h⟩ :
    ∃ r, egcd (s32 s.latch.ops.sa).toNat (s32 s.latch.ops.sb).toNat = r := ⟨_, rfl⟩
  obtain ⟨hgcd, hbezout⟩ := egcd_bezout h
  obtain ⟨hx, hy⟩ := egcd_bounds h
  rw [← Int.gcd_natCast_natCast] at hgcd
  rw [Int.toNat_of_nonneg ha, Int.toNat_of_nonneg hb] at hgcd hbezout
  rw [Int.toNat_of_nonneg hb] at hx
  rw [Int.toNat_of_nonneg ha] at hy
  have hfit {v : Int} {w : Word} (hv : |v| ≤ max 1 (s32 w)) : |v| ≤ 2147483647 :=
    hv.trans (max_le (by decide) (s32_le w))
  have hg : |g| ≤ 2147483647 := by
    rw [hgcd, Nat.abs_cast]
    rcases ha.eq_or_lt with hzero | hpos
    · rw [← hzero, Int.gcd_zero_left, Int.natAbs_of_nonneg hb]
      exact s32_le _
    · exact (Int.gcd_le_left _ hpos).trans (s32_le _)
  subst hgcd
  refine ⟨x, y, h, hbezout, hx, hy, _, exec_egcd ha hb h hg (hfit hx) (hfit hy), rfl, ?_⟩
  exact ⟨s32_enc32_of_abs_le hg, s32_enc32_of_abs_le (hfit hx), s32_enc32_of_abs_le (hfit hy)⟩

/-- Settles O40: for m = 2 the answer is 1; otherwise it is the inverse of `modinv_of_coprime`, which
is below m and so fits. -/
theorem modinvWritesTheInverse : Obligations.ModinvWritesTheInverse := by
  refine fun s hok => ⟨fun hm2 => ?_, fun hm2 hgcd => ?_⟩
  · exact exec_modinv hok (by rw [Operands.modulus, hm2]; rfl) (by decide)
  · have ⟨hm, ha⟩ := hok
    obtain ⟨r, h, hr0, hrm, hinv⟩ := modinv_of_coprime hm hm2 (ha.resolve_left hm2) hgcd
    have hfit : |r| ≤ 2147483647 := by
      have := s32_le s.latch.ops.mod
      rw [abs_of_nonneg hr0]
      omega
    refine ⟨_, exec_modinv hok h hfit, rfl, ?_⟩
    simp only [s32_enc32_of_abs_le hfit]
    exact ⟨hr0, hrm, hinv⟩

end Sys2Proof.Machine
end

section
/-! SUPPORT. The coefficients of a sequence (00_scope.md R13): what each function of
41_polyring.md does to them, and that a trimmed sequence, a sequence of known length and a sequence
of residues are determined by them. -/

namespace Sys2Proof.Machine

open Sys2Proof

/-! ### Coefficients -/

theorem coef_of_length_le {p : Poly} {k : Nat} (h : p.length ≤ k) : coef p k = 0 :=
  List.getD_eq_default _ _ (by simpa using h)

@[simp] theorem coef_nil (k : Nat) : coef [] k = 0 := rfl

theorem coef_append (p q : Poly) (k : Nat) :
    coef (p ++ q) k = if k < q.length then coef q k else coef p (k - q.length) := by
  unfold coef
  rw [List.reverse_append]
  split
  · exact List.getD_append _ _ _ _ (by simpa)
  · rw [List.getD_append_right _ _ _ _ (by simp; omega), List.length_reverse]

theorem coef_cons (c : Int) (p : Poly) (k : Nat) :
    coef (c :: p) k = if k = p.length then c else coef p k := by
  rw [← List.singleton_append, coef_append]
  rcases lt_trichotomy k p.length with h | rfl | h
  · rw [if_pos h, if_neg h.ne]
  · simp [coef]
  · rw [if_neg h.not_gt, if_neg h.ne', coef_of_length_le h.le, coef_of_length_le (by simp; omega)]

/-- The coefficients of a sequence are its elements, the constant term last (R13). -/
theorem coef_of_lt {p : Poly} {k : Nat} (h : k < p.length) :
    coef p k = p[p.length - 1 - k]'(by omega) := by
  rw [coef, List.getD_eq_getElem _ _ (by simpa using h), List.getElem_reverse]

theorem coef_mem {p : Poly} {k : Nat} (h : k < p.length) : coef p k ∈ p := by
  rw [coef_of_lt h]
  exact List.getElem_mem _

theorem coef_map {f : Int → Int} (hf : f 0 = 0) (p : Poly) (k : Nat) :
    coef (p.map f) k = f (coef p k) := by
  unfold coef
  rw [← List.map_reverse]
  conv_lhs => rw [← hf]
  exact List.getD_map ..

theorem coef_zipWith {f : Int → Int → Int} (hf : f 0 0 = 0) {p q : Poly}
    (h : p.length = q.length) (k : Nat) :
    coef (List.zipWith f p q) k = f (coef p k) (coef q k) := by
  rcases lt_or_ge k p.length with hk | hk
  · rw [coef_of_lt (by simp; omega), coef_of_lt hk, coef_of_lt (by omega)]
    simp [← h]
  · rw [coef_of_length_le hk, coef_of_length_le (p := q) (by omega), hf,
      coef_of_length_le (by simp; omega)]

@[simp] theorem coef_replicate_zero (n k : Nat) : coef (List.replicate n 0) k = 0 := by
  simp [coef]

@[simp] theorem coef_replicate_zero_append (n : Nat) (p : Poly) (k : Nat) :
    coef (List.replicate n 0 ++ p) k = coef p k := by
  rw [coef_append]
  split
  · rfl
  · rw [coef_replicate_zero, coef_of_length_le (by omega)]

@[simp] theorem coef_zext (p : Poly) (n k : Nat) : coef (zext p n) k = coef p k :=
  coef_replicate_zero_append _ _ _

@[simp] theorem coef_trim (p : Poly) (k : Nat) : coef (trim p) k = coef p k := by
  conv_rhs => rw [eq_replicate_append_trim p, coef_replicate_zero_append]

@[simp] theorem coef_polyAdd (p q : Poly) (k : Nat) :
    coef (polyAdd p q) k = coef p k + coef q k := by
  rw [polyAdd, coef_trim, coef_zipWith (add_zero 0) (by simp), coef_zext, coef_zext]

@[simp] theorem coef_polySub (p q : Poly) (k : Nat) :
    coef (polySub p q) k = coef p k - coef q k := by
  rw [polySub, coef_trim, coef_zipWith (sub_zero 0) (by simp), coef_zext, coef_zext]

@[simp] theorem coef_pmod (p : Poly) (m : Int) (k : Nat) : coef (pmod p m) k = coef p k % m :=
  coef_map (Int.zero_emod m) p k

/-! ### Sequences with the same coefficients -/

theorem eq_of_length_of_coef {p q : Poly} (hlen : p.length = q.length)
    (h : ∀ k < p.length, coef p k = coef q k) : p = q := by
  refine List.reverse_injective (List.ext_getElem (by simpa) fun k hp hq => ?_)
  have hk := h k (by simpa using hp)
  rwa [coef, coef, List.getD_eq_getElem _ _ hp, List.getD_eq_getElem _ _ hq] at hk

/-- The degree of a trimmed sequence: its leading element is not 0. -/
theorem length_le_of_coef {p : Poly} {n : Nat} (hp : p.head? ≠ some 0)
    (h : ∀ k, n ≤ k → coef p k = 0) : p.length ≤ n := by
  cases p with
  | nil => simp
  | cons c p =>
    by_contra hn
    have hlead := h p.length (by simpa using hn)
    rw [coef_cons, if_pos rfl] at hlead
    exact hp (by rw [hlead]; rfl)

/-- Trimmed sequences with the same coefficients are the same. -/
theorem eq_of_coef {p q : Poly} (hp : p.head? ≠ some 0) (hq : q.head? ≠ some 0)
    (h : ∀ k, coef p k = coef q k) : p = q :=
  eq_of_length_of_coef
    (le_antisymm (length_le_of_coef hp fun k hk => (h k).trans (coef_of_length_le hk))
      (length_le_of_coef hq fun k hk => (h k).symm.trans (coef_of_length_le hk)))
    fun k _ => h k

theorem polyAdd_head (p q : Poly) : (polyAdd p q).head? ≠ some 0 := trim_head _

theorem polySub_head (p q : Poly) : (polySub p q).head? ≠ some 0 := trim_head _

/-- Settles O55: each side is trimmed, and the coefficients agree. -/
theorem addUndoesSub : Obligations.AddUndoesSub := by
  refine fun p q => ⟨eq_of_coef (polyAdd_head _ _) (trim_head _) fun k => ?_,
    eq_of_coef (polySub_head _ _) (trim_head _) fun k => ?_,
    eq_of_coef (trim_head _) (trim_head _) fun k => ?_⟩
  · simp
  · simp
  · simp

theorem sumOf_coef {sign : Int} {p q d : Poly} (h : SumOf sign p q d) (k : Nat) :
    coef d k = coef p k + sign * coef q k := by
  obtain ⟨-, hlen, hcoef⟩ := h
  rcases lt_or_ge k (max p.length q.length) with hk | hk
  · exact hcoef k hk
  · simp [coef_of_length_le (hlen.trans hk), coef_of_length_le ((le_max_left _ _).trans hk),
      coef_of_length_le ((le_max_right _ _).trans hk)]

/-- The sum of R162 is the only one. -/
theorem polyAdd_unique {p q d : Poly} (h : SumOf 1 p q d) : polyAdd p q = d :=
  eq_of_coef (polyAdd_head p q) h.1 fun k => by simp [sumOf_coef h]

/-- The difference of R164 is the only one. -/
theorem polySub_unique {p q d : Poly} (h : SumOf (-1) p q d) : polySub p q = d :=
  eq_of_coef (polySub_head p q) h.1 fun k => by simp [sumOf_coef h, sub_eq_add_neg]

/-! ### Residues -/

theorem residuesOf_pmod {m : Int} (hm : 1 ≤ m) (p : Poly) :
    ResiduesOf m 0 (m - 1) p (pmod p m) := by
  refine ⟨length_pmod p m, fun v hv => mem_pmod hm hv, fun i hi => ?_⟩
  rw [pmod, List.getD_eq_getElem _ _ (by simpa), List.getD_eq_getElem _ _ hi, List.getElem_map,
    ← Int.emod_eq_emod_iff_emod_sub_eq_zero]
  exact Int.emod_emod _ m

theorem residuesOf_bmod {m : Int} (hm : 1 ≤ m) (p : Poly) :
    ResiduesOf m (-(m / 2)) (m - 1 - m / 2) p (bmod p m) := by
  refine ⟨length_bmod p m, fun v hv => ?_, fun i hi => ?_⟩
  · obtain ⟨c, -, rfl⟩ := List.mem_map.1 hv
    exact ⟨(bmod1_spec hm c).1, (bmod1_spec hm c).2.1⟩
  · rw [bmod, List.getD_eq_getElem _ _ (by simpa), List.getD_eq_getElem _ _ hi, List.getElem_map]
    exact (bmod1_spec hm _).2.2

theorem eq_of_emod_sub_eq_zero {m lo hi u v : Int} (hrange : hi < lo + m) (hu : lo ≤ u ∧ u ≤ hi)
    (hv : lo ≤ v ∧ v ≤ hi) (h : (u - v) % m = 0) : u = v := by
  have := Int.eq_zero_of_abs_lt_dvd (Int.dvd_of_emod_eq_zero h) (abs_lt.2 ⟨by omega, by omega⟩)
  omega

/-- In a range of m integers the residues modulo m are unique. -/
theorem residuesOf_unique {m lo hi : Int} (hrange : hi < lo + m) {p d d' : Poly}
    (h : ResiduesOf m lo hi p d) (h' : ResiduesOf m lo hi p d') : d = d' := by
  obtain ⟨hlen, hmem, hmod⟩ := h
  obtain ⟨hlen', hmem', hmod'⟩ := h'
  refine List.ext_getElem (hlen.trans hlen'.symm) fun i hi hi' => ?_
  refine eq_of_emod_sub_eq_zero hrange (hmem _ (List.getElem_mem hi))
    (hmem' _ (List.getElem_mem hi')) ?_
  have hd := Int.dvd_of_emod_eq_zero (hmod i (hlen ▸ hi))
  have hd' := Int.dvd_of_emod_eq_zero (hmod' i (hlen ▸ hi))
  rw [List.getD_eq_getElem _ _ hi] at hd
  rw [List.getD_eq_getElem _ _ hi'] at hd'
  exact Int.emod_eq_zero_of_dvd (by simpa using dvd_sub hd hd')

end Sys2Proof.Machine
end

section
/-! SUPPORT. The commands TRIM, ADD, SUB and PMOD (41_polyring.md R160 to R165, R168, R169) and BMOD
(43_balanced.md R231): the result the rules give is the only one, so it is what the body
delivers. -/

namespace Sys2Proof.Machine

open Sys2Proof

/-! ### Commands that deliver one sequence -/

/-- A command whose body comes down to `Finish` on one sequence that fits and has room delivers it
(R61, R124). -/
theorem exec_delivers {i : Instr} {s : State} {d : Poly}
    (hbody : bodyOf i s.params s.latch.ops s.dmem = finish s.params s.latch.ops (some d) none [])
    (hfit : AllFit d) (hroom : DestFits s .d d.length) :
    ∃ t, exec i s = .next t ∧ Delivered s t d := by
  refine ⟨_, ?_, commit_delivers hfit⟩
  rw [exec_eq_complete, hbody, finish_d hfit hroom, complete_ok]

section

variable {s : State} {d : Poly}

theorem bodyOf_trim (h : Yields .trim s d) :
    bodyOf .trim s.params s.latch.ops s.dmem = finish s.params s.latch.ops (some d) none [] := by
  obtain ⟨-, p, hp, hd⟩ := h
  rw [bodyOf, trimBody, readSrc_of_sourceIs hp, ← trim_unique hd]
  rfl

theorem bodyOf_add (h : Yields .add s d) :
    bodyOf .add s.params s.latch.ops s.dmem = finish s.params s.latch.ops (some d) none [] := by
  obtain ⟨-, p, q, hp, hq, hd⟩ := h
  rw [bodyOf, addBody, readSrcs_of_sourceIs hp hq, ← polyAdd_unique hd]
  rfl

theorem bodyOf_sub (h : Yields .sub s d) :
    bodyOf .sub s.params s.latch.ops s.dmem = finish s.params s.latch.ops (some d) none [] := by
  obtain ⟨-, p, q, hp, hq, hd⟩ := h
  rw [bodyOf, subBody, readSrcs_of_sourceIs hp hq, ← polySub_unique hd]
  rfl

theorem needMod_ok {o : Operands} {lo : Int} (h : lo ≤ s32 o.mod) : needMod o lo = .ok () := by
  rw [needMod, Operands.modulus, decide_eq_true h, need_true]

theorem bodyOf_pmod (h : Yields .pmod s d) :
    bodyOf .pmod s.params s.latch.ops s.dmem = finish s.params s.latch.ops (some d) none [] := by
  obtain ⟨hm, p, hp, hd⟩ := h
  rw [bodyOf, pmodBody, needMod_ok hm, readSrc_of_sourceIs hp,
    residuesOf_unique (by omega) hd (residuesOf_pmod hm p)]
  rfl

theorem bodyOf_bmod (h : Yields .bmod s d) :
    bodyOf .bmod s.params s.latch.ops s.dmem = finish s.params s.latch.ops (some d) none [] := by
  obtain ⟨hm, p, hp, hd⟩ := h
  rw [bodyOf, bmodBody, needMod_ok hm, readSrc_of_sourceIs hp,
    residuesOf_unique (by omega) hd (residuesOf_bmod hm p)]
  rfl

end

/-- Settles O41: the trimmed source, sum or difference is the only one, so it is what the body
delivers. -/
theorem trimAddSubWriteTheTrimmedResult : Obligations.TrimAddSubWriteTheTrimmedResult := by
  rintro i s d (rfl | rfl | rfl) hyields hfit hroom
  · exact exec_delivers (bodyOf_trim hyields) hfit hroom
  · exact exec_delivers (bodyOf_add hyields) hfit hroom
  · exact exec_delivers (bodyOf_sub hyields) hfit hroom

/-- Residues of either kind fit, since the modulus is an `s32` word. -/
theorem allFit_of_range {w : Word} {lo hi : Int} (hlo : -s32 w ≤ lo) (hhi : hi ≤ s32 w) {d : Poly}
    (h : ∀ v ∈ d, lo ≤ v ∧ v ≤ hi) : AllFit d := by
  intro v hv
  have hw := s32_le w
  have hrange := h v hv
  omega

/-- Settles O43: the residues are unique in their range, so they are what the body delivers. -/
theorem pmodBmodWriteTheirResidues : Obligations.PmodBmodWriteTheirResidues := by
  rintro i s d (rfl | rfl) hyields hroom
  · have ⟨_, _, _, _, hrange, _⟩ := hyields
    have hm : 1 ≤ s32 s.latch.ops.mod := hyields.1
    exact exec_delivers (bodyOf_pmod hyields)
      (allFit_of_range (w := s.latch.ops.mod) (by omega) (by omega) hrange) hroom
  · have ⟨_, _, _, _, hrange, _⟩ := hyields
    have hm : 1 ≤ s32 s.latch.ops.mod := hyields.1
    exact exec_delivers (bodyOf_bmod hyields)
      (allFit_of_range (w := s.latch.ops.mod) (by omega) (by omega) hrange) hroom

end Sys2Proof.Machine
end

section
/-! SUPPORT. The ring product and CONV (41_polyring.md R166, R167): the product and fold that
`convN` computes have the sum of R166 for their coefficients. -/

namespace Sys2Proof.Machine

open Sys2Proof

/-! ### Weighted sums

Each function on sequences with the constant term first acts on the weighted sums of its arguments
by one simple rule, and the coefficients of R166 are weighted sums. -/

/-- The sum of the elements of a sequence, element i taken `w i` times (`weigh_eq_sum`). -/
def weigh : (Nat → Int) → List Int → Int
  | _, [] => 0
  | w, a :: p => w 0 * a + weigh (fun i => w (i + 1)) p

theorem weigh_eq_sum (w : Nat → Int) (p : List Int) :
    weigh w p = ∑ i ∈ Finset.range p.length, w i * p.getD i 0 := by
  induction p generalizing w with
  | nil => rfl
  | cons a p ih =>
    rw [weigh, ih, List.length_cons, Finset.sum_range_succ', add_comm]
    simp

theorem weigh_congr {w w' : Nat → Int} {p : List Int} (h : ∀ i < p.length, w i = w' i) :
    weigh w p = weigh w' p := by
  rw [weigh_eq_sum, weigh_eq_sum]
  exact Finset.sum_congr rfl fun i hi => by rw [h i (Finset.mem_range.1 hi)]

/-- Weighing with the indicator of position k picks element k. -/
theorem weigh_indicator (k : Nat) (p : List Int) :
    weigh (fun i => if i = k then 1 else 0) p = p.getD k 0 := by
  rw [weigh_eq_sum]
  simp only [ite_mul, one_mul, zero_mul, Finset.sum_ite_eq', Finset.mem_range]
  exact ite_eq_left_iff.2 fun h => (List.getD_eq_default _ _ (not_lt.1 h)).symm

theorem weigh_append (w : Nat → Int) (p q : List Int) :
    weigh w (p ++ q) = weigh w p + weigh (fun i => w (i + p.length)) q := by
  induction p generalizing w with
  | nil => simp [weigh]
  | cons a p ih => simp [weigh, ih, add_assoc]

theorem weigh_lowAdd (w : Nat → Int) (p q : List Int) :
    weigh w (lowAdd p q) = weigh w p + weigh w q := by
  induction p generalizing w q with
  | nil => simp [lowAdd, weigh]
  | cons a p ih =>
    cases q with
    | nil => simp [lowAdd, weigh]
    | cons b q =>
      rw [lowAdd, weigh, weigh, weigh, ih]
      ring

theorem weigh_map_mul (w : Nat → Int) (c : Int) (p : List Int) :
    weigh w (p.map (fun b => c * b)) = c * weigh w p := by
  induction p generalizing w with
  | nil => simp [weigh]
  | cons b p ih =>
    rw [List.map_cons, weigh, weigh, ih]
    ring

/-- The ordinary product, weighed: the sum over the pairs of positions. -/
theorem weigh_lowMul (w : Nat → Int) (p q : List Int) :
    weigh w (lowMul p q) = weigh (fun i => weigh (fun j => w (i + j)) q) p := by
  induction p generalizing w with
  | nil => rfl
  | cons a p ih =>
    rw [lowMul, weigh_lowAdd, weigh_map_mul, weigh, weigh, ih]
    simp only [zero_add, Nat.add_right_comm _ 1]
    ring

/-- The fold of R166: a coefficient below n is the sum over the positions congruent to it. -/
theorem getD_lowFold {n fuel : Nat} {p : List Int} (hfuel : p.length ≤ fuel) {k : Nat}
    (hk : k < n) :
    (lowFold n fuel p).getD k 0 = weigh (fun i => if i % n = k then 1 else 0) p := by
  induction fuel generalizing p with
  | zero =>
    obtain rfl := List.length_eq_zero_iff.1 (Nat.le_zero.1 hfuel)
    simp [lowFold, weigh]
  | succ fuel ih =>
    cases p with
    | nil => simp [lowFold, weigh]
    | cons a p =>
      rw [lowFold, if_neg (by simp), ← weigh_indicator, weigh_lowAdd,
        weigh_indicator k (lowFold ..), ih (by simp at hfuel ⊢; omega)]
      conv_rhs => rw [← List.take_append_drop n (a :: p), weigh_append]
      congr 1
      · refine weigh_congr fun i hi => ?_
        rw [Nat.mod_eq_of_lt (by simp at hi; omega)]
      · refine weigh_congr fun i hi => ?_
        have : (List.take n (a :: p)).length = n := by simp at hi ⊢; omega
        rw [this, Nat.add_mod_right]

/-! ### The ring product (R166) -/

/-- `convN` computes the sum of R166. -/
theorem coef_convN {n : Nat} (p q : Poly) {k : Nat} (hk : k < n) :
    coef (convN n p q) k = ringCoef n p q k := by
  rw [coef, convN, List.reverse_reverse, getD_lowFold le_rfl hk, weigh_lowMul, weigh_eq_sum,
    List.length_reverse, ringCoef]
  refine Finset.sum_congr rfl fun i _ => ?_
  rw [weigh_eq_sum, List.length_reverse, Finset.sum_mul]
  refine Finset.sum_congr rfl fun j _ => ?_
  rw [ite_mul, ite_mul, one_mul, zero_mul, zero_mul, mul_comm]
  rfl

theorem ringCoef_comm (n : Nat) (p q : Poly) (k : Nat) : ringCoef n p q k = ringCoef n q p k := by
  rw [ringCoef, Finset.sum_comm, ringCoef]
  simp only [add_comm, mul_comm]

/-- The product of R166 is the only one. -/
theorem convN_unique {n : Nat} {p q d : Poly} (h : RingProductOf n p q d) :
    convN n p q = d :=
  eq_of_length_of_coef ((length_convN n p q).trans h.1.symm) fun k hk => by
    rw [length_convN] at hk
    rw [coef_convN p q hk, h.2 k hk]

/-- Settles O54: both products have n coefficients, the sums of R166, which are symmetric. -/
theorem ringProductIsCommutative : Obligations.RingProductIsCommutative :=
  fun n p q _ => convN_unique ⟨length_convN n q p, fun k hk => by
    rw [coef_convN q p hk, ringCoef_comm]⟩

theorem needN_ok {s : State} (h : DegreeOk s) : needN s.params s.latch.ops = .ok () := by
  rw [needN, Operands.degree, decide_eq_true h.1, decide_eq_true h.2, Bool.and_true, need_true]

theorem bodyOf_conv {s : State} {d : Poly} (h : Yields .conv s d) :
    bodyOf .conv s.params s.latch.ops s.dmem = finish s.params s.latch.ops (some d) none [] := by
  obtain ⟨hn, p, q, hp, hq, hd⟩ := h
  rw [bodyOf, convBody, needN_ok hn, readSrcs_of_sourceIs hp hq, ← convN_unique hd]
  rfl

/-- Settles O42: the product of R166 is the only one, so it is what the body delivers. -/
theorem convWritesTheRingProduct : Obligations.ConvWritesTheRingProduct :=
  fun _ _ hyields hfit hroom => exec_delivers (bodyOf_conv hyields) hfit hroom

end Sys2Proof.Machine
end

section
/-! SUPPORT. Sequences as polynomials over Z/mZ, where the identities of R171 hold, and the
uniqueness of quotient and remainder there. -/

namespace Sys2Proof.Machine

open Sys2Proof

/-! ### Sequences as polynomials over Z/mZ -/

/-- The polynomial over Z/mZ that a sequence denotes (R13). -/
noncomputable def polyMod (m : Nat) (v : Poly) : Polynomial (ZMod m) :=
  ∑ i ∈ Finset.range v.length, Polynomial.monomial i (coef v i : ZMod m)

section

variable {m : Nat}

@[simp] theorem coeff_polyMod (v : Poly) (k : Nat) :
    (polyMod m v).coeff k = (coef v k : ZMod m) := by
  rw [polyMod, Polynomial.finsetSum_coeff]
  simp only [Polynomial.coeff_monomial, Finset.sum_ite_eq', Finset.mem_range]
  refine ite_eq_left_iff.2 fun h => ?_
  rw [coef_of_length_le (not_lt.1 h), Int.cast_zero]

@[simp] theorem polyMod_nil : polyMod m [] = 0 := rfl

@[simp] theorem polyMod_replicate_zero (n : Nat) : polyMod m (List.replicate n 0) = 0 := by
  ext k
  simp

@[simp] theorem polyMod_trim (v : Poly) : polyMod m (trim v) = polyMod m v := by
  ext k
  simp

@[simp] theorem polyMod_pmod (v : Poly) : polyMod m (pmod v m) = polyMod m v := by
  ext k
  simp

@[simp] theorem polyMod_polySub (u v : Poly) :
    polyMod m (polySub u v) = polyMod m u - polyMod m v := by
  ext k
  simp

theorem coef_map_append_zeros (c : Int) (v : Poly) (n k : Nat) :
    coef (v.map (fun x => c * x) ++ List.replicate n 0) k =
      if n ≤ k then c * coef v (k - n) else 0 := by
  rw [coef_append, List.length_replicate, coef_replicate_zero, coef_map (mul_zero c)]
  simp only [← not_lt, ite_not]

/-- Scaling by c and appending n zeros is the product with c * X^n. -/
theorem polyMod_map_append_zeros (c : Int) (v : Poly) (n : Nat) :
    polyMod m (v.map (fun x => c * x) ++ List.replicate n 0) =
      Polynomial.monomial n (c : ZMod m) * polyMod m v := by
  ext k
  rw [coeff_polyMod, coef_map_append_zeros, ← Polynomial.C_mul_X_pow_eq_monomial, mul_assoc,
    Polynomial.coeff_C_mul, Polynomial.coeff_X_pow_mul', coeff_polyMod]
  split
  · push_cast; rfl
  · simp

theorem coef_set {v : Poly} {d : Nat} (hd : d < v.length) (c : Int) (k : Nat) :
    coef (v.set (v.length - 1 - d) c) k = if k = d then c else coef v k := by
  rcases lt_or_ge k v.length with hk | hk
  · rw [coef_of_lt (by simpa), coef_of_lt hk, List.getElem_set]
    simp only [List.length_set]
    exact if_congr (by omega) rfl rfl
  · rw [coef_of_length_le (by simpa), coef_of_length_le hk, if_neg (by omega)]

/-- Setting a zero coefficient adds a monomial. -/
theorem polyMod_set {v : Poly} {d : Nat} (hd : d < v.length) (hzero : coef v d = 0) (c : Int) :
    polyMod m (v.set (v.length - 1 - d) c) =
      polyMod m v + Polynomial.monomial d (c : ZMod m) := by
  ext k
  rw [coeff_polyMod, coef_set hd, Polynomial.coeff_add, coeff_polyMod, Polynomial.coeff_monomial]
  by_cases hk : k = d
  · simp [hk, hzero]
  · simp [hk, Ne.symm hk]

theorem coeff_polyMod_mul (u v : Poly) (k : Nat) :
    (polyMod m u * polyMod m v).coeff k = (prodCoef u v k : ZMod m) := by
  simp only [polyMod, Finset.sum_mul_sum, Polynomial.monomial_mul_monomial,
    Polynomial.finsetSum_coeff, Polynomial.coeff_monomial, prodCoef]
  push_cast
  rfl

theorem degree_polyMod_lt {v : Poly} {e : Nat} (h : v.length ≤ e) : (polyMod m v).degree < e := by
  refine (Polynomial.degree_lt_iff_coeff_zero _ _).2 fun k hk => ?_
  rw [coeff_polyMod, coef_of_length_le (h.trans hk), Int.cast_zero]

theorem prodCoef_of_length_le {u v : Poly} {k : Nat} (h : u.length + v.length ≤ k) :
    prodCoef u v k = 0 :=
  Finset.sum_eq_zero fun i hi => Finset.sum_eq_zero fun j hj =>
    if_neg (by rw [Finset.mem_range] at hi hj; omega)

/-- A trimmed sequence of residues: the form in which R170 leaves quotient and remainder. -/
structure Reduced (m : Nat) (v : Poly) : Prop where
  trimmed : v.head? ≠ some 0
  range : ∀ c ∈ v, 0 ≤ c ∧ c ≤ (m : Int) - 1

theorem mem_of_mem_trim {v : Poly} {c : Int} (h : c ∈ trim v) : c ∈ v := by
  rw [eq_replicate_append_trim v]
  exact List.mem_append_right _ h

theorem reduced_trim_pmod (hm : 1 ≤ m) (v : Poly) : Reduced m (trim (pmod v m)) :=
  ⟨trim_head _, fun _ hc => mem_pmod (by omega) (mem_of_mem_trim hc)⟩

theorem Reduced.coef_range {v : Poly} (h : Reduced m v) (hm : 1 ≤ m) (k : Nat) :
    0 ≤ coef v k ∧ coef v k ≤ (m : Int) - 1 := by
  rcases lt_or_ge k v.length with hk | hk
  · exact h.range _ (coef_mem hk)
  · rw [coef_of_length_le hk]
    omega

theorem cast_eq_zero_of_emod {a : Int} (h : a % m = 0) : (a : ZMod m) = 0 :=
  (ZMod.intCast_zmod_eq_zero_iff_dvd a m).2 (Int.dvd_of_emod_eq_zero h)

/-- A polynomial over Z/mZ has one trimmed sequence of residues. -/
theorem Reduced.eq_of_polyMod {u v : Poly} (hm : 1 ≤ m) (hu : Reduced m u) (hv : Reduced m v)
    (h : polyMod m u = polyMod m v) : u = v := by
  refine eq_of_coef hu.trimmed hv.trimmed fun k => ?_
  have hk := congrArg (Polynomial.coeff · k) h
  simp only [coeff_polyMod] at hk
  exact eq_of_emod_sub_eq_zero (by omega) (hu.coef_range hm k) (hv.coef_range hm k)
    (Int.emod_eq_emod_iff_emod_sub_eq_zero.1 ((ZMod.intCast_eq_intCast_iff _ _ m).1 hk))

/-! ### Uniqueness of the division (R171) -/

/-- Quotient and remainder by a polynomial of degree e with a unit for its leading coefficient are
unique, over any commutative ring. -/
theorem division_unique {R : Type} [CommRing R] [Nontrivial R] {G Q Q' A A' : Polynomial R}
    {e : Nat} (htop : ∀ k, e < k → G.coeff k = 0) (hunit : IsUnit (G.coeff e))
    (hA : A.degree < e) (hA' : A'.degree < e) (h : Q * G + A = Q' * G + A') : Q = Q' ∧ A = A' := by
  have hnat : G.natDegree = e :=
    Polynomial.natDegree_eq_of_le_of_coeff_ne_zero
      (Polynomial.natDegree_le_iff_coeff_eq_zero.2 htop) hunit.ne_zero
  have hdegree : G.degree = e := by
    rw [Polynomial.degree_eq_natDegree fun h0 => hunit.ne_zero (by simp [h0]), hnat]
  have hdiff : (Q - Q') * G = A' - A := by linear_combination h
  have hQ : Q - Q' = 0 := by
    by_contra hne
    have hlt : ((Q - Q') * G).degree < e := by
      rw [hdiff]
      exact (Polynomial.degree_sub_le _ _).trans_lt (max_lt hA' hA)
    have hlead : (Q - Q').leadingCoeff * G.leadingCoeff ≠ 0 := by
      rw [Polynomial.leadingCoeff, Polynomial.leadingCoeff, hnat, ne_eq, hunit.mul_left_eq_zero]
      exact Polynomial.leadingCoeff_ne_zero.2 hne
    rw [Polynomial.degree_mul' hlead, hdegree, Polynomial.degree_eq_natDegree hne] at hlt
    exact absurd hlt (by simp [← Nat.cast_add])
  refine ⟨sub_eq_zero.1 hQ, ?_⟩
  rw [hQ, zero_mul] at hdiff
  exact (sub_eq_zero.1 hdiff.symm).symm

end

end Sys2Proof.Machine
end

section
/-! SUPPORT. DIVP (41_polyring.md R170 to R172): the loop keeps the identity that makes its result a
quotient and a remainder, and they are unique, so they are what the body delivers. -/

namespace Sys2Proof.Machine

open Sys2Proof

/-! ### The division loop (R170) -/

/-- The digit of the quotient that a pass of the loop finds. -/
def divDigit (inv p : Int) (r : Poly) : Int := r.headD 0 * inv % p

/-- The remainder after a pass of the loop. -/
def divRem (g : Poly) (inv p : Int) (r : Poly) : Poly :=
  trim (pmod (polySub r (g.map (fun c => divDigit inv p r * c) ++
    List.replicate (r.length - g.length) 0)) p)

theorem divLoop_pass {g r : Poly} (h : g.length ≤ r.length) (inv p : Int) (k fuel : Nat)
    (q : Poly) :
    divLoop g inv p k (fuel + 1) q r =
      divLoop g inv p k fuel (q.set (k - 1 - (r.length - g.length)) (divDigit inv p r))
        (divRem g inv p r) := by
  rw [divLoop, if_pos h]
  rfl

theorem divLoop_done {g r : Poly} (h : r.length < g.length) (inv p : Int) (k fuel : Nat)
    (q : Poly) :
    divLoop g inv p k fuel q r = (q, r) := by
  cases fuel with
  | zero => rfl
  | succ fuel => rw [divLoop, if_neg h.not_ge]

theorem coef_length_pred (v : Poly) : coef v (v.length - 1) = v.headD 0 := by
  cases v with
  | nil => rfl
  | cons c v => simp [coef_cons]

theorem coef_divRem (g : Poly) (inv p : Int) (r : Poly) (k : Nat) :
    coef (divRem g inv p r) k = (coef r k - if r.length - g.length ≤ k then
      divDigit inv p r * coef g (k - (r.length - g.length)) else 0) % p := by
  rw [divRem, coef_trim, coef_pmod, coef_polySub, coef_map_append_zeros]

theorem divDigit_mul_head {g0 inv p : Int} (hinv : (g0 * inv - 1) % p = 0) (r : Poly) :
    divDigit inv p r * g0 ≡ r.headD 0 [ZMOD p] := by
  have hunit : g0 * inv ≡ 1 [ZMOD p] := Int.emod_eq_emod_iff_emod_sub_eq_zero.2 hinv
  calc divDigit inv p r * g0 ≡ r.headD 0 * inv * g0 [ZMOD p] := (Int.mod_modEq _ p).mul_right g0
    _ = r.headD 0 * (g0 * inv) := by ring
    _ ≡ r.headD 0 * 1 [ZMOD p] := hunit.mul_left _
    _ = r.headD 0 := mul_one _

/-- Each pass shortens the remainder (R171): its leading coefficient cancels. -/
theorem length_divRem_lt {g : Poly} {inv p : Int} (hg : 1 ≤ g.length)
    (hinv : (g.headD 0 * inv - 1) % p = 0) {r : Poly} (h : g.length ≤ r.length) :
    (divRem g inv p r).length < r.length := by
  suffices (divRem g inv p r).length ≤ r.length - 1 by omega
  refine length_le_of_coef (trim_head _) fun k hk => ?_
  rw [coef_divRem, if_pos (by omega)]
  rcases hk.eq_or_lt with rfl | hk
  · rw [show r.length - 1 - (r.length - g.length) = g.length - 1 by omega, coef_length_pred,
      coef_length_pred]
    exact Int.emod_eq_emod_iff_emod_sub_eq_zero.1 (divDigit_mul_head hinv r).symm
  · rw [coef_of_length_le (p := r) (by omega), coef_of_length_le (p := g) (by omega)]
    simp

/-- What every pass of the loop keeps: q * g + r, the form of q and r, and that q is filled from its
leading coefficient down. -/
structure DivInv (m : Nat) (g : Poly) (F : Polynomial (ZMod m)) (q r : Poly) : Prop where
  identity : polyMod m q * polyMod m g + polyMod m r = F
  remainder : Reduced m r
  range : ∀ c ∈ q, 0 ≤ c ∧ c ≤ (m : Int) - 1
  room : r.length < g.length + q.length
  unfilled : ∀ d, d + g.length ≤ r.length → coef q d = 0
  leading : q.head? ≠ some 0 ∨ r.length + 1 = g.length + q.length

/-- A sequence keeps its nonzero leading element unless that is the element that is set. -/
theorem head_set_ne_zero {q : Poly} {i : Nat} {c : Int} (hi : i < q.length) (hc : c ≠ 0)
    (h : i ≠ 0 → q.head? ≠ some 0) : (q.set i c).head? ≠ some 0 := by
  cases q with
  | nil => exact absurd hi (Nat.not_lt_zero i)
  | cons a q =>
    cases i with
    | zero => simpa using hc
    | succ i => exact h i.succ_ne_zero

section

variable {m : Nat} {g : Poly} {inv : Int} (hm : 2 ≤ m) (hg : 1 ≤ g.length)
  (hinv : (g.headD 0 * inv - 1) % (m : Int) = 0)

include hm hg hinv

theorem divDigit_ne_zero {r : Poly} (hr : Reduced m r) (h : g.length ≤ r.length) :
    divDigit inv m r ≠ 0 := by
  intro hzero
  have hhead := divDigit_mul_head hinv r
  rw [hzero, zero_mul] at hhead
  have hrange := hr.coef_range (by omega) (r.length - 1)
  rw [coef_length_pred] at hrange
  have : r.headD 0 = 0 := eq_of_emod_sub_eq_zero (by omega) hrange ⟨le_rfl, by omega⟩
    (Int.emod_eq_emod_iff_emod_sub_eq_zero.1 hhead.symm)
  cases r with
  | nil => rw [List.length_nil] at h; omega
  | cons c r => exact hr.trimmed (by simpa using this)

theorem DivInv.pass {F : Polynomial (ZMod m)} {q r : Poly} (h : DivInv m g F q r)
    (hlen : g.length ≤ r.length) :
    DivInv m g F (q.set (q.length - 1 - (r.length - g.length)) (divDigit inv m r))
      (divRem g inv m r) := by
  obtain ⟨hid, hr, hq, hroom, hunfilled, hlead⟩ := h
  have hshort := length_divRem_lt hg hinv hlen
  have hd : r.length - g.length < q.length := by omega
  have hdigit : 0 ≤ divDigit inv m r ∧ divDigit inv m r ≤ (m : Int) - 1 :=
    ⟨Int.emod_nonneg _ (by omega), Int.le_sub_one_of_lt (Int.emod_lt_of_pos _ (by omega))⟩
  refine ⟨?identity, reduced_trim_pmod (by omega) _, ?range, ?room, ?unfilled, .inl ?leading⟩
  case identity =>
    rw [polyMod_set hd (hunfilled _ (by omega)), divRem, polyMod_trim, polyMod_pmod,
      polyMod_polySub, polyMod_map_append_zeros, ← hid]
    ring
  case range =>
    intro c hc
    rcases List.mem_or_eq_of_mem_set hc with hc | rfl
    · exact hq c hc
    · exact hdigit
  case room =>
    rw [List.length_set]
    omega
  case unfilled =>
    intro d hd'
    rw [coef_set hd, if_neg (by omega)]
    exact hunfilled d (by omega)
  case leading =>
    exact head_set_ne_zero (by omega) (divDigit_ne_zero hm hg hinv hr hlen)
      fun hi => hlead.resolve_right (by omega)

/-- The loop ends, within its fuel, with a remainder shorter than the divisor (R171). -/
theorem divLoop_spec {F : Polynomial (ZMod m)} {q r : Poly} {fuel : Nat} (h : DivInv m g F q r)
    (hfuel : r.length < fuel) :
    ∃ q' r', divLoop g inv m q.length fuel q r = (q', r') ∧ DivInv m g F q' r' ∧
      r'.length < g.length ∧ q'.length = q.length := by
  induction fuel generalizing q r with
  | zero => omega
  | succ fuel ih =>
    rcases lt_or_ge r.length g.length with hlen | hlen
    · exact ⟨q, r, divLoop_done hlen .., h, hlen, rfl⟩
    · rw [divLoop_pass hlen]
      simpa using ih (h.pass hm hg hinv hlen) (by have := length_divRem_lt hg hinv hlen; omega)

end

/-! ### The division (R170, R171) -/

/-- `modinv` inverts every unit residue, for m = 2 too. -/
theorem modinv_of_unit {a m : Int} (hm : 2 ≤ m) (ha : 0 ≤ a) (hgcd : Int.gcd a m = 1) :
    ∃ r, modinv a m = .ok r ∧ (a * r - 1) % m = 0 := by
  by_cases hm2 : m = 2
  · subst hm2
    refine ⟨1, rfl, ?_⟩
    rcases Int.emod_two_eq a with heven | hodd
    · rw [← Int.gcd_emod, heven] at hgcd
      exact absurd hgcd (by decide)
    · omega
  · obtain ⟨r, h, -, -, hr⟩ := modinv_of_coprime (by omega) hm2 (by omega) hgcd
    exact ⟨r, h, by rwa [mul_comm]⟩

theorem divReduced_spec {m : Nat} (hm : 2 ≤ m) {f g : Poly} (hf : Reduced m f) (hg : 1 ≤ g.length)
    (hpos : 0 ≤ g.headD 0) (hgcd : Int.gcd (g.headD 0) m = 1) :
    ∃ q r, divReduced f g m = .ok (q, r) ∧ Reduced m q ∧ Reduced m r ∧ r.length < g.length ∧
      polyMod m q * polyMod m g + polyMod m r = polyMod m f := by
  obtain ⟨inv, hmodinv, hinv⟩ := modinv_of_unit (by omega) hpos hgcd
  obtain ⟨g0, gs, rfl⟩ := List.exists_cons_of_length_pos hg
  rw [List.headD_cons] at hmodinv
  simp only [divReduced, hmodinv]
  split
  · next hshort => exact ⟨[], f, rfl, ⟨nofun, nofun⟩, hf, hshort, by simp⟩
  · next hlong =>
    set k := f.length - (g0 :: gs).length + 1 with hk
    have hstart : DivInv m (g0 :: gs) (polyMod m f) (List.replicate k 0) f := by
      refine ⟨by simp, hf, fun c hc => ?_, ?_, fun _ _ => coef_replicate_zero _ _, .inr ?_⟩
      · rw [List.eq_of_mem_replicate hc]
        omega
      · rw [List.length_replicate]
        omega
      · rw [List.length_replicate]
        omega
    obtain ⟨q, r, hloop, h, hlen, hqlen⟩ := divLoop_spec hm hg hinv hstart f.length.lt_succ_self
    rw [List.length_replicate] at hloop hqlen
    exact ⟨q, r, by rw [hloop], ⟨h.leading.resolve_right (by omega), h.range⟩, h.remainder, hlen,
      h.identity⟩

theorem coef_emod_above {m : Int} {g : Poly} {e : Nat}
    (htop : ∀ k < g.length, e < k → coef g k % m = 0) {k : Nat} (hk : e < k) :
    coef g k % m = 0 := by
  rcases lt_or_ge k g.length with hlt | hge
  · exact htop k hlt hk
  · rw [coef_of_length_le hge, Int.zero_emod]

/-- The degree and the leading coefficient of a sequence reduced modulo m. -/
theorem trim_pmod_of_degree {m : Int} {g : Poly} {e : Nat}
    (htop : ∀ k < g.length, e < k → coef g k % m = 0) (hne : coef g e % m ≠ 0) :
    (trim (pmod g m)).length = e + 1 ∧ (trim (pmod g m)).headD 0 = coef g e % m := by
  have hcoef (k : Nat) : coef (trim (pmod g m)) k = coef g k % m := by simp
  have hlen : (trim (pmod g m)).length = e + 1 := by
    refine le_antisymm (length_le_of_coef (trim_head _) fun k hk => ?_) ?_
    · rw [hcoef, coef_emod_above htop hk]
    · by_contra hlt
      exact hne ((hcoef e).symm.trans (coef_of_length_le (by omega)))
  refine ⟨hlen, ?_⟩
  rw [← coef_length_pred, hlen, Nat.add_sub_cancel, hcoef]

/-- R171: for a divisor of degree e modulo m with a unit for its leading coefficient `divmodp` finds
a quotient and a remainder. -/
theorem divmodp_spec {m : Nat} (hm : 2 ≤ m) (f : Poly) {g : Poly} {e : Nat}
    (htop : ∀ k < g.length, e < k → coef g k % m = 0) (hgcd : Int.gcd (coef g e) m = 1) :
    ∃ q r, divmodp f g m = .ok (q, r) ∧ Reduced m q ∧ Reduced m r ∧ r.length ≤ e ∧
      polyMod m q * polyMod m g + polyMod m r = polyMod m f := by
  have hgcd' : Int.gcd (coef g e % m) m = 1 := by rwa [Int.gcd_emod]
  have hne : coef g e % m ≠ 0 := by
    intro h0
    rw [h0, Int.gcd_zero_left, Int.natAbs_natCast] at hgcd'
    omega
  obtain ⟨hlen, hhead⟩ := trim_pmod_of_degree htop hne
  obtain ⟨q, r, h, hq, hr, hrlen, hid⟩ := divReduced_spec hm
    (reduced_trim_pmod (by omega) f) (g := trim (pmod g m)) (by omega)
    (by rw [hhead]; exact Int.emod_nonneg _ (by omega)) (by rwa [hhead])
  exact ⟨q, r, h, hq, hr, by omega, by simpa using hid⟩

/-- The quotient and the remainder of R171 satisfy the division identity over Z/mZ. -/
theorem polyMod_of_quotientOf {m e : Nat} {f g q r : Poly} (h : QuotientOf m e f g q r) :
    polyMod m q * polyMod m g + polyMod m r = polyMod m f := by
  obtain ⟨he, -, -, -, -, hrlen, -, -, hid⟩ := h
  ext k
  rw [Polynomial.coeff_add, coeff_polyMod_mul, coeff_polyMod, coeff_polyMod]
  rcases lt_or_ge k (max f.length (q.length + g.length)) with hk | hk
  · have hcast := cast_eq_zero_of_emod (hid k hk)
    push_cast at hcast
    linear_combination -hcast
  · rw [max_le_iff] at hk
    rw [prodCoef_of_length_le hk.2, coef_of_length_le (p := r) (by omega), coef_of_length_le hk.1]
    simp

/-- The quotient and the remainder of R171 are the only ones, so they are what `divmodp` finds. -/
theorem divmodp_unique {m e : Nat} (hm : 2 ≤ m) {f g q r : Poly} (h : QuotientOf m e f g q r) :
    divmodp f g m = .ok (q, r) := by
  have hid := polyMod_of_quotientOf h
  obtain ⟨-, htop, hgcd, hqhead, hrhead, hrlen, hqrange, hrrange, -⟩ := h
  obtain ⟨q', r', hdiv, hq', hr', hrlen', hid'⟩ := divmodp_spec hm f htop hgcd
  have : Fact (1 < m) := ⟨by omega⟩
  have htop' : ∀ k, e < k → (polyMod m g).coeff k = 0 := fun k hk => by
    rw [coeff_polyMod, cast_eq_zero_of_emod (coef_emod_above htop hk)]
  have hunit : IsUnit ((polyMod m g).coeff e) := by
    rw [coeff_polyMod, ZMod.coe_int_isUnit_iff_isCoprime, isCoprime_comm,
      Int.isCoprime_iff_gcd_eq_one, hgcd]
  obtain ⟨hq, hr⟩ := division_unique htop' hunit (degree_polyMod_lt hrlen)
    (degree_polyMod_lt hrlen') (hid.trans hid'.symm)
  rw [hdiv, Reduced.eq_of_polyMod (by omega) ⟨hqhead, hqrange⟩ hq' hq,
    Reduced.eq_of_polyMod (by omega) ⟨hrhead, hrrange⟩ hr' hr]

/-! ### What DIVP writes (R172) -/

/-- Two sequences delivered, one at D and then one at E (R61, R95). -/
theorem commit_deliversBoth {s : State} {q r : Poly} (hq : AllFit q) (hr : AllFit r) :
    DeliveredBoth s (s.commit {
      dmem := [(s.latch.ops.dstAddr .d, q), (s.latch.ops.dstAddr .e, r)]
      regs := [(.dLen, (q.length : Int)), (.eLen, (r.length : Int))] }) q r := by
  refine ⟨?_, Memory.holds_writeSeq _ _ hr, fun i hi hout => ?_, fun a hd he => ?_⟩
  · simp [State.commit, State.writeResults, State.writeResult, Memory.writeAll, enc32,
      BitVec.ofInt_natCast]
  · exact (congrArg (Option.map s32) (Memory.readWord_writeSeq_outside _ _ _ hout)).trans
      (Memory.holds_writeSeq _ _ hq i hi)
  · exact (Memory.readByte_writeSeq_outside _ _ _ he).trans
      (Memory.readByte_writeSeq_outside _ _ _ hd)

theorem bodyOf_divp {s : State} {f g q r : Poly} {e : Nat} (hp : paramsOk .divp s)
    (hf : SourceIs s .a f) (hg : SourceIs s .b g)
    (h : QuotientOf (s32 s.latch.ops.mod) e f g q r) :
    bodyOf .divp s.params s.latch.ops s.dmem =
      finish s.params s.latch.ops (some q) (some r) [] := by
  have hp' : 2 ≤ s32 s.latch.ops.mod := hp
  obtain ⟨m, hm⟩ := Int.eq_ofNat_of_zero_le (show 0 ≤ s32 s.latch.ops.mod by omega)
  rw [hm] at h
  have hdiv : divmodp f g s.latch.ops.modulus = .ok (q, r) := by
    rw [Operands.modulus, hm]
    exact divmodp_unique (by omega) h
  rw [bodyOf, divpBody, needMod_ok hp, readSrcs_of_sourceIs hf hg]
  simp only [bind, Except.bind, hdiv]

/-- Settles O44: the quotient and the remainder are the only ones, so they are what the body
delivers. -/
theorem divpWritesQuotientAndRemainder : Obligations.DivpWritesQuotientAndRemainder := by
  intro s f g q r e hp hf hg h hroomD hroomE
  have ⟨_, _, _, _, _, _, hqrange, hrrange, _⟩ := h
  have hm : 2 ≤ s32 s.latch.ops.mod := hp
  have hq : AllFit q := allFit_of_range (w := s.latch.ops.mod) (by omega) (by omega) hqrange
  have hr : AllFit r := allFit_of_range (w := s.latch.ops.mod) (by omega) (by omega) hrrange
  refine ⟨_, ?_, commit_deliversBoth hq hr⟩
  rw [exec_eq_complete, bodyOf_divp hp hf hg h, finish_de hq hr hroomD hroomE, complete_ok]

end Sys2Proof.Machine
end

section
/-! SUPPORT. Sequences as elements of Z/mZ[X]/(X^N - 1) (42_polyinv.md R200 to R205): `convN` is the
product there, the inverses of R202 and R205 are its inverses, and in a range of m integers there is
at most one. -/

namespace Sys2Proof.Machine

open Sys2Proof

/-! ### Sequences as ring elements -/

/-- Z/mZ[X]/(X^n - 1). -/
abbrev RingMod (m n : Nat) : Type := AdjoinRoot (Polynomial.X ^ n - 1 : Polynomial (ZMod m))

/-- The element of Z/mZ[X]/(X^n - 1) that a polynomial denotes. -/
noncomputable abbrev toRing (m n : Nat) : Polynomial (ZMod m) →+* RingMod m n := AdjoinRoot.mk _

/-- The element of Z/mZ[X]/(X^n - 1) that a sequence denotes. -/
noncomputable def ringElem (m n : Nat) (v : Poly) : RingMod m n := toRing m n (polyMod m v)

section

variable {m n : Nat}

@[simp] theorem polyMod_singleton (c : Int) : polyMod m [c] = Polynomial.C (c : ZMod m) := by
  simp [polyMod, coef]

theorem polyMod_one : polyMod m [1] = 1 := by simp

@[simp] theorem polyMod_zext (v : Poly) (n : Nat) : polyMod m (zext v n) = polyMod m v := by
  ext k
  simp

@[simp] theorem polyMod_map_mul (c : Int) (v : Poly) :
    polyMod m (v.map (fun x => c * x)) = Polynomial.C (c : ZMod m) * polyMod m v := by
  ext k
  simp [coef_map (f := fun x => c * x) (mul_zero c)]

theorem coef_bmod (hm : 1 ≤ m) (v : Poly) (k : Nat) : coef (bmod v m) k = bmod1 (coef v k) m :=
  coef_map (by rw [bmod1, zero_add, Int.emod_eq_of_lt (by omega) (by omega), sub_self]) v k

/-- Balanced reduction keeps the residue class (R230). -/
theorem polyMod_bmod (hm : 1 ≤ m) (v : Poly) : polyMod m (bmod v m) = polyMod m v := by
  ext k
  rw [coeff_polyMod, coeff_polyMod, coef_bmod hm, ← sub_eq_zero, ← Int.cast_sub]
  exact cast_eq_zero_of_emod (bmod1_spec (by omega) _).2.2

theorem coef_ringPoly (hn : 1 ≤ n) (k : Nat) :
    coef (ringPoly n) k = (if k = n then 1 else 0) - if k = 0 then 1 else 0 := by
  have hlen : (List.replicate (n - 1) 0 ++ [(-1 : Int)]).length = n := by simp; omega
  rw [ringPoly, List.append_assoc, List.singleton_append, coef_cons, hlen,
    coef_replicate_zero_append, coef_cons, List.length_nil, coef_nil]
  split_ifs <;> omega

/-- `ringPoly` is X^n - 1. -/
theorem polyMod_ringPoly (hn : 1 ≤ n) : polyMod m (ringPoly n) = Polynomial.X ^ n - 1 := by
  ext k
  rw [coeff_polyMod, coef_ringPoly hn, Polynomial.coeff_sub, Polynomial.coeff_X_pow,
    Polynomial.coeff_one]
  push_cast
  rfl

@[simp] theorem ringElem_trim (v : Poly) : ringElem m n (trim v) = ringElem m n v :=
  congrArg (toRing m n) (polyMod_trim v)

@[simp] theorem ringElem_pmod (v : Poly) : ringElem m n (pmod v m) = ringElem m n v :=
  congrArg (toRing m n) (polyMod_pmod v)

@[simp] theorem ringElem_zext (v : Poly) (k : Nat) : ringElem m n (zext v k) = ringElem m n v :=
  congrArg (toRing m n) (polyMod_zext v k)

theorem ringElem_bmod (hm : 1 ≤ m) (v : Poly) : ringElem m n (bmod v m) = ringElem m n v :=
  congrArg (toRing m n) (polyMod_bmod hm v)

@[simp] theorem ringElem_nil : ringElem m n [] = 0 := map_zero _

@[simp] theorem ringElem_singleton (c : Int) : ringElem m n [c] = c := by
  rw [ringElem, polyMod_singleton, ← map_intCast ((toRing m n).comp Polynomial.C)]
  rfl

@[simp] theorem ringElem_polySub (u v : Poly) :
    ringElem m n (polySub u v) = ringElem m n u - ringElem m n v := by
  simp [ringElem]

@[simp] theorem ringElem_map_mul (c : Int) (v : Poly) :
    ringElem m n (v.map (fun x => c * x)) = c * ringElem m n v := by
  rw [← ringElem_singleton, ringElem, ringElem, ringElem, polyMod_map_mul, polyMod_singleton,
    map_mul]

/-- The division identity of R171 in the ring. -/
theorem ringElem_of_division {f g q r : Poly}
    (h : polyMod m q * polyMod m g + polyMod m r = polyMod m f) :
    ringElem m n q * ringElem m n g + ringElem m n r = ringElem m n f := by
  simp only [ringElem, ← h, map_add, map_mul]

/-- X^n - 1 is 0 in the ring. -/
theorem ringElem_ringPoly (hn : 1 ≤ n) : ringElem m n (ringPoly n) = 0 := by
  rw [ringElem, polyMod_ringPoly hn, AdjoinRoot.mk_self]

theorem toRing_X_pow_mod (k : Nat) :
    toRing m n (Polynomial.X ^ (k % n)) = toRing m n (Polynomial.X ^ k) := by
  have hroot : toRing m n (Polynomial.X ^ n) = 1 := by
    rw [← sub_eq_zero, ← map_one (toRing m n), ← map_sub, AdjoinRoot.mk_self]
  conv_rhs => rw [← Nat.mod_add_div k n, pow_add, pow_mul, map_mul, map_pow _ _ (k / n), hroot]
  rw [one_pow, mul_one]

theorem toRing_monomial_mod (k : Nat) (c : ZMod m) :
    toRing m n (Polynomial.monomial (k % n) c) = toRing m n (Polynomial.monomial k c) := by
  rw [← Polynomial.C_mul_X_pow_eq_monomial, ← Polynomial.C_mul_X_pow_eq_monomial, map_mul, map_mul,
    toRing_X_pow_mod]

/-- `convN` is the product of Z/mZ[X]/(X^n - 1) (R166). -/
theorem ringElem_convN (hn : 1 ≤ n) (p q : Poly) :
    ringElem m n (convN n p q) = ringElem m n p * ringElem m n q := by
  have hconv : polyMod m (convN n p q) = ∑ i ∈ Finset.range p.length, ∑ j ∈ Finset.range q.length,
      Polynomial.monomial ((i + j) % n) (coef p i * coef q j : ZMod m) := by
    ext k
    rw [coeff_polyMod]
    simp only [Polynomial.finsetSum_coeff, Polynomial.coeff_monomial]
    rcases lt_or_ge k n with hk | hk
    · rw [coef_convN p q hk, ringCoef]
      push_cast
      rfl
    · rw [coef_of_length_le (by simpa), Int.cast_zero]
      refine (Finset.sum_eq_zero fun i _ => Finset.sum_eq_zero fun j _ => if_neg ?_).symm
      have := Nat.mod_lt (i + j) hn
      omega
  rw [ringElem, ringElem, ringElem, hconv, ← map_mul]
  simp only [polyMod, Finset.sum_mul_sum, Polynomial.monomial_mul_monomial, map_sum,
    toRing_monomial_mod]

theorem monic_X_pow_sub_one (hn : 1 ≤ n) : (Polynomial.X ^ n - 1 : Polynomial (ZMod m)).Monic := by
  simpa using Polynomial.monic_X_pow_sub_C (1 : ZMod m) (n := n) (by omega)

theorem degree_X_pow_sub_one (hm : 2 ≤ m) (hn : 1 ≤ n) :
    (Polynomial.X ^ n - 1 : Polynomial (ZMod m)).degree = n := by
  have : Fact (1 < m) := ⟨hm⟩
  simpa using Polynomial.degree_X_pow_sub_C hn (1 : ZMod m)

/-- A polynomial of degree below n is determined by its ring element. -/
theorem eq_of_ringElem_eq (hm : 2 ≤ m) (hn : 1 ≤ n) {u v : Poly} (hu : u.length ≤ n)
    (hv : v.length ≤ n) (h : ringElem m n u = ringElem m n v) : polyMod m u = polyMod m v := by
  rw [ringElem, ringElem, AdjoinRoot.mk_eq_mk] at h
  by_contra hne
  refine (monic_X_pow_sub_one hn).not_dvd_of_degree_lt (sub_ne_zero.2 hne) ?_ h
  rw [degree_X_pow_sub_one hm hn]
  exact (Polynomial.degree_sub_le _ _).trans_lt
    (max_lt (degree_polyMod_lt hu) (degree_polyMod_lt hv))

/-! ### Inverses -/

theorem cast_mul_eq_one {a b : Int} (h : (a * b - 1) % m = 0) : (a * b : ZMod m) = 1 := by
  have hcast := cast_eq_zero_of_emod h
  push_cast at hcast
  exact sub_eq_zero.1 hcast

theorem ringCast_mul_eq_one {a b : Int} (h : (a * b - 1) % m = 0) : (a * b : RingMod m n) = 1 := by
  rw [← map_intCast ((toRing m n).comp Polynomial.C) a,
    ← map_intCast ((toRing m n).comp Polynomial.C) b, ← map_mul, cast_mul_eq_one h, map_one]

/-- The test of R203 for a product that is 1 modulo m. -/
theorem trim_pmod_eq_one_iff (hm : 2 ≤ m) (v : Poly) :
    trim (pmod v m) = [1] ↔ polyMod m v = 1 := by
  constructor
  · intro h
    rw [← polyMod_pmod, ← polyMod_trim, h, polyMod_one]
  · intro h
    have hone : Reduced m [1] := ⟨by simp, by simp; omega⟩
    exact (reduced_trim_pmod (by omega) v).eq_of_polyMod (by omega) hone (by simpa using h)

theorem polyMod_convN_eq_one_iff (hm : 2 ≤ m) (hn : 1 ≤ n) (d x : Poly) :
    polyMod m (convN n d x) = 1 ↔ ringElem m n d * ringElem m n x = 1 := by
  rw [← ringElem_convN hn]
  constructor
  · intro h
    rw [ringElem, h, map_one]
  · intro h
    rw [← polyMod_one]
    exact eq_of_ringElem_eq hm hn (by simp) hn (by rw [h, ringElem_singleton, Int.cast_one])

/-- The congruences of `InverseOf` say that the product is 1 in the ring. -/
theorem ringCoef_emod_iff (hm : 2 ≤ m) (hn : 1 ≤ n) (d x : Poly) :
    (∀ k < n, ringCoef n d x k % m = if k = 0 then 1 else 0) ↔
      ringElem m n d * ringElem m n x = 1 := by
  rw [← polyMod_convN_eq_one_iff hm hn, ← trim_pmod_eq_one_iff hm]
  have hcoef (k : Nat) : coef [1] k = if k = 0 then 1 else 0 := coef_cons 1 [] k
  constructor
  · intro h
    refine eq_of_coef (trim_head _) (by simp) fun k => ?_
    rw [coef_trim, coef_pmod, hcoef]
    rcases lt_or_ge k n with hk | hk
    · rw [coef_convN d x hk, h k hk]
    · rw [coef_of_length_le (by simpa), if_neg (by omega), Int.zero_emod]
  · intro h k hk
    rw [← coef_convN d x hk, ← coef_pmod, ← coef_trim, h, hcoef]

/-- An inverse modulo a multiple of m makes x a unit modulo m. -/
theorem isUnit_of_inverseOf {q lo hi : Int} {x d : Poly} (hm : 2 ≤ m) (hn : 1 ≤ n)
    (hdvd : (m : Int) ∣ q) (h : InverseOf n q lo hi x d) : IsUnit (ringElem m n x) := by
  obtain ⟨-, -, hinv⟩ := h
  refine IsUnit.of_mul_eq_one_right _ ((ringCoef_emod_iff hm hn d x).1 fun k hk => ?_)
  rw [← Int.emod_emod_of_dvd _ hdvd, hinv k hk]
  split
  · exact Int.emod_eq_of_lt (by omega) (by omega)
  · exact Int.zero_emod _

/-- An inverse in a range of m integers is the only one there. -/
theorem inverseOf_unique (hm : 2 ≤ m) (hn : 1 ≤ n) {lo hi : Int} (hrange : hi < lo + m)
    {x d d' : Poly} (h : InverseOf n m lo hi x d) (h' : InverseOf n m lo hi x d') : d = d' := by
  obtain ⟨hlen, hmem, hinv⟩ := h
  obtain ⟨hlen', hmem', hinv'⟩ := h'
  rw [ringCoef_emod_iff hm hn] at hinv hinv'
  have hring : ringElem m n d = ringElem m n d' :=
    left_inv_eq_right_inv hinv ((mul_comm _ _).trans hinv')
  have hpoly := eq_of_ringElem_eq hm hn hlen.le hlen'.le hring
  refine eq_of_length_of_coef (hlen.trans hlen'.symm) fun k hk => ?_
  have hcast := congrArg (Polynomial.coeff · k) hpoly
  simp only [coeff_polyMod] at hcast
  exact eq_of_emod_sub_eq_zero hrange (hmem _ (coef_mem hk)) (hmem' _ (coef_mem (by omega)))
    (Int.emod_eq_emod_iff_emod_sub_eq_zero.1 ((ZMod.intCast_eq_intCast_iff _ _ m).1 hcast))

end

end Sys2Proof.Machine
end

section
/-! SUPPORT. The loop of INVP (42_polyinv.md R200, R202): every pass keeps t2 * X = g in
Z/pZ[X]/(X^N - 1), so what the loop returns is an inverse, for every modulus; and it returns one
whenever the leading coefficients it meets are units. -/

namespace Sys2Proof.Machine

open Sys2Proof

/-! ### The leading coefficient of a reduced sequence -/

section

variable {m : Nat}

/-- The leading coefficient of a reduced sequence is a nonzero residue. -/
theorem Reduced.head_range {c : Int} {g : Poly} (hg : Reduced m (c :: g)) : 0 < c ∧ c < m := by
  obtain ⟨htrim, hrange⟩ := hg
  have hc := hrange c List.mem_cons_self
  have hc0 : c ≠ 0 := by simpa using htrim
  omega

theorem Reduced.headD_cast_ne_zero {g : Poly} (hg : Reduced m g) (hne : g ≠ []) :
    (g.headD 0 : ZMod m) ≠ 0 := by
  cases g with
  | nil => exact absurd rfl hne
  | cons c g =>
    obtain ⟨hpos, hlt⟩ := hg.head_range
    rw [List.headD_cons, ne_eq, ZMod.intCast_zmod_eq_zero_iff_dvd]
    exact fun hdvd => hpos.ne' (Int.eq_zero_of_dvd_of_nonneg_of_lt hpos.le hlt hdvd)

theorem Reduced.degree {g : Poly} (hg : Reduced m g) (hne : g ≠ []) :
    (polyMod m g).degree = (g.length - 1 : Nat) := by
  have hpos := List.length_pos_iff.2 hne
  refine Polynomial.degree_eq_of_le_of_coeff_ne_zero ?_ ?_
  · refine (Polynomial.degree_le_iff_coeff_zero _ _).2 fun k hk => ?_
    rw [Nat.cast_lt] at hk
    rw [coeff_polyMod, coef_of_length_le (by omega), Int.cast_zero]
  · rw [coeff_polyMod, coef_length_pred]
    exact hg.headD_cast_ne_zero hne

theorem isUnit_intCast_iff (a : Int) : IsUnit (a : ZMod m) ↔ Int.gcd a m = 1 := by
  rw [ZMod.coe_int_isUnit_iff_isCoprime, isCoprime_comm, Int.isCoprime_iff_gcd_eq_one]

theorem Reduced.leadingCoeff {g : Poly} (hg : Reduced m g) :
    (polyMod m g).leadingCoeff = (g.headD 0 : ZMod m) := by
  rcases eq_or_ne g [] with rfl | hne
  · simp
  · rw [Polynomial.leadingCoeff, Polynomial.natDegree_eq_of_degree_eq_some (hg.degree hne),
      coeff_polyMod, coef_length_pred]

theorem Reduced.trim_pmod {g : Poly} (hm : 1 ≤ m) (hg : Reduced m g) : trim (pmod g m) = g :=
  (reduced_trim_pmod hm g).eq_of_polyMod hm hg (by simp)

/-- [] has no unit for its leading coefficient, so a sequence shorter than 2 that has one is a
constant. -/
theorem eq_singleton_of_coprime {g : Poly} (hm : 2 ≤ m) (hlen : g.length < 2)
    (hgcd : Int.gcd (g.headD 0) m = 1) : ∃ c, g = [c] := by
  match g, hlen with
  | [], _ =>
    rw [List.headD_nil, Int.gcd_zero_left, Int.natAbs_natCast] at hgcd
    omega
  | [c], _ => exact ⟨c, rfl⟩

end

/-! ### One pass of the loop -/

/-- A nonzero residue that is no unit has no inverse (R142). -/
theorem modinv_of_not_coprime {a m : Int} (ha : 0 < a) (ham : a < m) (hgcd : Int.gcd a m ≠ 1) :
    modinv a m = raise .noInverse .none := by
  have hm2 : m ≠ 2 := by
    rintro rfl
    obtain rfl : a = 1 := by omega
    exact hgcd rfl
  obtain ⟨⟨g, x, y⟩, h⟩ : ∃ r, egcd a.toNat m.toNat = r := ⟨_, rfl⟩
  obtain ⟨hg, -⟩ := egcd_bezout h
  rw [← Int.gcd_natCast_natCast, Int.toNat_of_nonneg ha.le, Int.toNat_of_nonneg (by omega)] at hg
  rw [modinv, if_neg hm2, if_neg ha.not_gt, h]
  exact if_neg (by rw [hg]; exact_mod_cast hgcd)

/-- The loop returns at a constant that is a unit (R200). -/
theorem invLoop_of_const {m n : Nat} (hm : 2 ≤ m) {f t1 t2 : Poly} {c : Int} (hc : 0 ≤ c)
    (hgcd : Int.gcd c m = 1) (fuel : Nat) :
    ∃ u, invLoop m n (fuel + 1) f [c] t1 t2 = .ok (zext (pmod (t2.map (fun x => u * x)) m) n) ∧
      (c * u - 1) % m = 0 := by
  obtain ⟨u, h, hu⟩ := modinv_of_unit (by omega) hc hgcd
  exact ⟨u, by simp only [invLoop, h], hu⟩

/-- The polynomial t of a pass (R200). -/
def nextCofactor (m n : Nat) (t1 t2 q : Poly) : Poly :=
  trim (pmod (polySub t1 (convN n t2 q)) m)

section

variable {m n : Nat} (hm : 2 ≤ m) {f g t1 t2 : Poly} (hg : Reduced m g)

include hm hg

/-- The loop stops where the leading coefficient of g is no unit, 0 for g = [] (R202 item 4). -/
theorem invLoop_of_not_coprime (hgcd : Int.gcd (g.headD 0) m ≠ 1) (fuel : Nat) :
    invLoop m n fuel f g t1 t2 = raise .noInverse .none := by
  have hinv (c : Int) (p : Poly) (h : g = c :: p) : modinv c m = raise .noInverse .none := by
    subst h
    exact modinv_of_not_coprime hg.head_range.1 hg.head_range.2 hgcd
  cases fuel with
  | zero => rfl
  | succ fuel =>
    match g with
    | [] => rfl
    | [c] => simp only [invLoop, hinv c [] rfl]; rfl
    | c :: c' :: p =>
      have hdiv : divmodp f (c :: c' :: p) m = raise .noInverse .none := by
        rw [divmodp, hg.trim_pmod (by omega), divReduced, hinv c _ rfl]
        rfl
      simp only [invLoop, hdiv]
      rfl

/-- Where the leading coefficient of g is a unit, a pass of the loop divides f by g (R200, R171). -/
theorem invLoop_pass (hlen : 2 ≤ g.length) (hgcd : Int.gcd (g.headD 0) m = 1) (fuel : Nat) :
    ∃ q r, invLoop m n (fuel + 1) f g t1 t2 = invLoop m n fuel g r t2 (nextCofactor m n t1 t2 q) ∧
      Reduced m r ∧ r.length < g.length ∧
      polyMod m q * polyMod m g + polyMod m r = polyMod m f := by
  obtain ⟨c, c', p, rfl⟩ : ∃ c c' p, g = c :: c' :: p := by
    match g, hlen with
    | c :: c' :: p, _ => exact ⟨c, c', p, rfl⟩
  obtain ⟨q, r, hdiv, -, hr, hrlen, hid⟩ := divReduced_spec hm (reduced_trim_pmod (by omega) f)
    (g := c :: c' :: p) (by simp) hg.head_range.1.le hgcd
  rw [polyMod_trim, polyMod_pmod] at hid
  refine ⟨q, r, ?_, hr, hrlen, hid⟩
  rw [← hg.trim_pmod (by omega)] at hdiv
  have hdiv' : divmodp f (c :: c' :: p) m = .ok (q, r) := hdiv
  simp only [invLoop, hdiv']
  rfl

end

/-! ### What the loop returns is an inverse -/

/-- What every pass keeps (R202 item 1): f = t1 * X and g = t2 * X in Z/mZ[X]/(X^n - 1), with the
cofactors short enough for the result. -/
structure EuclidInv (m n : Nat) (x f g t1 t2 : Poly) : Prop where
  previous : ringElem m n f = ringElem m n t1 * ringElem m n x
  current : ringElem m n g = ringElem m n t2 * ringElem m n x
  reduced : Reduced m g
  short1 : t1.length ≤ n
  short2 : t2.length ≤ n

theorem length_polySub_le (p q : Poly) : (polySub p q).length ≤ max p.length q.length :=
  (trim_length_le _).trans (by simp)

section

variable {m n : Nat} (hm : 2 ≤ m) (hn : 1 ≤ n) {x f g t1 t2 : Poly}

include hn in
theorem EuclidInv.pass (h : EuclidInv m n x f g t1 t2) {q r : Poly} (hr : Reduced m r)
    (hid : polyMod m q * polyMod m g + polyMod m r = polyMod m f) :
    EuclidInv m n x g r t2 (nextCofactor m n t1 t2 q) := by
  obtain ⟨hf, hg, -, hlen1, hlen2⟩ := h
  refine ⟨hg, ?_, hr, hlen2, ?_⟩
  · have hring := ringElem_of_division (n := n) hid
    rw [hf, hg] at hring
    rw [nextCofactor, ringElem_trim, ringElem_pmod, ringElem_polySub, ringElem_convN hn]
    linear_combination hring
  · refine (trim_length_le _).trans ?_
    rw [length_pmod]
    exact (length_polySub_le _ _).trans (by simpa using hlen1)

theorem mem_zext {v : Poly} {c : Int} (h : c ∈ zext v n) : c = 0 ∨ c ∈ v := by
  rw [zext, List.mem_append] at h
  exact h.imp List.eq_of_mem_replicate id

/-- What `invpoly` may answer: an inverse of x in n coefficients of [0, m-1], or NO_INVERSE. -/
def InverseOrNone (m n : Nat) (x : Poly) (r : Except Stop Poly) : Prop :=
  (∃ v, r = .ok v ∧ InverseOf n m 0 (m - 1) x v) ∨ r = raise .noInverse .none

include hm hn

/-- At a constant unit c the cofactor t2, scaled by the inverse of c, is an inverse of X (R202). -/
theorem EuclidInv.inverse {c u : Int} (h : EuclidInv m n x f [c] t1 t2)
    (hu : (c * u - 1) % m = 0) :
    InverseOf n m 0 (m - 1) x (zext (pmod (t2.map (fun y => u * y)) m) n) := by
  refine ⟨length_zext (by simpa using h.short2), fun v hv => ?_, ?_⟩
  · rcases mem_zext hv with rfl | hv
    · omega
    · exact mem_pmod (by omega) hv
  · rw [ringCoef_emod_iff hm hn, ringElem_zext, ringElem_pmod, ringElem_map_mul, mul_assoc,
      ← h.current, ringElem_singleton, ringCast_mul_eq_one (mul_comm c u ▸ hu)]

/-- R202 item 1, for every modulus. -/
theorem invLoop_sound (h : EuclidInv m n x f g t1 t2) (fuel : Nat) :
    InverseOrNone m n x (invLoop m n fuel f g t1 t2) := by
  induction fuel generalizing f g t1 t2 with
  | zero => exact .inr rfl
  | succ fuel ih =>
    by_cases hgcd : Int.gcd (g.headD 0) m = 1
    · rcases lt_or_ge g.length 2 with hlen | hlen
      · obtain ⟨c, rfl⟩ := eq_singleton_of_coprime hm hlen hgcd
        obtain ⟨u, hloop, hu⟩ := invLoop_of_const hm h.reduced.head_range.1.le hgcd fuel
        exact .inl ⟨_, hloop, h.inverse hm hn hu⟩
      · obtain ⟨q, r, hloop, hr, -, hid⟩ := invLoop_pass hm h.reduced hlen hgcd fuel
        rw [hloop]
        exact ih (h.pass hn hr hid)
    · exact .inr (invLoop_of_not_coprime hm h.reduced hgcd _)

theorem invpoly_sound (x : Poly) : InverseOrNone m n x (invpoly x m n) := by
  have hstart : EuclidInv m n x (pmod (ringPoly n) m) (trim (pmod x m)) [] [1] := by
    refine ⟨?_, ?_, reduced_trim_pmod (by omega) x, Nat.zero_le n, hn⟩
    · rw [ringElem_pmod, ringElem_ringPoly hn, ringElem_nil, zero_mul]
    · rw [ringElem_trim, ringElem_pmod, ringElem_singleton, Int.cast_one, one_mul]
  exact invLoop_sound hm hn hstart _

end

/-! ### When the loop finds an inverse -/

/-- A property of the pairs (f, g) the loop meets that a division keeps, and that makes the leading
coefficient of g a unit. -/
structure DivisionInvariant {R : Type} [CommRing R]
    (Good : Polynomial R → Polynomial R → Prop) : Prop where
  unit : ∀ F G, Good F G → IsUnit G.leadingCoeff
  step : ∀ F G Q A, Good F G → 0 < G.degree → Q * G + A = F → A.degree < G.degree → Good G A

/-- The loop returns a result where every division it makes is by a unit: g gets shorter (R202
item 2). -/
theorem invLoop_succeeds {m n : Nat} (hm : 2 ≤ m)
    {Good : Polynomial (ZMod m) → Polynomial (ZMod m) → Prop} (hgood : DivisionInvariant Good)
    {f g t1 t2 : Poly} (hg : Reduced m g) (h : Good (polyMod m f) (polyMod m g)) {fuel : Nat}
    (hfuel : g.length < fuel) : ∃ v, invLoop m n fuel f g t1 t2 = .ok v := by
  induction fuel generalizing f g t1 t2 with
  | zero => omega
  | succ fuel ih =>
    have hgcd := hgood.unit _ _ h
    rw [hg.leadingCoeff, isUnit_intCast_iff] at hgcd
    rcases lt_or_ge g.length 2 with hlen | hlen
    · obtain ⟨c, rfl⟩ := eq_singleton_of_coprime hm hlen hgcd
      obtain ⟨u, hloop, -⟩ := invLoop_of_const hm hg.head_range.1.le hgcd fuel
      exact ⟨_, hloop⟩
    · obtain ⟨q, r, hloop, hr, hrlen, hid⟩ := invLoop_pass hm hg hlen hgcd fuel
      rw [hloop]
      have hdegree := hg.degree (List.length_pos_iff.1 (by omega))
      refine ih hr (hgood.step _ _ _ _ h ?_ hid ?_) (by omega)
      · rw [hdegree]
        exact_mod_cast (show 0 < g.length - 1 by omega)
      · rw [hdegree]
        exact degree_polyMod_lt (by omega)

theorem invpoly_succeeds {m n : Nat} (hm : 2 ≤ m) (hn : 1 ≤ n)
    {Good : Polynomial (ZMod m) → Polynomial (ZMod m) → Prop} (hgood : DivisionInvariant Good)
    {x : Poly} (h : Good (Polynomial.X ^ n - 1) (polyMod m x)) : ∃ v, invpoly x m n = .ok v := by
  have hlen : (trim (pmod x m)).length ≤ x.length := by simpa using trim_length_le (pmod x m)
  refine invLoop_succeeds hm hgood (reduced_trim_pmod (by omega) x) ?_ (by omega)
  rwa [polyMod_pmod, polyMod_ringPoly hn, polyMod_trim, polyMod_pmod]

/-! ### A prime modulus -/

/-- Over a field: coprime polynomials, the first of positive degree. -/
def CoprimePair {R : Type} [CommRing R] (F G : Polynomial R) : Prop := IsCoprime F G ∧ 0 < F.degree

theorem divisionInvariant_coprimePair {K : Type} [Field K] :
    DivisionInvariant (CoprimePair (R := K)) := by
  constructor
  case unit =>
    rintro F G ⟨hcop, hdegree⟩
    rw [isUnit_iff_ne_zero, Polynomial.leadingCoeff_ne_zero]
    rintro rfl
    exact hdegree.ne' (Polynomial.degree_eq_zero_of_isUnit (isCoprime_zero_right.1 hcop))
  case step =>
    rintro F G Q A ⟨hcop, -⟩ hdegree rfl -
    refine ⟨?_, hdegree⟩
    rw [isCoprime_comm]
    exact IsCoprime.of_add_mul_right_left (by rwa [add_comm] at hcop)

/-- For a prime modulus `invpoly` succeeds on every unit of the ring (R202 item 4). -/
theorem invpoly_of_unit {p n : Nat} (hp : p.Prime) (hn : 1 ≤ n) {x : Poly}
    (h : IsUnit (ringElem p n x)) : ∃ v, invpoly x p n = .ok v := by
  have : Fact p.Prime := ⟨hp⟩
  refine invpoly_succeeds hp.two_le hn (Good := CoprimePair) divisionInvariant_coprimePair ⟨?_, ?_⟩
  · obtain ⟨D, hD⟩ := h.exists_left_inv
    obtain ⟨D, rfl⟩ := AdjoinRoot.mk_surjective D
    rw [ringElem, ← map_mul, ← map_one (toRing p n), AdjoinRoot.mk_eq_mk] at hD
    obtain ⟨E, hE⟩ := hD
    exact ⟨-E, D, by linear_combination hE⟩
  · rw [degree_X_pow_sub_one hp.two_le hn]
    exact_mod_cast hn

/-! ### Monomials -/

section

variable {m n : Nat}

theorem remainder_unique (hm : 2 ≤ m) {G Q Q' A A' : Polynomial (ZMod m)}
    (hunit : IsUnit G.leadingCoeff) (hA : A.degree < G.degree) (hA' : A'.degree < G.degree)
    (h : Q * G + A = Q' * G + A') : A = A' := by
  have : Fact (1 < m) := ⟨hm⟩
  have hG : G ≠ 0 := by
    rintro rfl
    exact not_lt_bot hA
  rw [Polynomial.degree_eq_natDegree hG] at hA hA'
  exact (division_unique (fun _ => Polynomial.coeff_eq_zero_of_natDegree_lt) hunit hA hA' h).2

/-- The pairs that the loop meets on a monomial with a unit coefficient: X^n - 1 and a monomial, in
either order, and last a constant. -/
inductive MonomialPair (m n : Nat) : Polynomial (ZMod m) → Polynomial (ZMod m) → Prop
  | monomial (j : Nat) {c : ZMod m} (hc : IsUnit c) :
      MonomialPair m n (Polynomial.X ^ n - 1) (Polynomial.monomial j c)
  | modulus (j : Nat) {c : ZMod m} (hc : IsUnit c) :
      MonomialPair m n (Polynomial.monomial j c) (Polynomial.X ^ n - 1)
  | const (F : Polynomial (ZMod m)) {c : ZMod m} (hc : IsUnit c) :
      MonomialPair m n F (Polynomial.C c)

section

variable (hm : 2 ≤ m) (hn : 1 ≤ n) {j : Nat} {c : ZMod m} (hc : IsUnit c)
  {Q A : Polynomial (ZMod m)}

include hm hn hc

/-- X^n - 1 divided by c * X^j leaves -1, or itself. -/
theorem MonomialPair.of_monomial (hdegree : 0 < (Polynomial.monomial j c).degree)
    (hid : Q * Polynomial.monomial j c + A = Polynomial.X ^ n - 1)
    (hA : A.degree < (Polynomial.monomial j c).degree) :
    MonomialPair m n (Polynomial.monomial j c) A := by
  have hunit : IsUnit (Polynomial.monomial j c).leadingCoeff := by
    rwa [Polynomial.leadingCoeff_monomial]
  rcases le_or_gt j n with hj | hj
  · obtain ⟨d, hd⟩ := hc.exists_left_inv
    have hquot : Polynomial.monomial (n - j) d * Polynomial.monomial j c = Polynomial.X ^ n := by
      rw [Polynomial.monomial_mul_monomial, Nat.sub_add_cancel hj, hd,
        Polynomial.monomial_one_right_eq_X_pow]
    have hrem : A = Polynomial.C (-1) :=
      remainder_unique hm hunit hA (Polynomial.degree_C_le.trans_lt hdegree)
        (hid.trans (by rw [hquot, Polynomial.C_neg, Polynomial.C_1, sub_eq_add_neg]))
    rw [hrem]
    exact .const _ isUnit_one.neg
  · have hlt : (Polynomial.X ^ n - 1 : Polynomial (ZMod m)).degree <
        (Polynomial.monomial j c).degree := by
      have : Fact (1 < m) := ⟨hm⟩
      rw [degree_X_pow_sub_one hm hn, Polynomial.degree_monomial j hc.ne_zero]
      exact_mod_cast hj
    have hrem : A = Polynomial.X ^ n - 1 :=
      remainder_unique hm hunit hA hlt (Q' := 0) (by rw [hid, zero_mul, zero_add])
    rw [hrem]
    exact .modulus j hc

/-- c * X^j divided by X^n - 1 leaves the monomial it is in the ring. -/
theorem MonomialPair.of_modulus
    (hid : Q * (Polynomial.X ^ n - 1) + A = Polynomial.monomial j c)
    (hA : A.degree < (Polynomial.X ^ n - 1 : Polynomial (ZMod m)).degree) :
    MonomialPair m n (Polynomial.X ^ n - 1) A := by
  have : Fact (1 < m) := ⟨hm⟩
  have hunit : IsUnit (Polynomial.X ^ n - 1 : Polynomial (ZMod m)).leadingCoeff := by
    rw [monic_X_pow_sub_one hn]
    exact isUnit_one
  have hlt : (Polynomial.monomial (j % n) c).degree <
      (Polynomial.X ^ n - 1 : Polynomial (ZMod m)).degree := by
    rw [degree_X_pow_sub_one hm hn, Polynomial.degree_monomial _ hc.ne_zero]
    exact_mod_cast Nat.mod_lt j hn
  obtain ⟨Q', hQ'⟩ := AdjoinRoot.mk_eq_mk.1 (toRing_monomial_mod (n := n) j c).symm
  have hrem : A = Polynomial.monomial (j % n) c :=
    remainder_unique hm hunit hA hlt (Q' := Q') (hid.trans (by linear_combination hQ'))
  rw [hrem]
  exact .monomial _ hc

end

theorem divisionInvariant_monomialPair (hm : 2 ≤ m) (hn : 1 ≤ n) :
    DivisionInvariant (MonomialPair m n) := by
  constructor
  case unit =>
    intro F G h
    cases h with
    | monomial j hc => rwa [Polynomial.leadingCoeff_monomial]
    | modulus j hc =>
      rw [monic_X_pow_sub_one hn]
      exact isUnit_one
    | const F hc => rwa [Polynomial.leadingCoeff_C]
  case step =>
    intro F G Q A h hdegree hid hA
    cases h with
    | monomial j hc => exact .of_monomial hm hn hc hdegree hid hA
    | modulus j hc => exact .of_modulus hm hn hc hid hA
    | const F hc => exact absurd hdegree Polynomial.degree_C_le.not_gt

theorem polyMod_of_monomial {x : Poly} {j : Nat}
    (h : ∀ k < x.length, k ≠ j → coef x k % m = 0) :
    polyMod m x = Polynomial.monomial j (coef x j : ZMod m) := by
  ext k
  rw [coeff_polyMod, Polynomial.coeff_monomial]
  split
  · next hk => rw [hk]
  · next hk =>
    rcases lt_or_ge k x.length with hlt | hge
    · exact cast_eq_zero_of_emod (h k hlt (Ne.symm hk))
    · rw [coef_of_length_le hge, Int.cast_zero]

end

end Sys2Proof.Machine
end

section
/-! SUPPORT. What INVP writes (42_polyinv.md R201, R202): an inverse, for every modulus, or
NO_INVERSE; the inverse, where the modulus is prime; the inverse of a monomial. -/

namespace Sys2Proof.Machine

open Sys2Proof

/-! ### The body of INVP -/

theorem bodyOf_invp {s : State} {x : Poly} (hok : paramsOk .invp s) (hx : SourceIs s .a x) :
    bodyOf .invp s.params s.latch.ops s.dmem =
      invpoly x (s32 s.latch.ops.mod) (u32 s.latch.ops.ringN) >>= fun v =>
        finish s.params s.latch.ops (some v) none [] := by
  obtain ⟨hm, hn⟩ : 2 ≤ s32 s.latch.ops.mod ∧ DegreeOk s := hok
  rw [bodyOf, invpBody, needMod_ok hm, needN_ok hn, readSrc_of_sourceIs hx]
  rfl

/-- The modulus of INVP as a natural number. -/
theorem exists_modulus {w : Word} (h : 2 ≤ s32 w) : ∃ m : Nat, s32 w = m ∧ 2 ≤ m := by
  obtain ⟨m, hm⟩ := Int.eq_ofNat_of_zero_le (show 0 ≤ s32 w by omega)
  exact ⟨m, hm, by omega⟩

section

variable {s : State} {x v : Poly} (hok : paramsOk .invp s) (hx : SourceIs s .a x)

include hok hx

theorem exec_invp_delivers
    (h : invpoly x (s32 s.latch.ops.mod) (u32 s.latch.ops.ringN) = .ok v)
    (hrange : ∀ c ∈ v, 0 ≤ c ∧ c ≤ s32 s.latch.ops.mod - 1) (hroom : DestFits s .d v.length) :
    ∃ t, exec .invp s = .next t ∧ Delivered s t v := by
  have hm : 2 ≤ s32 s.latch.ops.mod := hok.1
  have hfit : AllFit v := allFit_of_range (w := s.latch.ops.mod) (by omega) (by omega) hrange
  refine exec_delivers ?_ hfit hroom
  rw [bodyOf_invp hok hx, h]
  rfl

/-- INVP on a written source: an inverse is delivered, or there is no room for one, or there is
none. -/
theorem exec_invp_cases :
    (∃ t d, exec .invp s = .next t ∧ Delivered s t d ∧
      InverseOf (u32 s.latch.ops.ringN) (s32 s.latch.ops.mod) 0 (s32 s.latch.ops.mod - 1) x d) ∨
    exec .invp s = .next (s.failedWith .noInverse .none) ∨
    ¬ DestFits s .d (u32 s.latch.ops.ringN) ∧
      exec .invp s = .next (s.failedWith .bounds .d) := by
  obtain ⟨m, hm, hm2⟩ := exists_modulus hok.1
  rcases invpoly_sound hm2 hok.2.1 x with ⟨v, h, hv⟩ | h
  · rw [← hm] at h hv
    have ⟨hlen, hrange, _⟩ := hv
    by_cases hroom : DestFits s .d (u32 s.latch.ops.ringN)
    · obtain ⟨t, ht, hd⟩ := exec_invp_delivers hok hx h hrange (by rwa [hlen])
      exact .inl ⟨t, v, ht, hd, hv⟩
    · refine .inr (.inr ⟨hroom, ?_⟩)
      rw [← hlen] at hroom
      have hfit : AllFit v :=
        allFit_of_range (w := s.latch.ops.mod) (by omega) (by omega) hrange
      have hbody : bodyOf .invp s.params s.latch.ops s.dmem = .error (.error .bounds .d) := by
        rw [bodyOf_invp hok hx, h]
        exact finish_d_bounds hfit hroom
      rw [exec_eq_complete, hbody]
      rfl
  · rw [← hm] at h
    refine .inr (.inl ?_)
    rw [exec_eq_complete, bodyOf_invp hok hx, h]
    rfl

end

/-! ### Soundness for every modulus -/

theorem need_bind_ok {α : Type} {b : Bool} {c : ErrCode} {i : Info} {f : Unit → Except Stop α}
    {a : α} (h : need b c i >>= f = .ok a) : b = true ∧ f () = .ok a := by
  cases b with
  | false => cases h
  | true => exact ⟨rfl, h⟩

/-- The body of INVP succeeds only on legal scalar operands (R307). -/
theorem paramsOk_of_bodyOf_invp {s : State} {w : Writes}
    (h : bodyOf .invp s.params s.latch.ops s.dmem = .ok w) : paramsOk .invp s := by
  obtain ⟨hm, h⟩ := need_bind_ok h
  obtain ⟨hn, -⟩ := need_bind_ok h
  rw [Bool.and_eq_true, decide_eq_true_iff, decide_eq_true_iff] at hn
  exact ⟨of_decide_eq_true hm, hn⟩

/-- A completion that reports no error is a success of the body. -/
theorem bodyOf_ok_of_exec {i : Instr} {s t : State} (h : exec i s = .next t)
    (herr : t.err = .none) : ∃ w, bodyOf i s.params s.latch.ops s.dmem = .ok w := by
  have hruns := bodyOf_runs i s.params s.latch.ops s.dmem
  rw [exec_eq_complete] at h
  rcases complete_next h with ⟨w, hw, -⟩ | ⟨c, info, he, rfl⟩
  · exact ⟨w, hw⟩
  · rw [he] at hruns
    exact absurd herr hruns

/-- Settles O46: a success has legal operands, and on those `exec_invp_cases` says everything. -/
theorem invpNeverWritesAWrongInverse : Obligations.InvpNeverWritesAWrongInverse := by
  refine ⟨fun s t x hx ht herr => ?_, fun s x hok hx => ?_⟩
  · obtain ⟨w, hw⟩ := bodyOf_ok_of_exec ht herr
    rcases exec_invp_cases (paramsOk_of_bodyOf_invp hw) hx with
      ⟨t', d, ht', hd⟩ | ht' | ⟨-, ht'⟩
    · cases ht.symm.trans ht'
      exact ⟨d, hd⟩
    · cases ht.symm.trans ht'
      cases herr
    · cases ht.symm.trans ht'
      cases herr
  · rcases exec_invp_cases hok hx with ⟨t, d, ht, hd⟩ | ht | ⟨hroom, ht⟩
    · exact ⟨t, ht, .inl ⟨d, hd⟩⟩
    · exact ⟨_, ht, .inr (.inl rfl)⟩
    · exact ⟨_, ht, .inr (.inr ⟨hroom, rfl⟩)⟩

/-! ### The inverse, where INVP finds one -/

/-- A successful `invpoly` returns the inverse of its input. -/
theorem invpoly_unique {m n : Nat} (hm : 2 ≤ m) (hn : 1 ≤ n) {x d : Poly}
    (h : ∃ v, invpoly x m n = .ok v) (hd : InverseOf n m 0 (m - 1) x d) :
    invpoly x m n = .ok d := by
  obtain ⟨v, hv⟩ := h
  rcases invpoly_sound hm hn x with ⟨v', hv', hinv⟩ | hnone
  · rw [hv', inverseOf_unique hm hn (by omega) hinv hd]
  · cases hv.symm.trans hnone

/-- Settles O45: an input with an inverse is a unit of the ring, on which `invpoly` succeeds. -/
theorem invpWritesTheInverseModuloAPrime : Obligations.InvpWritesTheInverseModuloAPrime := by
  rintro s d ⟨hok, x, hx, hprime, hd⟩ hroom
  obtain ⟨m, hm, hm2⟩ := exists_modulus hok.1
  have ⟨_, hrange, _⟩ := hd
  refine exec_invp_delivers hok hx ?_ hrange hroom
  rw [hm] at hprime hd ⊢
  have hunit := isUnit_of_inverseOf hm2 hok.2.1 dvd_rfl hd
  exact invpoly_unique hm2 hok.2.1 (invpoly_of_unit hprime hok.2.1 hunit) hd

/-! ### Constants and monomials -/

/-- The place of X^-j. -/
theorem exists_inverse_exponent {n : Nat} (hn : 1 ≤ n) (j : Nat) :
    ∃ k < n, ∀ i < n, (i + j) % n = 0 ↔ i = k := by
  obtain ⟨n, rfl⟩ := Nat.exists_eq_succ_of_ne_zero (show n ≠ 0 by omega)
  have hk : (n * j % (n + 1) + j) % (n + 1) = 0 := by
    rw [Nat.mod_add_mod, ← Nat.succ_mul, Nat.mul_mod_right]
  refine ⟨n * j % (n + 1), Nat.mod_lt _ n.succ_pos, fun i hi => ⟨fun h => ?_, fun h => h ▸ hk⟩⟩
  exact Nat.ModEq.eq_of_lt_of_lt (Nat.ModEq.add_right_cancel' j (h.trans hk.symm)) hi
    (Nat.mod_lt _ n.succ_pos)

/-- A unit modulo m has an inverse in [0, m-1]. -/
theorem exists_inverse_residue {a m : Int} (hm : 1 ≤ m) (h : Int.gcd a m = 1) :
    ∃ u, 0 ≤ u ∧ u < m ∧ (u * a - 1) % m = 0 := by
  have hbezout := Int.gcd_eq_gcd_ab a m
  rw [h] at hbezout
  refine ⟨Int.gcdA a m % m, Int.emod_nonneg _ (by omega), Int.emod_lt_of_pos _ (by omega), ?_⟩
  rw [← Int.emod_eq_emod_iff_emod_sub_eq_zero]
  calc Int.gcdA a m % m * a ≡ Int.gcdA a m * a [ZMOD m] := (Int.mod_modEq _ m).mul_right a
    _ = 1 - m * Int.gcdB a m := by linear_combination -hbezout
    _ ≡ 1 [ZMOD m] := Int.sub_mul_emod_self_left ..

/-- The inverse of the monomial c * X^j: the inverse u of c, at X^k with k + j a multiple of n. -/
def monomialInverse (n : Nat) (u : Int) (k : Nat) : Poly := zext (u :: List.replicate k 0) n

theorem coef_monomialInverse (n : Nat) (u : Int) (k i : Nat) :
    coef (monomialInverse n u k) i = if i = k then u else 0 := by
  rw [monomialInverse, coef_zext, coef_cons, List.length_replicate, coef_replicate_zero]

theorem inverseOf_monomialInverse {m n : Nat} (hm : 2 ≤ m) (hn : 1 ≤ n) {x : Poly} {j k : Nat}
    {u : Int} (hk : k < n) (hkj : (k + j) % n = 0)
    (hx : polyMod m x = Polynomial.monomial j (coef x j : ZMod m)) (hu0 : 0 ≤ u) (hum : u < m)
    (hu : (u * coef x j - 1) % m = 0) :
    InverseOf n m 0 (m - 1) x (monomialInverse n u k) := by
  refine ⟨length_zext (by simpa using hk), fun v hv => ?_, ?_⟩
  · have : v = 0 ∨ v = u := by
      rcases mem_zext hv with hv | hv
      · exact .inl hv
      · exact (List.mem_cons.1 hv).symm.imp List.eq_of_mem_replicate id
    omega
  · have hd : polyMod m (monomialInverse n u k) = Polynomial.monomial k (u : ZMod m) := by
      ext i
      rw [coeff_polyMod, coef_monomialInverse, Polynomial.coeff_monomial, Int.cast_ite,
        Int.cast_zero]
      simp only [eq_comm]
    rw [ringCoef_emod_iff hm hn, ringElem, ringElem, hd, hx, ← map_mul,
      Polynomial.monomial_mul_monomial, cast_mul_eq_one hu, ← toRing_monomial_mod, hkj,
      Polynomial.monomial_zero_one, map_one]

/-- INVP on a monomial with a unit coefficient (R202 items 3 and 6). -/
theorem exec_invp_monomial {s : State} {x : Poly} {j k : Nat} (hok : paramsOk .invp s)
    (hx : SourceIs s .a x)
    (hrest : ∀ i < x.length, i ≠ j → coef x i % s32 s.latch.ops.mod = 0)
    (hgcd : Int.gcd (coef x j) (s32 s.latch.ops.mod) = 1)
    (hroom : DestFits s .d (u32 s.latch.ops.ringN)) (hk : k < u32 s.latch.ops.ringN)
    (hkj : (k + j) % u32 s.latch.ops.ringN = 0) :
    ∃ (t : State) (u : Int), exec .invp s = .next t ∧ 0 ≤ u ∧ u < s32 s.latch.ops.mod ∧
      (u * coef x j - 1) % s32 s.latch.ops.mod = 0 ∧
      Delivered s t (monomialInverse (u32 s.latch.ops.ringN) u k) := by
  have hn : 1 ≤ u32 s.latch.ops.ringN := hok.2.1
  obtain ⟨m, hm, hm2⟩ := exists_modulus hok.1
  obtain ⟨u, hu0, hum, hu⟩ := exists_inverse_residue (by omega) hgcd
  rw [hm] at hrest hgcd hum hu
  have hmono := polyMod_of_monomial hrest
  have hinv := inverseOf_monomialInverse hm2 hn hk hkj hmono hu0 hum hu
  have hsucc : ∃ v, invpoly x m (u32 s.latch.ops.ringN) = .ok v :=
    invpoly_succeeds hm2 hn (divisionInvariant_monomialPair hm2 hn)
      (hmono ▸ .monomial j ((isUnit_intCast_iff _).2 hgcd))
  have ⟨hlen, hrange, _⟩ := hinv
  obtain ⟨t, ht, hd⟩ := exec_invp_delivers hok hx (hm ▸ invpoly_unique hm2 hn hsucc hinv)
    (hm ▸ hrange) (by rwa [hlen])
  exact ⟨t, u, ht, hu0, hm ▸ hum, hm ▸ hu, hd⟩

/-- Settles O47: a constant is the monomial with j = 0, and its inverse stands at X^0. -/
theorem invpInvertsConstants : Obligations.InvpInvertsConstants := by
  refine ⟨fun s x hok hx _ hrest hgcd hroom => ?_, fun s x j hok hx _ hrest hgcd hroom => ?_⟩
  · exact exec_invp_monomial hok hx (fun i hi hi0 => hrest i hi (by omega)) hgcd hroom hok.2.1
      (Nat.zero_mod _)
  · obtain ⟨k, hk, hiff⟩ := exists_inverse_exponent hok.2.1 j
    obtain ⟨t, u, ht, hu0, hum, hu, hd⟩ :=
      exec_invp_monomial hok hx hrest hgcd hroom hk ((hiff k hk).2 rfl)
    refine ⟨t, _, u, ht, hd, hu0, hum, hu, length_zext (by simpa using hk), fun i hi => ?_⟩
    rw [coef_monomialInverse]
    exact if_congr (hiff i hi).symm rfl rfl

end Sys2Proof.Machine
end

section
/-! SUPPORT. INV2K (42_polyinv.md R203 to R205): a lifting step squares the error 1 - g * F, so from
an inverse modulo 2 the loop reaches, within its fuel, the balanced inverse modulo 2^k. -/

namespace Sys2Proof.Machine

open Sys2Proof

/-! ### The error of an approximate inverse -/

/-- The error 1 - g * F of R205 in Z/mZ[X]/(X^n - 1). -/
noncomputable def liftError (m n : Nat) (f g : Poly) : RingMod m n :=
  1 - ringElem m n g * ringElem m n f

/-- A lifting step (R203). -/
def liftStep (m n : Nat) (f g : Poly) : Poly :=
  bmod (convN n g (polySub [2] (convN n g f))) m

/-- The computation answers a balanced inverse of f modulo m (R205). -/
def Inverts (m n : Nat) (f : Poly) (r : Except Stop Poly) : Prop :=
  ∃ v, r = .ok v ∧ InverseOf n m (-(m / 2)) (m / 2 - 1) f v

section

variable {m n : Nat} (hm : 2 ≤ m) (hn : 1 ≤ n) {f g : Poly}

include hm hn

/-- The test of R203 is that the error is 0. -/
theorem trim_pmod_convN_iff : trim (pmod (convN n g f) m) = [1] ↔ liftError m n f g = 0 := by
  rw [trim_pmod_eq_one_iff hm, polyMod_convN_eq_one_iff hm hn, liftError, sub_eq_zero, eq_comm]

/-- A lifting step squares the error (R205 item 1). -/
theorem liftError_liftStep : liftError m n f (liftStep m n f g) = liftError m n f g ^ 2 := by
  rw [liftError, liftStep, ringElem_bmod (by omega), ringElem_convN hn, ringElem_polySub,
    ringElem_convN hn, ringElem_singleton, Int.cast_ofNat, liftError]
  ring

theorem henselLoop_of_liftError_ne_zero (h : liftError m n f g ≠ 0) (fuel : Nat) :
    henselLoop f m n (fuel + 1) g = henselLoop f m n fuel (liftStep m n f g) := by
  rw [henselLoop, if_neg (mt (trim_pmod_convN_iff hm hn).1 h)]
  rfl

/-- Where the error is 0 the loop ends with the balanced residues, for an even modulus (R205
item 2). -/
theorem henselLoop_of_liftError_eq_zero (heven : m % 2 = 0) (hlen : g.length = n)
    (h : liftError m n f g = 0) (fuel : Nat) : Inverts m n f (henselLoop f m n (fuel + 1) g) := by
  refine ⟨bmod g m, ?_, by rwa [length_bmod], fun v hv => ?_, ?_⟩
  · rw [henselLoop, if_pos ((trim_pmod_convN_iff hm hn).2 h)]
  · obtain ⟨c, -, rfl⟩ := List.mem_map.1 hv
    have := bmod1_spec (show 1 ≤ (m : Int) by omega) c
    omega
  · rw [ringCoef_emod_iff hm hn, ringElem_bmod (by omega)]
    exact (sub_eq_zero.1 h).symm

end

/-- A sequence that is 0 modulo d is a multiple of d in the ring. -/
theorem natCast_dvd_ringElem {m n d : Nat} {v : Poly} (h : polyMod d v = 0) :
    (d : RingMod m n) ∣ ringElem m n v := by
  have hdvd : Polynomial.C (d : ZMod m) ∣ polyMod m v := by
    refine Polynomial.C_dvd_iff_dvd_coeff _ _ |>.2 fun i => ?_
    have hi := congrArg (Polynomial.coeff · i) h
    simp only [coeff_polyMod, Polynomial.coeff_zero, ZMod.intCast_zmod_eq_zero_iff_dvd] at hi
    simpa using map_dvd (Int.castRingHom (ZMod m)) hi
  simpa [ringElem] using map_dvd (toRing m n) hdvd

/-- An inverse modulo 2 has an even error. -/
theorem two_dvd_liftError {m n : Nat} (hn : 1 ≤ n) {f g : Poly}
    (h : ringElem 2 n g * ringElem 2 n f = 1) : 2 ∣ liftError m n f g := by
  have hzero : polyMod 2 (polySub [1] (convN n g f)) = 0 := by
    rw [polyMod_polySub, polyMod_one, (polyMod_convN_eq_one_iff le_rfl hn g f).2 h, sub_self]
  have hdvd := natCast_dvd_ringElem (m := m) (n := n) hzero
  rwa [ringElem_polySub, ringElem_singleton, Int.cast_one, ringElem_convN hn] at hdvd

/-! ### The lifting loop -/

theorem two_pow_eq_zero (k n : Nat) : (2 : RingMod (2 ^ k) n) ^ k = 0 := by
  have h : ((2 ^ k : Nat) : ZMod (2 ^ k)) = 0 := ZMod.natCast_self _
  have hring : ((2 ^ k : Nat) : RingMod (2 ^ k) n) = 0 := by
    rw [← map_natCast ((toRing (2 ^ k) n).comp Polynomial.C), h, map_zero]
  rwa [Nat.cast_pow, Nat.cast_ofNat] at hring

section

variable {k n : Nat} (hk : 1 ≤ k) (hn : 1 ≤ n) {f g : Poly}

include hk hn

/-- With an error that 2^i divides, the loop ends within the passes that double i up to k (R205
item 1). -/
theorem henselLoop_inverts {i fuel : Nat} (hlen : g.length = n)
    (herror : 2 ^ i ∣ liftError (2 ^ k) n f g) (hfuel : k ≤ i * 2 ^ fuel) :
    Inverts (2 ^ k) n f (henselLoop f (2 ^ k : Nat) n (fuel + 1) g) := by
  have heven : 2 ^ k % 2 = 0 := Nat.mod_eq_zero_of_dvd (dvd_pow_self 2 (by omega))
  have hm : 2 ≤ 2 ^ k := Nat.le_self_pow (by omega) 2
  induction fuel generalizing i g with
  | zero =>
    refine henselLoop_of_liftError_eq_zero hm hn heven hlen (zero_dvd_iff.1 ?_) 0
    rw [← two_pow_eq_zero k n]
    exact (pow_dvd_pow 2 (by omega)).trans herror
  | succ fuel ih =>
    by_cases h : liftError (2 ^ k) n f g = 0
    · exact henselLoop_of_liftError_eq_zero hm hn heven hlen h _
    · rw [henselLoop_of_liftError_ne_zero hm hn h]
      refine ih (i := i * 2) (by rw [liftStep, length_bmod, length_convN]) ?_ ?_
      · rw [liftError_liftStep hm hn, pow_mul]
        exact pow_dvd_pow_of_dvd herror 2
      · rwa [mul_assoc, ← Nat.pow_succ']

theorem inv2k_inverts (hk30 : k ≤ 30) (h : invpoly f 2 n = .ok g) :
    Inverts (2 ^ k) n f (inv2k f (2 ^ k : Nat) n) := by
  rcases invpoly_sound le_rfl hn f with ⟨g', hg', hlen, -, hinv⟩ | hnone
  · cases hg'.symm.trans h
    rw [ringCoef_emod_iff le_rfl hn] at hinv
    have herror : 2 ^ 1 ∣ liftError (2 ^ k) n f g := by
      rw [pow_one]
      exact two_dvd_liftError hn hinv
    rw [inv2k, h]
    exact henselLoop_inverts hk hn (fuel := 31) hlen herror (by omega)
  · cases hnone.symm.trans h

end

/-- Settles O49: an inverse modulo 2 has an even error, from which the loop reaches the inverse. -/
theorem henselLiftingReachesTheInverse : Obligations.HenselLiftingReachesTheInverse :=
  fun _ _ k n hk hk30 hn h => by
    have hinverts := inv2k_inverts hk hn hk30 h
    rwa [Inverts, Nat.cast_pow, Nat.cast_ofNat] at hinverts

/-! ### What INV2K writes (R204) -/

theorem bodyOf_inv2k {s : State} {x v : Poly} (hok : paramsOk .inv2k s) (hx : SourceIs s .a x)
    (h : inv2k x (s32 s.latch.ops.mod) (u32 s.latch.ops.ringN) = .ok v) :
    bodyOf .inv2k s.params s.latch.ops s.dmem = finish s.params s.latch.ops (some v) none [] := by
  obtain ⟨hq, hn⟩ : (∃ k, 1 ≤ k ∧ s32 s.latch.ops.mod = 2 ^ k) ∧ DegreeOk s := hok
  rw [bodyOf, inv2kBody, needPow2Mod, Operands.modulus, (isPow2_iff _).2 hq, need_true, needN_ok hn,
    readSrc_of_sourceIs hx]
  simp only [bind, Except.bind]
  rw [Operands.degree, h]

theorem le_thirty_of_two_pow {w : Word} {k : Nat} (h : s32 w = (2 ^ k : Nat)) : k ≤ 30 := by
  have hlt : 2 ^ k < 2 ^ 31 := by
    have := s32_le w
    omega
  have := (Nat.pow_lt_pow_iff_right one_lt_two).1 hlt
  omega

/-- Settles O48: an input with an inverse modulo 2^k is a unit modulo 2, so the lifting starts, and
what it ends with is the only balanced inverse. -/
theorem inv2kWritesTheBalancedInverse : Obligations.Inv2kWritesTheBalancedInverse := by
  rintro s d ⟨hok, x, hx, hd⟩ hroom
  have hn : 1 ≤ u32 s.latch.ops.ringN := hok.2.1
  obtain ⟨k, hk, hq⟩ := hok.1
  replace hq : s32 s.latch.ops.mod = (2 ^ k : Nat) := by rw [hq, Nat.cast_pow, Nat.cast_ofNat]
  have hm : 2 ≤ 2 ^ k := Nat.le_self_pow (by omega) 2
  have ⟨_, hrange, _⟩ := hd
  refine exec_delivers (bodyOf_inv2k hok hx ?_)
    (allFit_of_range (w := s.latch.ops.mod) (by omega) (by omega) hrange) hroom
  rw [hq] at hd ⊢
  have hdvd : ((2 : Nat) : Int) ∣ (2 ^ k : Nat) :=
    Int.natCast_dvd_natCast.2 (dvd_pow_self 2 (by omega))
  obtain ⟨g, hg⟩ := invpoly_of_unit Nat.prime_two hn (isUnit_of_inverseOf le_rfl hn hdvd hd)
  obtain ⟨v, hv, hinv⟩ := inv2k_inverts hk hn (le_thirty_of_two_pow hq) hg
  rw [hv, inverseOf_unique hm hn (by omega) hinv hd]

end Sys2Proof.Machine
end

section
/-! SUPPORT. The base-3 coding and the commands B3ENC and B3DEC (44_codec.md R240 to R244): the
minimal representation of a number has that number as its numeral, and the numeral of a sequence
determines the sequence up to its leading zero digits. -/

namespace Sys2Proof.Machine

open Sys2Proof

/-! ### Digits, most significant first -/

theorem topDigits_succ (b n k : Nat) :
    topDigits b n (k + 1) = topDigits b (n / b) k ++ [n % b] := by
  rw [topDigits, List.range_succ, List.map_append, topDigits]
  congr 1
  · refine List.map_congr_left fun j hj => ?_
    have hexp : k + 1 - 1 - j = k - 1 - j + 1 := by
      have := List.mem_range.1 hj
      omega
    rw [hexp, pow_succ', Nat.div_div_eq_div_mul]
  · simp

theorem numDigits_eq_length_digits {b fuel n : Nat} (hb : 1 < b) (h : n ≤ fuel) :
    numDigits b fuel n = (Nat.digits b n).length := by
  induction fuel generalizing n with
  | zero => simp [numDigits, Nat.le_zero.1 h]
  | succ fuel ih =>
    rw [numDigits]
    split
    · next hn => simp [hn]
    · next hn =>
      have hlt := Nat.div_lt_self (Nat.pos_of_ne_zero hn) hb
      rw [ih (by omega), Nat.digits_def' hb (Nat.pos_of_ne_zero hn), List.length_cons]

theorem topDigits_length_digits {b : Nat} (hb : 1 < b) (n : Nat) :
    topDigits b n (Nat.digits b n).length = (Nat.digits b n).reverse := by
  induction n using Nat.strong_induction_on with
  | _ n ih =>
    rcases Nat.eq_zero_or_pos n with rfl | hn
    · simp [topDigits]
    · rw [Nat.digits_def' hb hn, List.length_cons, topDigits_succ, ih _ (Nat.div_lt_self hn hb),
        List.reverse_cons]

/-- The minimal representation of R240 and R242 is Mathlib's, which has the least significant digit
first. -/
theorem minDigits_eq_reverse_digits {b : Nat} (hb : 1 < b) (n : Nat) :
    minDigits b n = (Nat.digits b n).reverse := by
  rw [minDigits, numDigits_eq_length_digits hb le_rfl, topDigits_length_digits hb]

/-! ### Numerals -/

/-- The minimal representation of n in base b, every digit written less the offset `off`. -/
def minNumeral (b : Nat) (off : Int) (n : Nat) : Poly :=
  (minDigits b n).map (fun d : Nat => (d : Int) - off)

section

variable {b : Nat} {off : Int}

@[simp] theorem minNumeral_zero (b : Nat) (off : Int) : minNumeral b off 0 = [] := rfl

theorem minNumeral_append_singleton (hb : 1 < b) {x y : Nat} (hx : x < b) (hxy : x ≠ 0 ∨ y ≠ 0) :
    minNumeral b off (x + b * y) = minNumeral b off y ++ [(x : Int) - off] := by
  rw [minNumeral, minDigits_eq_reverse_digits hb, Nat.digits_add b hb x y hx hxy, List.reverse_cons,
    List.map_append, ← minDigits_eq_reverse_digits hb]
  rfl

theorem numeral_append_singleton (b off : Int) (vs : Poly) (v : Int) :
    numeral b off (vs ++ [v]) = b * numeral b off vs + (v + off) := by
  rw [numeral, List.foldl_append]
  rfl

theorem numeral_map_reverse (ds : List Nat) :
    numeral b off (ds.reverse.map (fun d : Nat => (d : Int) - off)) = Nat.ofDigits b ds := by
  induction ds with
  | nil => rfl
  | cons d ds ih =>
    rw [List.reverse_cons, List.map_append, List.map_singleton, numeral_append_singleton, ih,
      Nat.ofDigits_cons]
    push_cast
    ring

theorem numeral_minNumeral (hb : 1 < b) (n : Nat) : numeral b off (minNumeral b off n) = n := by
  rw [minNumeral, minDigits_eq_reverse_digits hb, numeral_map_reverse, Nat.ofDigits_digits]

theorem minNumeral_ne_nil (hb : 1 < b) {n : Nat} (hn : n ≠ 0) : minNumeral b off n ≠ [] := by
  intro h
  have hnumeral := numeral_minNumeral (off := off) hb n
  rw [h] at hnumeral
  exact hn (Int.natCast_eq_zero.1 hnumeral.symm)

theorem numeral_nonneg {vs : Poly} (h : ∀ v ∈ vs, 0 ≤ v + off ∧ v + off < b) :
    0 ≤ numeral b off vs := by
  induction vs using List.reverseRecOn with
  | nil => rfl
  | append_singleton vs v ih =>
    rw [List.forall_mem_append, List.forall_mem_singleton] at h
    rw [numeral_append_singleton]
    exact add_nonneg (mul_nonneg (Int.natCast_nonneg b) (ih h.1)) h.2.1

/-- The digits of the numeral of a sequence are the sequence without its leading zero digits. -/
theorem minNumeral_numeral (hb : 1 < b) {vs : Poly} (h : ∀ v ∈ vs, 0 ≤ v + off ∧ v + off < b) :
    minNumeral b off (numeral b off vs).toNat = vs.dropWhile (fun v => v == -off) := by
  induction vs using List.reverseRecOn with
  | nil => rfl
  | append_singleton vs v ih =>
    rw [List.forall_mem_append, List.forall_mem_singleton] at h
    obtain ⟨hvs, hv⟩ := h
    obtain ⟨y, hy⟩ := Int.eq_ofNat_of_zero_le (numeral_nonneg hvs)
    obtain ⟨x, hx⟩ := Int.eq_ofNat_of_zero_le hv.1
    obtain rfl : v = x - off := by omega
    have hnumeral : (numeral b off (vs ++ [↑x - off])).toNat = x + b * y := by
      rw [numeral_append_singleton, hy, hx]
      omega
    specialize ih hvs
    rw [hy, Int.toNat_natCast] at ih
    rw [hnumeral, List.dropWhile_append, ← ih]
    by_cases hy0 : y = 0
    · by_cases hx0 : x = 0
      · simp [hy0, hx0]
      · rw [minNumeral_append_singleton hb (by omega) (.inl hx0)]
        simp [hy0, hx0]
    · rw [minNumeral_append_singleton hb (by omega) (.inr hy0)]
      simp [minNumeral_ne_nil hb hy0]

theorem minNumeral_numeral_of_head (hb : 1 < b) {vs : Poly}
    (h : ∀ v ∈ vs, 0 ≤ v + off ∧ v + off < b) (hhead : vs.head? ≠ some (-off)) :
    minNumeral b off (numeral b off vs).toNat = vs := by
  rw [minNumeral_numeral hb h]
  cases vs with
  | nil => rfl
  | cons v vs => exact List.dropWhile_cons_of_neg (by simpa using hhead)

end

/-! ### The functions of R240 and R242 -/

theorem intOf_eq_numeral (bs : Poly) : intOf bs = numeral 256 0 bs := by
  simp only [intOf, numeral, mul_comm, add_zero]

theorem ternaryInt_eq_numeral (ts : Poly) : ternaryInt ts = numeral 3 1 ts := by
  simp only [ternaryInt, numeral, mul_comm]

/-- The functions of 44_codec.md make integers of a list of numbers in the list monad. -/
theorem bind_pure_natCast (ds : List Nat) :
    (do let d ← ds; pure (d : Int)) = ds.map (fun d : Nat => (d : Int)) :=
  List.map_eq_flatMap.symm

theorem b3encode_eq_minNumeral (bs : Poly) :
    b3encode bs = minNumeral 3 1 (numeral 256 0 bs).toNat := by
  rw [b3encode, bind_pure_natCast, List.map_map, intOf_eq_numeral]
  rfl

theorem b3decode_eq_minNumeral (ts : Poly) :
    b3decode ts = minNumeral 256 0 (numeral 3 1 ts).toNat := by
  rw [b3decode, bind_pure_natCast, List.map_map, ternaryInt_eq_numeral]
  simp only [minNumeral, sub_zero]
  rfl

/-- A byte is a digit in base 256. -/
theorem byte_digits {bs : Poly} (h : ∀ b ∈ bs, 0 ≤ b ∧ b ≤ 255) :
    ∀ b ∈ bs, 0 ≤ b + 0 ∧ b + 0 < (256 : Nat) := fun b hb => by
  have := h b hb
  omega

/-- A balanced ternary digit, plus 1, is a digit in base 3. -/
theorem ternary_digits {ts : Poly} (h : ∀ t ∈ ts, -1 ≤ t ∧ t ≤ 1) :
    ∀ t ∈ ts, 0 ≤ t + 1 ∧ t + 1 < (3 : Nat) := fun t ht => by
  have := h t ht
  omega

/-- The minimal code of R240 is the only one. -/
theorem b3encode_unique {bs d : Poly} (h : TernaryCodeOf bs d) : b3encode bs = d := by
  obtain ⟨-, hd, hhead, hnumeral⟩ := h
  rw [b3encode_eq_minNumeral, ← hnumeral]
  exact minNumeral_numeral_of_head (b := 3) (by decide) (ternary_digits hd) hhead

/-- The minimal byte string of R242 is the only one. -/
theorem b3decode_unique {ts d : Poly} (h : BytesOf ts d) : b3decode ts = d := by
  obtain ⟨-, hd, hhead, hnumeral⟩ := h
  rw [b3decode_eq_minNumeral, ← hnumeral]
  exact minNumeral_numeral_of_head (b := 256) (by decide) (byte_digits hd) hhead

/-! ### The round trips (R244) -/

theorem trim_eq_dropWhile (p : Poly) : trim p = p.dropWhile (fun c => c == 0) := by
  induction p with
  | nil => rfl
  | cons c p ih =>
    rw [trim, List.dropWhile_cons, ih]
    simp only [beq_iff_eq]

theorem b3decode_b3encode {bs : Poly} (h : ∀ b ∈ bs, 0 ≤ b ∧ b ≤ 255) :
    b3decode (b3encode bs) = trim bs := by
  have hdigits := byte_digits h
  have hnumeral : numeral 3 1 (b3encode bs) = numeral 256 0 bs := by
    rw [b3encode_eq_minNumeral]
    exact (numeral_minNumeral (b := 3) (by decide) _).trans
      (Int.toNat_of_nonneg (numeral_nonneg hdigits))
  rw [b3decode_eq_minNumeral, hnumeral, trim_eq_dropWhile]
  exact minNumeral_numeral (b := 256) (by decide) hdigits

theorem b3encode_b3decode {ts : Poly} (h : ∀ t ∈ ts, -1 ≤ t ∧ t ≤ 1) :
    b3encode (b3decode ts) = ts.dropWhile (fun t => t == -1) := by
  have hdigits := ternary_digits h
  have hnumeral : numeral 256 0 (b3decode ts) = numeral 3 1 ts := by
    rw [b3decode_eq_minNumeral]
    exact (numeral_minNumeral (b := 256) (by decide) _).trans
      (Int.toNat_of_nonneg (numeral_nonneg hdigits))
  rw [b3encode_eq_minNumeral, hnumeral]
  exact minNumeral_numeral (b := 3) (by decide) hdigits

theorem trim_eq_self_iff {p : Poly} : trim p = p ↔ p.head? ≠ some 0 :=
  ⟨fun h => h ▸ trim_head p, trim_eq_self⟩

/-- Settles O52: each function gives back the numeral it was given, and the digits of a numeral are
its sequence without the leading zero digits. -/
theorem ternaryCodecRoundTrips : Obligations.TernaryCodecRoundTrips := by
  refine ⟨fun bs h => ?_, fun ts h => b3encode_b3decode h⟩
  rw [b3decode_b3encode h]
  exact ⟨rfl, trim_eq_self_iff⟩

/-! ### What B3ENC and B3DEC write (R241, R243) -/

theorem needBytes_ok {bs : Poly} (h : ∀ b ∈ bs, 0 ≤ b ∧ b ≤ 255) : needBytes bs = .ok () := by
  have hall : bs.all isByte = true :=
    List.all_eq_true.2 fun b hb => by simpa [isByte] using h b hb
  rw [needBytes, hall, need_true]

theorem needTernary_ok {ts : Poly} (h : ∀ t ∈ ts, -1 ≤ t ∧ t ≤ 1) : needTernary ts = .ok () := by
  have hall : ts.all isTernary = true :=
    List.all_eq_true.2 fun t ht => by simpa [isTernary] using h t ht
  rw [needTernary, hall, need_true]

section

variable {s : State} {d : Poly}

theorem bodyOf_b3enc (h : Yields .b3enc s d) :
    bodyOf .b3enc s.params s.latch.ops s.dmem = finish s.params s.latch.ops (some d) none [] := by
  obtain ⟨-, bs, hbs, hd⟩ := h
  rw [bodyOf, b3encBody, readSrc_of_sourceIs hbs, ← b3encode_unique hd]
  simp only [bind, Except.bind, needBytes_ok hd.1]

theorem bodyOf_b3dec (h : Yields .b3dec s d) :
    bodyOf .b3dec s.params s.latch.ops s.dmem = finish s.params s.latch.ops (some d) none [] := by
  obtain ⟨-, ts, hts, hd⟩ := h
  rw [bodyOf, b3decBody, readSrc_of_sourceIs hts, ← b3decode_unique hd]
  simp only [bind, Except.bind, needTernary_ok hd.1]

end

/-- Settles O50: the minimal code or byte string is the only one, so it is what the body
delivers. -/
theorem ternaryCodecWritesMinimalCodes : Obligations.TernaryCodecWritesMinimalCodes := by
  rintro i s d (rfl | rfl) hyields hroom
  · have ⟨_, _, _, _, hrange, _⟩ := hyields
    exact exec_delivers (bodyOf_b3enc hyields)
      (fun v hv => by have := hrange v hv; omega) hroom
  · have ⟨_, _, _, _, hrange, _⟩ := hyields
    exact exec_delivers (bodyOf_b3dec hyields)
      (fun v hv => by have := hrange v hv; omega) hroom

end Sys2Proof.Machine
end

section
/-! SUPPORT. The bit packing and the commands PACK and UNPACK (44_codec.md R245 to R249): a bit
stream is the stream of the fields it is cut into, so the stream that PACK and UNPACK keep determines what
they write. -/

namespace Sys2Proof.Machine

open Sys2Proof

/-! ### Fields of bits -/

@[simp] theorem length_bitsOf (w u : Nat) : (bitsOf w u).length = w := by simp [bitsOf]

theorem bitsOf_lt_two {w u b : Nat} (h : b ∈ bitsOf w u) : b < 2 := by
  obtain ⟨j, -, rfl⟩ := List.mem_map.1 h
  exact Nat.mod_lt _ two_pos

theorem bitsOf_succ (w u : Nat) : bitsOf (w + 1) u = bitsOf w (u / 2) ++ [u % 2] :=
  topDigits_succ 2 u w

theorem ofBits_append_singleton (bs : List Nat) (b : Nat) :
    ofBits (bs ++ [b]) = 2 * ofBits bs + b := by
  rw [ofBits, List.foldl_append]
  rfl

/-- The field of u denotes u modulo 2^w. -/
theorem ofBits_bitsOf (w u : Nat) : ofBits (bitsOf w u) = u % 2 ^ w := by
  induction w generalizing u with
  | zero => exact (Nat.mod_one u).symm
  | succ w ih =>
    rw [bitsOf_succ, ofBits_append_singleton, ih, pow_succ', Nat.mod_mul, add_comm]

/-- A bit string is the field of the number it denotes. -/
theorem bitsOf_ofBits {w : Nat} {bs : List Nat} (hlen : bs.length = w) (h : ∀ b ∈ bs, b < 2) :
    bitsOf w (ofBits bs) = bs := by
  subst hlen
  induction bs using List.reverseRecOn with
  | nil => rfl
  | append_singleton bs b ih =>
    rw [List.forall_mem_append, List.forall_mem_singleton] at h
    rw [List.length_append, List.length_singleton, bitsOf_succ, ofBits_append_singleton,
      show (2 * ofBits bs + b) / 2 = ofBits bs by omega, ih h.1,
      show (2 * ofBits bs + b) % 2 = b by omega]

theorem bitsOf_mod (w u : Nat) : bitsOf w (u % 2 ^ w) = bitsOf w u := by
  rw [← ofBits_bitsOf, bitsOf_ofBits (length_bitsOf w u) fun _ => bitsOf_lt_two]

theorem bitsOf_emod {w : Nat} {v : Int} (hv : 0 ≤ v) :
    bitsOf w (v % 2 ^ w).toNat = bitsOf w v.toNat := by
  rw [Int.toNat_emod hv (by positivity), Int.toNat_pow_of_nonneg (by decide)]
  exact bitsOf_mod w v.toNat

/-- Bits below w do not change modulo 2^w. -/
theorem emod_two_pow_bit {w k : Nat} (h : k < w) (v : Int) :
    v % 2 ^ w / 2 ^ k % 2 = v / 2 ^ k % 2 := by
  obtain ⟨c, rfl⟩ : ∃ c, w = k + (c + 1) := ⟨w - k - 1, by omega⟩
  have hv : v = v % 2 ^ (k + (c + 1)) + 2 ^ k * (2 * (2 ^ c * (v / 2 ^ (k + (c + 1))))) := by
    conv_lhs => rw [← Int.emod_add_mul_ediv v (2 ^ (k + (c + 1)))]
    ring
  conv_rhs =>
    rw [hv, Int.add_mul_ediv_left _ _ (by positivity), Int.add_mul_emod_self_left]

theorem getElem_bitsOf {w : Nat} (v : Int) {j : Nat} (h : j < (bitsOf w (v % 2 ^ w).toNat).length) :
    ((bitsOf w (v % 2 ^ w).toNat)[j] : Int) = fieldBit w v j := by
  rw [length_bitsOf] at h
  simp only [bitsOf, List.getElem_map, List.getElem_range]
  push_cast
  rw [Int.toNat_of_nonneg (Int.emod_nonneg _ (by positivity)), emod_two_pow_bit (by omega),
    fieldBit]

/-! ### The stream of a sequence -/

@[simp] theorem valueBits_nil (w : Nat) : valueBits [] w = [] := rfl

theorem valueBits_cons (v : Int) (vs : Poly) (w : Nat) :
    valueBits (v :: vs) w = bitsOf w (v % 2 ^ w).toNat ++ valueBits vs w := rfl

theorem valueBits_append (us vs : Poly) (w : Nat) :
    valueBits (us ++ vs) w = valueBits us w ++ valueBits vs w := List.flatMap_append

@[simp] theorem length_valueBits (vs : Poly) (w : Nat) :
    (valueBits vs w).length = vs.length * w := by
  induction vs with
  | nil => simp
  | cons v vs ih =>
    rw [valueBits_cons, List.length_append, length_bitsOf, ih, List.length_cons]
    ring

theorem valueBits_lt_two {vs : Poly} {w b : Nat} (h : b ∈ valueBits vs w) : b < 2 := by
  obtain ⟨v, -, hb⟩ := List.mem_flatMap.1 h
  exact bitsOf_lt_two hb

theorem valueBits_replicate_zero (n w : Nat) :
    valueBits (List.replicate n 0) w = List.replicate (n * w) 0 := by
  have hbits : bitsOf w 0 = List.replicate w 0 := by simp [bitsOf]
  induction n with
  | zero => simp
  | succ n ih =>
    rw [List.replicate_succ, valueBits_cons, ih, Int.zero_emod, Int.toNat_zero, hbits,
      List.replicate_append_replicate]
    congr 1
    ring

/-- Bit j of the stream is bit j mod w of value j / w (R245, R247). -/
theorem getElem_valueBits {vs : Poly} {w j : Nat} (h : j < (valueBits vs w).length) :
    ((valueBits vs w)[j] : Int) = fieldBit w (vs.getD (j / w) 0) (j % w) := by
  induction vs generalizing j with
  | nil => simp at h
  | cons v vs ih =>
    simp only [valueBits_cons, List.getElem_append, length_bitsOf]
    split
    · next hj => rw [getElem_bitsOf, Nat.div_eq_of_lt hj, Nat.mod_eq_of_lt hj, List.getD_cons_zero]
    · next hj =>
      have hw : 0 < w := Nat.pos_of_ne_zero fun h0 => by simp [h0] at h
      obtain ⟨k, rfl⟩ := Nat.exists_eq_add_of_le (not_lt.1 hj)
      rw [ih, Nat.add_sub_cancel_left, Nat.add_div_left k hw, List.getD_cons_succ,
        Nat.add_mod_left]

/-- The bits of a byte string are its stream with fields of 8 bits. -/
theorem byteBits_eq_valueBits {bs : Poly} (h : ∀ b ∈ bs, 0 ≤ b) : byteBits bs = valueBits bs 8 :=
  List.flatMap_congr fun b hb => (bitsOf_emod (h b hb)).symm

/-! ### The fields of a stream -/

/-- The fields of the stream of a sequence are its values modulo 2^w. -/
theorem fields_valueBits (w : Nat) (vs : Poly) (rest : List Nat) :
    (fields w vs.length (valueBits vs w ++ rest)).map (fun n : Nat => (n : Int)) =
      vs.map (fun v => v % 2 ^ w) := by
  induction vs with
  | nil => rfl
  | cons v vs ih =>
    have hv : 0 ≤ v % 2 ^ w := Int.emod_nonneg _ (by positivity)
    rw [List.length_cons, fields, valueBits_cons, List.append_assoc,
      List.take_left' (length_bitsOf ..), List.drop_left' (length_bitsOf ..), List.map_cons, ih,
      List.map_cons, ofBits_bitsOf, Int.natCast_mod, Int.toNat_of_nonneg hv]
    push_cast
    rw [Int.emod_emod]

/-- A stream of whole fields is the stream of its fields. -/
theorem valueBits_fields {w count : Nat} {bs : List Nat} (hlen : bs.length = count * w)
    (h : ∀ b ∈ bs, b < 2) :
    valueBits ((fields w count bs).map (fun n : Nat => (n : Int))) w = bs := by
  induction count generalizing bs with
  | zero => exact (List.eq_nil_of_length_eq_zero (by simpa using hlen)).symm
  | succ count ih =>
    have hfirst : bitsOf w (ofBits (bs.take w)) = bs.take w :=
      bitsOf_ofBits (List.length_take_of_le (hlen ▸ Nat.le_mul_of_pos_left w (Nat.succ_pos count)))
        fun b hb => h b (List.mem_of_mem_take hb)
    have hrest : (bs.drop w).length = count * w := by
      rw [List.length_drop, hlen, Nat.succ_mul, Nat.add_sub_cancel]
    rw [fields, List.map_cons, valueBits_cons, ih hrest fun b hb => h b (List.mem_of_mem_drop hb),
      bitsOf_emod (Int.natCast_nonneg _), Int.toNat_natCast, hfirst, List.take_append_drop]

/-! ### `pack` and `unpack` -/

theorem packBits_eq_fields (vs : Poly) (w : Nat) :
    packBits vs w =
      (fields 8 ((padToByte (valueBits vs w)).length / 8) (padToByte (valueBits vs w))).map
        (fun n : Nat => (n : Int)) := by
  rw [packBits, bind_pure_natCast, List.map_id']

theorem unpackBits_eq_fields (bs : Poly) (w : Nat) :
    unpackBits bs w =
      (fields w (8 * bs.length / w) (byteBits bs)).map (fun n : Nat => (n : Int)) := by
  rw [unpackBits, bind_pure_natCast, List.map_id']

/-- The padded stream: `pack` adds the zeros that fill the last byte. -/
theorem padToByte_valueBits (vs : Poly) (w : Nat) :
    padToByte (valueBits vs w) = valueBits vs w ++
      List.replicate (8 * ((vs.length * w + 7) / 8) - vs.length * w) 0 := by
  rw [padToByte, length_valueBits]
  congr 2
  omega

theorem length_padToByte_valueBits (vs : Poly) (w : Nat) :
    (padToByte (valueBits vs w)).length = (vs.length * w + 7) / 8 * 8 := by
  rw [padToByte_valueBits, List.length_append, List.length_replicate, length_valueBits]
  omega

theorem valueBits_packBits (vs : Poly) (w : Nat) :
    valueBits (packBits vs w) 8 = padToByte (valueBits vs w) := by
  rw [packBits_eq_fields]
  refine valueBits_fields (by rw [length_padToByte_valueBits]; omega) fun b hb => ?_
  rw [padToByte_valueBits, List.mem_append, List.mem_replicate] at hb
  rcases hb with hb | ⟨-, rfl⟩
  · exact valueBits_lt_two hb
  · exact two_pos

theorem packBits_nonneg {vs : Poly} {w : Nat} {b : Int} (h : b ∈ packBits vs w) : 0 ≤ b := by
  rw [packBits_eq_fields] at h
  obtain ⟨n, -, rfl⟩ := List.mem_map.1 h
  exact Int.natCast_nonneg n

theorem map_emod_eq_self {w : Nat} {vs : Poly} (h : ∀ v ∈ vs, 0 ≤ v ∧ v < 2 ^ w) :
    vs.map (fun v => v % 2 ^ w) = vs :=
  (List.map_congr_left fun v hv => Int.emod_eq_of_lt (h v hv).1 (h v hv).2).trans (List.map_id' vs)

/-- `pack` answers the bytes whose stream is the padded stream of the values. -/
theorem packBits_of_valueBits {vs d : Poly} {w : Nat} (hd : ∀ b ∈ d, 0 ≤ b ∧ b < 2 ^ 8)
    (h : valueBits d 8 = padToByte (valueBits vs w)) : packBits vs w = d := by
  have hlen : (valueBits d 8).length / 8 = d.length := by
    rw [length_valueBits, Nat.mul_div_cancel _ (by decide)]
  have hfields := fields_valueBits 8 d []
  rw [List.append_nil, map_emod_eq_self hd] at hfields
  rw [packBits_eq_fields, ← h, hlen, hfields]

/-- `unpack` answers the values whose stream begins the stream of the bytes, up to less than one
field, modulo 2^w. -/
theorem unpackBits_of_valueBits {bs d : Poly} {w : Nat} {rest : List Nat} (hbs : ∀ b ∈ bs, 0 ≤ b)
    (h : valueBits bs 8 = valueBits d w ++ rest) (hrest : rest.length < w) :
    unpackBits bs w = d.map (fun v => v % 2 ^ w) := by
  have hlen : 8 * bs.length / w = d.length := by
    have hbits := congrArg List.length h
    rw [List.length_append, length_valueBits, length_valueBits] at hbits
    rw [mul_comm, hbits, add_comm, Nat.add_mul_div_right _ _ (by omega), Nat.div_eq_of_lt hrest,
      zero_add]
  rw [unpackBits_eq_fields, hlen, byteBits_eq_valueBits hbs, h, fields_valueBits]

/-! ### The round trips (R249) -/

/-- Unpacking what was packed gives the values modulo 2^w, and then a zero for each whole field of
padding. -/
theorem unpackBits_packBits {w : Nat} (hw : 1 ≤ w) (vs : Poly) :
    unpackBits (packBits vs w) w = vs.map (fun v => v % 2 ^ w) ++
      List.replicate ((8 * ((vs.length * w + 7) / 8) - vs.length * w) / w) 0 := by
  set pad := 8 * ((vs.length * w + 7) / 8) - vs.length * w
  have hstream : valueBits (packBits vs w) 8 =
      valueBits (vs ++ List.replicate (pad / w) 0) w ++ List.replicate (pad % w) 0 := by
    rw [valueBits_packBits, padToByte_valueBits, valueBits_append, valueBits_replicate_zero,
      List.append_assoc, List.replicate_append_replicate, Nat.div_add_mod']
  rw [unpackBits_of_valueBits (fun _ => packBits_nonneg) hstream
    (by rw [List.length_replicate]; exact Nat.mod_lt _ hw)]
  simp

theorem unpackBits_eight {bs : Poly} (h : ∀ b ∈ bs, 0 ≤ b ∧ b < 2 ^ 8) : unpackBits bs 8 = bs := by
  rw [unpackBits_of_valueBits (rest := []) (fun b hb => (h b hb).1) (List.append_nil _).symm
    (by decide), map_emod_eq_self h]

theorem packBits_eight {bs : Poly} (h : ∀ b ∈ bs, 0 ≤ b ∧ b < 2 ^ 8) : packBits bs 8 = bs :=
  packBits_of_valueBits h (by simp [padToByte])

/-- Settles O53: the padding holds no whole field for w >= 8, and zero fields for w <= 7. -/
theorem bitPackingRoundTrips : Obligations.BitPackingRoundTrips := by
  refine ⟨fun w vs hw _ hvs => ?_, fun w vs hw _ hvs => ?_, fun w vs hw _ => ?_, fun bs hbs => ?_⟩
  · have hpad : (8 * ((vs.length * w + 7) / 8) - vs.length * w) / w = 0 :=
      Nat.div_eq_of_lt (by omega)
    rw [unpackBits_packBits (by omega), map_emod_eq_self hvs, hpad, List.replicate_zero,
      List.append_nil]
  · rw [unpackBits_packBits hw, map_emod_eq_self hvs]
  · rw [unpackBits_packBits hw]
    exact List.take_left' (List.length_map _)
  · have hbytes : ∀ b ∈ bs, 0 ≤ b ∧ b < 2 ^ 8 := fun b hb => by
      have := hbs b hb
      omega
    rw [unpackBits_eight hbytes, packBits_eight hbytes]

/-! ### What PACK and UNPACK write (R246, R248) -/

/-- The packing of R245 is the only one. -/
theorem packBits_unique {w : Nat} {vs d : Poly} (h : PackingOf w vs d) : packBits vs w = d := by
  obtain ⟨hlen, hrange, hbits⟩ := h
  refine packBits_of_valueBits (fun b hb => by have := hrange b hb; omega) ?_
  refine List.ext_getElem ?_ fun j hj hj' => Int.ofNat_inj.1 ?_
  · rw [length_valueBits, hlen, length_padToByte_valueBits]
  · rw [length_valueBits] at hj
    refine (getElem_valueBits _).trans ((hbits j (by omega)).trans ?_)
    simp only [padToByte_valueBits, List.getElem_append, length_valueBits]
    split
    · exact (getElem_valueBits _).symm
    · simp

/-- The unpacking of R247 is the only one. -/
theorem unpackBits_unique {w : Nat} (hw : 1 ≤ w) {bs d : Poly} (h : UnpackingOf w bs d) :
    unpackBits bs w = d := by
  obtain ⟨hbytes, hlen, hrange, hbits⟩ := h
  have hle : d.length * w ≤ (valueBits bs 8).length := by
    rw [length_valueBits, hlen, mul_comm bs.length]
    exact Nat.div_mul_le_self _ _
  have hstream : (valueBits bs 8).take (d.length * w) = valueBits d w := by
    refine List.ext_getElem (by simpa using hle) fun j hj hj' => Int.ofNat_inj.1 ?_
    rw [length_valueBits] at hj'
    have hfield :=
      hbits (j / w) (Nat.div_lt_of_lt_mul (by rwa [mul_comm])) (j % w) (Nat.mod_lt _ hw)
    rw [Nat.div_add_mod] at hfield
    rw [List.getElem_take]
    exact (getElem_valueBits _).trans (hfield.symm.trans (getElem_valueBits _).symm)
  have hrest : ((valueBits bs 8).drop (d.length * w)).length < w := by
    rw [List.length_drop, length_valueBits, hlen, mul_comm bs.length, ← Nat.mod_eq_sub_div_mul]
    exact Nat.mod_lt _ hw
  rw [unpackBits_of_valueBits (fun b hb => (hbytes b hb).1)
    (by rw [← hstream, List.take_append_drop]) hrest]
  exact map_emod_eq_self fun v hv => by have := hrange v hv; omega

theorem needW_ok {s : State} (h : WidthOk s) : needW s.latch.ops = .ok () := by
  rw [needW, Operands.fieldWidth, decide_eq_true h.1, Config.wMax, decide_eq_true h.2,
    Bool.and_true, need_true]

section

variable {s : State} {d : Poly}

theorem bodyOf_pack (h : Yields .pack s d) :
    bodyOf .pack s.params s.latch.ops s.dmem = finish s.params s.latch.ops (some d) none [] := by
  obtain ⟨hw, vs, hvs, hd⟩ := h
  rw [bodyOf, packBody, needW_ok hw, readSrc_of_sourceIs hvs, ← packBits_unique hd]
  rfl

theorem bodyOf_unpack (h : Yields .unpack s d) :
    bodyOf .unpack s.params s.latch.ops s.dmem = finish s.params s.latch.ops (some d) none [] := by
  obtain ⟨hw, bs, hbs, hd⟩ := h
  rw [bodyOf, unpackBody, needW_ok hw, readSrc_of_sourceIs hbs]
  simp only [bind, Except.bind, needBytes_ok hd.1]
  rw [Operands.fieldWidth, unpackBits_unique hw.1 hd]

end

/-- Settles O51: the stream determines the bytes and the fields, so they are what the body
delivers. -/
theorem packUnpackMoveEveryBit : Obligations.PackUnpackMoveEveryBit := by
  rintro i s d (rfl | rfl) hyields hroom
  · have ⟨_, _, _, _, hrange, _⟩ := hyields
    exact exec_delivers (bodyOf_pack hyields)
      (fun v hv => by have := hrange v hv; omega) hroom
  · have ⟨hw, _, _, _, _, hrange, _⟩ := hyields
    have hpow : (2 : Int) ^ u32 s.latch.ops.width ≤ 2 ^ 31 :=
      pow_le_pow_right₀ (by decide) hw.2
    exact exec_delivers (bodyOf_unpack hyields)
      (fun v hv => by have := hrange v hv; omega) hroom

end Sys2Proof.Machine
end

section
/-! SUPPORT. The command NOP (45_control.md R270). -/

namespace Sys2Proof.Machine

open Sys2Proof

/-- Settles O37: NOP's body is `Finish` of no result, so its commit writes no DMEM word and no result
register. -/
theorem nopCompletesWithNoOtherEffect : Obligations.NopCompletesWithNoOtherEffect := by
  intro s
  have hbody : bodyOf .nop s.params s.latch.ops s.dmem = .ok { dmem := [], regs := [] } :=
    finish_regs rfl
  rw [exec_eq_complete, hbody, complete_ok]
  rfl

end Sys2Proof.Machine
end

section
/-! SUPPORT. Steps over written DMEM: with no hardware reset ahead the machine never stops, and
every DMEM word stays written. -/

namespace Sys2Proof.Machine

open Sys2Proof

/-! ### No host action and no completion takes a word's value away -/

/-- A written word stays written through the writes of a completion. -/
theorem Memory.isSome_readWord_writeAll (m : Memory) (ws : List (Nat × Poly)) (j : Nat)
    (h : (m.readWord j).isSome = true) : ((m.writeAll ws).readWord j).isSome = true := by
  induction ws generalizing m with
  | nil => exact h
  | cons w ws ih => exact ih _ (Memory.isSome_readWord_writeSeq m _ _ j h)

/-- A host action takes nothing from the list of those still to come; at most a WAIT goes back on
it. -/
theorem host_inputs {s t : State} {i : Input} (h : s.host i = .next t) :
    t.inputs = s.inputs ∨ t.inputs = .wait :: s.inputs := by
  rcases host_effect h with hi | ⟨v, -, rfl⟩ | ⟨v, -, rfl⟩ | ⟨-, off, k, v, -, -, -, rfl⟩ | ht
  · rcases reset_cases hi h with rfl | rfl
    · exact .inl rfl
    · exact .inl rfl
  · exact .inl rfl
  · refine .inl ?_
    simp only [State.respond_inputs, State.writeCmd]
    split <;> rfl
  · exact .inl rfl
  · exact ht.inputs

/-- A host action other than a hardware reset takes no word's value away (R86, R341). -/
theorem host_keeps_written {s t : State} {i : Input} (hi : i ≠ .hardReset)
    (h : s.host i = .next t) {j : Nat} (hj : (s.dmem.readWord j).isSome = true) :
    (t.dmem.readWord j).isSome = true := by
  rcases host_dmem h with hsame | hreset | ⟨-, off, k, v, -, -, hdmem⟩
  · rwa [hsame]
  · exact absurd hreset hi
  · rw [hdmem]
    exact Memory.isSome_readWord_writeWord _ _ _ _ hj

/-! ### The step -/

/-- DMEM is written, and no hardware reset is ahead that would take that away. -/
structure State.StaysWritten (s : State) : Prop where
  written : s.allWritten
  ahead : ∀ i ∈ s.inputs, i ≠ .hardReset

/-- A step with no hardware reset ahead keeps DMEM written (R341, R342). -/
theorem staysWritten_of_step {s t : State} (hs : s.StaysWritten) (h : step s = .next t) :
    t.StaysWritten := by
  obtain ⟨hwritten, hahead⟩ := hs
  have hparams : t.params = s.params := (step_keeps h).params
  suffices hkeep : (∀ j, (s.dmem.readWord j).isSome = true → (t.dmem.readWord j).isSome = true) ∧
      ∀ i ∈ t.inputs, i ≠ .hardReset from
    ⟨fun j hj => hkeep.1 j (hwritten j (hparams ▸ hj)), hkeep.2⟩
  cases hturn : s.enginesTurn with
  | true =>
    rcases completion_cases hturn h with ⟨w, rfl⟩ | ⟨code, info, rfl⟩
    · simp only [State.commit_dmem, State.commit_inputs]
      exact ⟨Memory.isSome_readWord_writeAll _ _, hahead⟩
    · exact ⟨fun _ => id, hahead⟩
  | false =>
    rcases hostStep_cases hturn h with rfl | ⟨i, rest, hin, hhost⟩
    · exact ⟨fun _ => id, hahead⟩
    · rw [hin, List.forall_mem_cons] at hahead
      obtain ⟨hi, hrest⟩ := hahead
      refine ⟨fun j => host_keeps_written hi hhost, ?_⟩
      rcases host_inputs hhost with hinputs | hinputs
      · rwa [hinputs]
      · rw [hinputs, List.forall_mem_cons]
        exact ⟨nofun, hrest⟩

/-- A step over written DMEM is not refused (R93, I2), and no step faults (R300, R315). -/
theorem step_next_of_allWritten {s : State} (hwritten : s.allWritten) :
    ∃ t, step s = .next t := by
  cases h : step s with
  | next t => exact ⟨t, rfl⟩
  | fault f => cases f
  | refused r =>
    obtain ⟨w, -, hw, hnone, -⟩ := (stepStopsOnlyAtAnUnwrittenWord s).2 r h
    have := hwritten w hw
    rw [hnone] at this
    cases this

/-- Settles O59: a step stops only at an unwritten word, so it goes on, and keeps DMEM written. -/
theorem stepsOverWrittenDmemGoOnAndKeepItWritten :
    Obligations.StepsOverWrittenDmemGoOnAndKeepItWritten := by
  intro s hwritten hahead
  obtain ⟨t, ht⟩ := step_next_of_allWritten hwritten
  obtain ⟨hwritten', hahead'⟩ := staysWritten_of_step ⟨hwritten, hahead⟩ ht
  exact ⟨t, ht, hwritten', hahead'⟩

/-- Settles O27, by induction on the number of steps. -/
theorem runsOverWrittenDmemAreSafe : Obligations.RunsOverWrittenDmemAreSafe := by
  intro s hwritten hahead k
  induction k generalizing s with
  | zero => exact ⟨s, rfl⟩
  | succ k ih =>
    obtain ⟨t, ht, hwritten', hahead'⟩ :=
      stepsOverWrittenDmemGoOnAndKeepItWritten s hwritten hahead
    obtain ⟨u, hu⟩ := ih t hwritten' hahead'
    refine ⟨u, ?_⟩
    simp only [Host.Core.run]
    rw [show core.step s = .next t from ht]
    exact hu

end Sys2Proof.Machine
end

section
/-! SUPPORT. The report of a completion: an error changes nothing else (R304), and what STATUS and
ERR_INFO read (R301, R302). -/

namespace Sys2Proof.Machine

open Sys2Proof

/-! ### What a completion reports -/

/-- A completion that reports an error is the error report and nothing else (R304). -/
theorem exec_failed {i : Instr} {s t : State} (h : exec i s = .next t) (herr : t.err ≠ .none) :
    t = s.failedWith t.err t.errInfo ∧
      bodyOf i s.params s.latch.ops s.dmem = .error (.error t.err t.errInfo) := by
  rw [exec_eq_complete] at h
  rcases complete_next h with ⟨w, -, rfl⟩ | ⟨code, info, he, rfl⟩
  · exact absurd rfl herr
  · exact ⟨rfl, he⟩

/-- Settles O29: a completion with an error is `failedWith`. -/
theorem failedCommandChangesOnlyTheReport : Obligations.FailedCommandChangesOnlyTheReport :=
  fun _ _ _ h herr => (exec_failed h herr).1

/-! ### The numbers of the tables -/

/-- ERR and ERR_INFO read 0 (R301, R302). -/
abbrev ReportReadsZero (t : State) : Prop :=
  t.readReg .errInfo = 0#32 ∧ (t.readReg .status).extractLsb' 8 4 = 0#4

theorem reportReadsZero_of_clear {t : State} (herr : t.err = .none) (hinfo : t.errInfo = .none) :
    ReportReadsZero t := by
  constructor
  · rw [State.readReg, State.errInfoWord, hinfo]
    rfl
  · apply BitVec.eq_of_toNat_eq
    rw [State.readReg, statusWord_errField, herr]
    rfl

/-- A completion without an error leaves ERR_INFO clear (R61). -/
theorem exec_errInfo_of_success {i : Instr} {s t : State} (h : exec i s = .next t)
    (herr : t.err = .none) : t.errInfo = .none := by
  obtain ⟨w, hw⟩ := bodyOf_ok_of_exec h herr
  rw [exec_eq_complete, hw] at h
  cases h
  rfl

/-- Settles O58: the fields by `statusWord_errField` and the number of each identifier; acceptance,
success and reset clear ERR and ERR_INFO. -/
theorem errorReportReadsTheNumbersOfTheTables :
    Obligations.ErrorReportReadsTheNumbersOfTheTables := by
  refine ⟨fun s => ⟨?codes, ?codeRange, ?infos, ?infoRange⟩, fun s t v hidle h => ?acceptance,
    fun i s t h herr => reportReadsZero_of_clear herr (exec_errInfo_of_success h herr),
    fun s t i hi h => ?reset⟩
  case codes =>
    have hrows : ∀ row ∈ [(ErrCode.none, 0), (.illegalOpcode, 1), (.noInverse, 2), (.divByZero, 3),
        (.operandRange, 4), (.overflow, 5), (.bounds, 6)], row.1.code = row.2 := by decide
    intro row hrow herr
    rw [State.readReg, statusWord_errField, herr, hrows row hrow]
  case codeRange =>
    rw [State.readReg, statusWord_errField]
    cases s.err <;> decide
  case infos =>
    have hrows : ∀ row ∈ [(Info.none, 0x00000000#32), (.a, 0x00000001#32), (.b, 0x00000002#32),
        (.d, 0x00000003#32), (.e, 0x00000004#32), (.mod, 0x00000008#32), (.ringN, 0x00000009#32),
        (.width, 0x0000000A#32), (.sa, 0x0000000B#32), (.sb, 0x0000000C#32)],
        BitVec.ofNat 32 row.1.code = row.2 := by decide
    intro row hrow hinfo
    rw [State.readReg, State.errInfoWord, hinfo, hrows row hrow]
  case infoRange =>
    rw [State.readReg, State.errInfoWord]
    cases s.errInfo <;> decide
  case acceptance =>
    cases h.symm.trans (serve_writeCmd s v)
    rw [State.writeCmd_idle hidle]
    exact reportReadsZero_of_clear rfl rfl
  case reset =>
    rcases reset_cases hi h with rfl | rfl
    · exact reportReadsZero_of_clear rfl rfl
    · exact reportReadsZero_of_clear rfl rfl

end Sys2Proof.Machine
end

section
/-! SUPPORT. The checks of a command, where they fail: scalar operands, sources, contents (R307),
and sources and destinations that leave DMEM (R309). -/

namespace Sys2Proof.Machine

open Sys2Proof

/-- A command whose body raises an error reports it and does nothing else (R304). -/
theorem exec_of_error {i : Instr} {s : State} {code : ErrCode} {info : Info}
    (h : bodyOf i s.params s.latch.ops s.dmem = .error (.error code info)) :
    exec i s = .next (s.failedWith code info) := by
  rw [exec_eq_complete, h]
  rfl

/-! ### Checks that fail (R121, R123, R307) -/

theorem need_of_not {p : Prop} [Decidable p] (h : ¬ p) (code : ErrCode) (info : Info) :
    need (decide p) code info = .error (.error code info) := by
  rw [decide_eq_false h, need_false]

theorem needMod_out {o : Operands} {lo : Int} (h : s32 o.mod < lo) :
    needMod o lo = .error (.error .operandRange .mod) :=
  need_of_not h.not_ge ..

theorem needPow2Mod_ok {o : Operands} (h : ∃ k, 1 ≤ k ∧ s32 o.mod = 2 ^ k) :
    needPow2Mod o = .ok () := by
  rw [needPow2Mod, Operands.modulus, (isPow2_iff _).2 h, need_true]

theorem needPow2Mod_out {o : Operands} (h : ¬ ∃ k, 1 ≤ k ∧ s32 o.mod = 2 ^ k) :
    needPow2Mod o = .error (.error .operandRange .mod) := by
  rw [needPow2Mod, Operands.modulus, Bool.eq_false_iff.2 (mt (isPow2_iff _).1 h), need_false]

theorem needN_out {s : State} (h : ¬ DegreeOk s) :
    needN s.params s.latch.ops = .error (.error .operandRange .ringN) := by
  rw [needN, ← Bool.decide_and]
  exact need_of_not h ..

theorem needW_out {s : State} (h : ¬ WidthOk s) :
    needW s.latch.ops = .error (.error .operandRange .width) := by
  rw [needW, ← Bool.decide_and]
  exact need_of_not h ..

theorem needBytes_out {bs : Poly} (h : ∃ b ∈ bs, b < 0 ∨ 255 < b) :
    needBytes bs = .error (.error .operandRange .a) := by
  obtain ⟨b, hb, hout⟩ := h
  have hall : bs.all isByte = false :=
    List.all_eq_false.2 ⟨b, hb, by simp only [isByte, Bool.and_eq_true, decide_eq_true_eq]; omega⟩
  rw [needBytes, hall, need_false]

theorem needTernary_out {ts : Poly} (h : ∃ t ∈ ts, t < -1 ∨ 1 < t) :
    needTernary ts = .error (.error .operandRange .a) := by
  obtain ⟨t, ht, hout⟩ := h
  have hall : ts.all isTernary = false :=
    List.all_eq_false.2
      ⟨t, ht, by simp only [isTernary, Bool.and_eq_true, decide_eq_true_eq]; omega⟩
  rw [needTernary, hall, need_false]

/-- Settles O32: in each row the checks before that row's pass, and its own fails. -/
theorem operandRangeIsReportedRowByRow : Obligations.OperandRangeIsReportedRowByRow := by
  refine ⟨fun s ha => exec_of_error ?egcdA, fun s ha hb => exec_of_error ?egcdB,
    fun s hm i hi => exec_of_error ?mod1, fun s hm hm2 ha => exec_of_error ?modinvA,
    fun s hn => exec_of_error ?convN, fun s hm i hi => exec_of_error ?mod2,
    fun s hm hn => exec_of_error ?invpN, fun s hq => exec_of_error ?inv2kMod,
    fun s hq hn => exec_of_error ?inv2kN, fun s hw i hi => exec_of_error ?width,
    fun s bs hbs hbytes => exec_of_error ?b3enc,
    fun s bs hw hbs hbytes => exec_of_error ?unpack,
    fun s ts hts hternary => exec_of_error ?b3dec⟩
  case egcdA => rw [bodyOf, egcdBody, need_of_not ha.not_ge]; rfl
  case egcdB => rw [bodyOf, egcdBody, decide_eq_true ha, need_true, need_of_not hb.not_ge]; rfl
  case mod1 =>
    simp only [List.mem_cons, List.not_mem_nil, or_false] at hi
    rcases hi with rfl | rfl | rfl
    · rw [bodyOf, modinvBody, needMod_out hm]; rfl
    · rw [bodyOf, pmodBody, needMod_out hm]; rfl
    · rw [bodyOf, bmodBody, needMod_out hm]; rfl
  case modinvA =>
    rw [bodyOf, modinvBody, needMod_ok hm, ← Bool.decide_or, need_of_not (by
      rw [Operands.modulus]
      omega)]
    rfl
  case convN => rw [bodyOf, convBody, needN_out hn]; rfl
  case mod2 =>
    simp only [List.mem_cons, List.not_mem_nil, or_false] at hi
    rcases hi with rfl | rfl
    · rw [bodyOf, divpBody, needMod_out hm]; rfl
    · rw [bodyOf, invpBody, needMod_out hm]; rfl
  case invpN => rw [bodyOf, invpBody, needMod_ok hm, needN_out hn]; rfl
  case inv2kMod => rw [bodyOf, inv2kBody, needPow2Mod_out hq]; rfl
  case inv2kN => rw [bodyOf, inv2kBody, needPow2Mod_ok hq, needN_out hn]; rfl
  case width =>
    simp only [List.mem_cons, List.not_mem_nil, or_false] at hi
    rcases hi with rfl | rfl
    · rw [bodyOf, packBody, needW_out hw]; rfl
    · rw [bodyOf, unpackBody, needW_out hw]; rfl
  case b3enc =>
    rw [bodyOf, b3encBody, readSrc_of_sourceIs hbs]
    simp only [bind, Except.bind, needBytes_out hbytes]
  case unpack =>
    rw [bodyOf, unpackBody, needW_ok hw, readSrc_of_sourceIs hbs]
    simp only [bind, Except.bind, needBytes_out hbytes]
  case b3dec =>
    rw [bodyOf, b3decBody, readSrc_of_sourceIs hts]
    simp only [bind, Except.bind, needTernary_out hternary]

/-! ### Sources and destinations (R92, R122, R124, R309) -/

/-- A command that reads A alone and has legal scalar operands goes on to read it (R303). -/
theorem bodyOf_reads_a {i : Instr} {s : State} (ha : readsA i = true) (hb : readsB i = false)
    (hok : paramsOk i s) : ∃ k, bodyOf i s.params s.latch.ops s.dmem =
      readSrc s.params s.latch.ops s.dmem .a >>= k := by
  cases i
  case nop | egcd | modinv => cases ha
  case add | sub | conv | divp => cases hb
  case trim => exact ⟨_, rfl⟩
  case pmod => rw [bodyOf, pmodBody, needMod_ok hok]; exact ⟨_, rfl⟩
  case invp => rw [bodyOf, invpBody, needMod_ok hok.1, needN_ok hok.2]; exact ⟨_, rfl⟩
  case inv2k => rw [bodyOf, inv2kBody, needPow2Mod_ok hok.1, needN_ok hok.2]; exact ⟨_, rfl⟩
  case bmod => rw [bodyOf, bmodBody, needMod_ok hok]; exact ⟨_, rfl⟩
  case b3enc => exact ⟨_, rfl⟩
  case b3dec => exact ⟨_, rfl⟩
  case pack => rw [bodyOf, packBody, needW_ok hok]; exact ⟨_, rfl⟩
  case unpack => rw [bodyOf, unpackBody, needW_ok hok]; exact ⟨_, rfl⟩

/-- A command that reads B and has legal scalar operands goes on to read A and B (R303). -/
theorem bodyOf_reads_b {i : Instr} {s : State} (hb : readsB i = true) (hok : paramsOk i s) :
    ∃ k, bodyOf i s.params s.latch.ops s.dmem = readSrcs s.params s.latch.ops s.dmem >>= k := by
  cases i
  case add => exact ⟨_, rfl⟩
  case sub => exact ⟨_, rfl⟩
  case conv => rw [bodyOf, convBody, needN_ok hok]; exact ⟨_, rfl⟩
  case divp => rw [bodyOf, divpBody, needMod_ok hok]; exact ⟨_, rfl⟩
  all_goals cases hb

/-- The result the rules give a command, other than an inverse, is what its body hands to
`Finish`. -/
theorem bodyOf_of_yields {i : Instr} {s : State} {d : Poly} (hinvp : i ≠ .invp)
    (hinv2k : i ≠ .inv2k) (h : Yields i s d) :
    bodyOf i s.params s.latch.ops s.dmem = finish s.params s.latch.ops (some d) none [] := by
  cases i
  case nop | egcd | modinv | divp => exact h.2.elim
  case invp => exact absurd rfl hinvp
  case inv2k => exact absurd rfl hinv2k
  case trim => exact bodyOf_trim h
  case add => exact bodyOf_add h
  case sub => exact bodyOf_sub h
  case conv => exact bodyOf_conv h
  case pmod => exact bodyOf_pmod h
  case bmod => exact bodyOf_bmod h
  case b3enc => exact bodyOf_b3enc h
  case b3dec => exact bodyOf_b3dec h
  case pack => exact bodyOf_pack h
  case unpack => exact bodyOf_unpack h

/-- `Finish` of a quotient that has no room (R124). -/
theorem finish_de_bounds_d {par : Params} {o : Operands} {d e : Poly} (hd : AllFit d)
    (he : AllFit e) (bd : ¬ dstOk par o .d (some d)) :
    finish par o (some d) (some e) [] = .error (.error .bounds .d) := by
  unfold finish
  rw [fitsSeq_some.2 hd, fitsSeq_some.2 he, checkDst_bad bd]
  rfl

/-- `Finish` of a quotient that has room and a remainder that has none (R124). -/
theorem finish_de_bounds_e {par : Params} {o : Operands} {d e : Poly} (hd : AllFit d)
    (he : AllFit e) (bd : dstOk par o .d (some d)) (be : ¬ dstOk par o .e (some e)) :
    finish par o (some d) (some e) [] = .error (.error .bounds .e) := by
  unfold finish
  rw [fitsSeq_some.2 hd, fitsSeq_some.2 he, checkDst_ok bd, checkDst_bad be]
  rfl

theorem inv2k_of_invpoly_error {f : Poly} {n : Nat} {e : Stop} (h : invpoly f 2 n = .error e)
    (q : Int) : inv2k f q n = .error e := by
  simp only [inv2k, h]

/-- An inversion answers n coefficients that fit, or NO_INVERSE. -/
def FitsOrNone (n : Nat) (r : Except Stop Poly) : Prop :=
  (∃ v, r = .ok v ∧ v.length = n ∧ AllFit v) ∨ r = raise .noInverse .none

theorem FitsOrNone.of_ok {n : Nat} {r : Except Stop Poly} {v : Poly} (h : FitsOrNone n r)
    (hv : r = .ok v) : v.length = n ∧ AllFit v := by
  rcases h with ⟨v', hv', hfit⟩ | hnone
  · cases hv.symm.trans hv'
    exact hfit
  · cases hv.symm.trans hnone

/-- The inverse of `invpoly` fits, since its modulus is the value of a register (R202). -/
theorem invpoly_fitsOrNone {w : Word} (hm : 2 ≤ s32 w) {n : Nat} (hn : 1 ≤ n) (x : Poly) :
    FitsOrNone n (invpoly x (s32 w) n) := by
  obtain ⟨m, hwm, hm2⟩ := exists_modulus hm
  have hsound := invpoly_sound hm2 hn x
  rw [← hwm] at hsound
  rcases hsound with ⟨v, hv, hlen, hrange, -⟩ | hnone
  · rw [← hwm] at hrange
    exact .inl ⟨v, hv, hlen, allFit_of_range (w := w) (by omega) (by omega) hrange⟩
  · exact .inr hnone

/-- The inverse of `inv2k` fits, since its modulus is the value of a register (R205). -/
theorem inv2k_fitsOrNone {w : Word} (hq : ∃ k, 1 ≤ k ∧ s32 w = 2 ^ k) {n : Nat} (hn : 1 ≤ n)
    (x : Poly) : FitsOrNone n (inv2k x (s32 w) n) := by
  obtain ⟨k, hk, hq⟩ := hq
  replace hq : s32 w = (2 ^ k : Nat) := by rw [hq, Nat.cast_pow, Nat.cast_ofNat]
  rcases invpoly_sound le_rfl hn x with ⟨g, hg, -⟩ | hnone
  · obtain ⟨v, hv, hlen, hrange, -⟩ := inv2k_inverts hk hn (le_thirty_of_two_pow hq) hg
    rw [← hq] at hv hrange
    have hpos : 0 ≤ s32 w := by rw [hq]; exact Int.natCast_nonneg _
    exact .inl ⟨v, hv, hlen, allFit_of_range (w := w) (by omega) (by omega) hrange⟩
  · exact .inr (inv2k_of_invpoly_error hnone _)

/-- Settles O33: the sources fail in `readSrc` or `readSrcs`, the destinations in `Finish`. -/
theorem boundsAreReportedForSourcesAndDestinations :
    Obligations.BoundsAreReportedForSourcesAndDestinations := by
  refine ⟨fun i s ha hok hout => exec_of_error ?sourceA,
    fun i s hb hok hin hout => exec_of_error ?sourceB,
    fun i s d hinvp hinv2k hyields hfit hroom => exec_of_error ?result,
    fun s x v hx hroom => ⟨fun hok h => exec_of_error ?invp, fun hok h => exec_of_error ?inv2k⟩,
    fun s f g q r e hm hf hg h => ?divp⟩
  case sourceA =>
    cases hb : readsB i with
    | false =>
      obtain ⟨k, hk⟩ := bodyOf_reads_a ha hb hok
      rw [hk, readSrc_out hout]
      rfl
    | true =>
      obtain ⟨k, hk⟩ := bodyOf_reads_b hb hok
      rw [hk, readSrcs_out_a hout]
      rfl
  case sourceB =>
    obtain ⟨k, hk⟩ := bodyOf_reads_b hb hok
    rw [hk, readSrcs_out_b hin hout]
    rfl
  case result =>
    rw [bodyOf_of_yields hinvp hinv2k hyields]
    exact finish_d_bounds hfit hroom
  case invp =>
    obtain ⟨hlen, hfit⟩ := (invpoly_fitsOrNone hok.1 hok.2.1 x).of_ok h
    rw [bodyOf_invp hok hx, h]
    exact finish_d_bounds hfit (by rwa [dstOk, hlen])
  case inv2k =>
    obtain ⟨hlen, hfit⟩ := (inv2k_fitsOrNone hok.1 hok.2.1 x).of_ok h
    rw [bodyOf_inv2k hok hx h]
    exact finish_d_bounds hfit (by rwa [dstOk, hlen])
  case divp =>
    have ⟨_, _, _, _, _, _, hqrange, hrrange, _⟩ := h
    have hq : AllFit q := allFit_of_range (w := s.latch.ops.mod) (by omega) (by omega) hqrange
    have hr : AllFit r := allFit_of_range (w := s.latch.ops.mod) (by omega) (by omega) hrrange
    refine ⟨fun hroom => exec_of_error ?_, fun hroomD hroomE => exec_of_error ?_⟩
    · rw [bodyOf_divp hm hf hg h]
      exact finish_de_bounds_d hq hr hroom
    · rw [bodyOf_divp hm hf hg h]
      exact finish_de_bounds_e hq hr hroomD hroomE

end Sys2Proof.Machine
end

section
/-! SUPPORT. Inverses that do not exist and the zero divisor: where `modinv`, `divmodp`, `invpoly`
and `inv2k` stop (R142, R170, R200, R203; R305, R306). -/

namespace Sys2Proof.Machine

open Sys2Proof

/-! ### Sequences that are zero modulo m -/

theorem trim_eq_nil_iff {p : Poly} : trim p = [] ↔ ∀ c ∈ p, c = 0 := by
  induction p with
  | nil => simp
  | cons c p ih =>
    by_cases h : c = 0
    · simp [h, ih]
    · simp [trim_cons_of_ne h, h]

theorem trim_pmod_eq_nil_iff {p : Poly} {m : Int} :
    trim (pmod p m) = [] ↔ ∀ c ∈ p, c % m = 0 := by
  rw [trim_eq_nil_iff, pmod, List.forall_mem_map]

/-- 0 is no unit. -/
theorem gcd_headD_nil_ne_one {m : Nat} (hm : 2 ≤ m) : Int.gcd (([] : Poly).headD 0) m ≠ 1 := by
  rw [List.headD_nil, Int.gcd_zero_left, Int.natAbs_natCast]
  omega

/-! ### Where the arithmetic stops -/

/-- `modinv` of a number in its domain that is not coprime to m has no answer (R142). -/
theorem modinv_of_gcd_ne_one {a m : Int} (hm : 1 ≤ m) (hm2 : m ≠ 2) (ha : -m ≤ a)
    (hgcd : Int.gcd a m ≠ 1) : modinv a m = raise .noInverse .none := by
  obtain ⟨⟨g, x, y⟩, h⟩ : ∃ r, egcd (if a < 0 then a + m else a).toNat m.toNat = r := ⟨_, rfl⟩
  obtain ⟨hg, -⟩ := egcd_bezout h
  have hg1 : g ≠ 1 := by
    rw [hg, ← Int.gcd_natCast_natCast, Int.toNat_of_nonneg (show 0 ≤ m by omega), ← Int.gcd_emod,
      modinv_normalised_modEq ha, Int.gcd_emod]
    exact_mod_cast hgcd
  rw [modinv, if_neg hm2, h]
  exact if_neg hg1

/-- A divisor that is zero modulo p (R170). -/
theorem divmodp_of_zero (f : Poly) {g : Poly} {p : Int} (h : ∀ c ∈ g, c % p = 0) :
    divmodp f g p = raise .divByZero .b := by
  rw [divmodp, trim_pmod_eq_nil_iff.2 h]
  rfl

/-- A divisor whose leading coefficient modulo m is no unit (R170). -/
theorem divmodp_of_not_coprime {m : Nat} (hm : 2 ≤ m) (f : Poly) {g : Poly}
    (hne : trim (pmod g m) ≠ []) (hgcd : Int.gcd ((trim (pmod g m)).headD 0) m ≠ 1) :
    divmodp f g m = raise .noInverse .none := by
  have hreduced := reduced_trim_pmod (m := m) (by omega) g
  rw [divmodp]
  obtain ⟨c, p, hcons⟩ := List.exists_cons_of_ne_nil hne
  rw [hcons] at hreduced hgcd ⊢
  obtain ⟨hpos, hlt⟩ := hreduced.head_range
  rw [divReduced, modinv_of_not_coprime hpos hlt hgcd]
  rfl

/-- An input whose leading coefficient modulo m is no unit, 0 for an input that is zero modulo m
(R200, R202 item 4). -/
theorem invpoly_of_not_coprime {m : Nat} (hm : 2 ≤ m) (n : Nat) {x : Poly}
    (hgcd : Int.gcd ((trim (pmod x m)).headD 0) m ≠ 1) :
    invpoly x m n = raise .noInverse .none :=
  invLoop_of_not_coprime hm (reduced_trim_pmod (by omega) x) hgcd _

/-- An input with no inverse (R202 items 1 and 4): what `invpoly` answers would be one. -/
theorem invpoly_of_no_inverse {m n : Nat} (hm : 2 ≤ m) (hn : 1 ≤ n) {x : Poly}
    (h : ∀ d, ¬ InverseOf n m 0 (m - 1) x d) : invpoly x m n = raise .noInverse .none := by
  rcases invpoly_sound hm hn x with ⟨v, -, hv⟩ | hnone
  · exact absurd hv (h v)
  · exact hnone

/-! ### The bodies up to the arithmetic -/

theorem bodyOf_modinv {s : State} (hok : paramsOk .modinv s) :
    bodyOf .modinv s.params s.latch.ops s.dmem =
      modinv (s32 s.latch.ops.sa) (s32 s.latch.ops.mod) >>= fun r =>
        finish s.params s.latch.ops none none [(.r0, r)] := by
  obtain ⟨hm, ha⟩ := hok
  rw [bodyOf, modinvBody, needMod_ok hm, ← Bool.decide_or, Operands.modulus, decide_eq_true ha,
    need_true]
  rfl

theorem bodyOf_divp_of_sources {s : State} {f g : Poly} (hok : paramsOk .divp s)
    (hf : SourceIs s .a f) (hg : SourceIs s .b g) :
    bodyOf .divp s.params s.latch.ops s.dmem =
      divmodp f g (s32 s.latch.ops.mod) >>= fun r =>
        finish s.params s.latch.ops (some r.1) (some r.2) [] := by
  rw [bodyOf, divpBody, needMod_ok hok, readSrcs_of_sourceIs hf hg]
  rfl

theorem bodyOf_inv2k_of_source {s : State} {x : Poly} (hok : paramsOk .inv2k s)
    (hx : SourceIs s .a x) :
    bodyOf .inv2k s.params s.latch.ops s.dmem =
      inv2k x (s32 s.latch.ops.mod) (u32 s.latch.ops.ringN) >>= fun v =>
        finish s.params s.latch.ops (some v) none [] := by
  obtain ⟨hq, hn⟩ := hok
  rw [bodyOf, inv2kBody, needPow2Mod_ok hq, needN_ok hn, readSrc_of_sourceIs hx]
  rfl

/-- INVP reports NO_INVERSE where `invpoly` has no answer (R201). -/
theorem exec_invp_of_invpoly {s : State} {x : Poly} (hok : paramsOk .invp s) (hx : SourceIs s .a x)
    (h : invpoly x (s32 s.latch.ops.mod) (u32 s.latch.ops.ringN) = raise .noInverse .none) :
    exec .invp s = .next (s.failedWith .noInverse .none) :=
  exec_of_error (by rw [bodyOf_invp hok hx, h]; rfl)

/-- Settles O36: in each case the arithmetic has no answer. -/
theorem noInverseIsReportedWhereNoneExists : Obligations.NoInverseIsReportedWhereNoneExists := by
  refine ⟨fun s hok hm2 hgcd => exec_of_error ?modinv,
    fun s f g e hok hf hg _ htop hne hgcd => exec_of_error ?divp,
    fun s x hok hx _ hnone => exec_invp_of_invpoly hok hx ?invpPrime,
    fun s x hok hx hnone => exec_of_error ?inv2k,
    fun s x hok hx hzero => exec_invp_of_invpoly hok hx ?invpZero,
    fun s x e hok hx _ htop hne hgcd => exec_invp_of_invpoly hok hx ?invpLeading⟩
  case modinv =>
    rw [bodyOf_modinv hok, modinv_of_gcd_ne_one hok.1 hm2 (hok.2.resolve_left hm2) hgcd]
    rfl
  case divp =>
    obtain ⟨m, hm, hm2⟩ := exists_modulus hok
    rw [hm] at htop hne hgcd
    obtain ⟨hlen, hhead⟩ := trim_pmod_of_degree htop hne
    rw [bodyOf_divp_of_sources hok hf hg, hm, divmodp_of_not_coprime hm2 f
      (List.ne_nil_of_length_eq_add_one hlen) (by rwa [hhead, Int.gcd_emod])]
    rfl
  case invpPrime =>
    obtain ⟨m, hm, hm2⟩ := exists_modulus hok.1
    rw [hm] at hnone ⊢
    exact invpoly_of_no_inverse hm2 hok.2.1 hnone
  case inv2k =>
    have h := invpoly_of_no_inverse (m := 2) le_rfl hok.2.1 hnone
    rw [bodyOf_inv2k_of_source hok hx, inv2k_of_invpoly_error h]
    rfl
  case invpZero =>
    obtain ⟨m, hm, hm2⟩ := exists_modulus hok.1
    rw [hm] at hzero ⊢
    refine invpoly_of_not_coprime hm2 _ ?_
    rw [trim_pmod_eq_nil_iff.2 hzero]
    exact gcd_headD_nil_ne_one hm2
  case invpLeading =>
    obtain ⟨m, hm, hm2⟩ := exists_modulus hok.1
    rw [hm] at htop hne hgcd ⊢
    refine invpoly_of_not_coprime hm2 _ ?_
    rwa [(trim_pmod_of_degree htop hne).2, Int.gcd_emod]

end Sys2Proof.Machine
end

section
/-! SUPPORT. What each command blames on which operand: OVERFLOW is ADD's, SUB's and CONV's, always
on D (R308), and DIV_BY_ZERO is DIVP's, on a divisor that is zero modulo p (R306). The other
commands answer results that fit, by the ranges of their rules. -/

namespace Sys2Proof.Machine

open Sys2Proof

/-! ### Ranges of the results -/

/-- The words of DMEM hold numbers that fit (R11, R91). -/
theorem allFit_of_holds {m : Memory} {addr : Nat} {vs : Poly} (h : m.holds addr vs) :
    AllFit vs := by
  intro v hv
  obtain ⟨k, hk, rfl⟩ := List.getElem_of_mem hv
  have hword := h k hk
  rw [List.getElem?_eq_getElem hk, Option.map_eq_some_iff] at hword
  obtain ⟨w, -, hw⟩ := hword
  rw [← hw]
  exact ⟨BitVec.le_toInt w, s32_le w⟩

theorem allFit_minNumeral {b : Nat} {off : Int} {n : Nat} (hb : 0 < b) (hb256 : b ≤ 256)
    (hoff : off = 0 ∨ off = 1) : AllFit (minNumeral b off n) := by
  intro v hv
  obtain ⟨d, hd, rfl⟩ := List.mem_map.1 hv
  obtain ⟨j, -, rfl⟩ := List.mem_map.1 hd
  have := Nat.mod_lt (n / b ^ (numDigits b n n - 1 - j)) hb
  omega

/-- A field of w bits denotes a number below 2^w. -/
theorem ofBits_lt {bs : List Nat} (h : ∀ b ∈ bs, b < 2) : ofBits bs < 2 ^ bs.length := by
  rw [← bitsOf_ofBits rfl h, ofBits_bitsOf, length_bitsOf]
  exact Nat.mod_lt _ (Nat.two_pow_pos _)

theorem mem_fields_lt {w count n : Nat} {bs : List Nat} (h : ∀ b ∈ bs, b < 2)
    (hn : n ∈ fields w count bs) : n < 2 ^ w := by
  induction count generalizing bs with
  | zero => cases hn
  | succ count ih =>
    rcases List.mem_cons.1 hn with rfl | hn
    · exact (ofBits_lt fun b hb => h b (List.mem_of_mem_take hb)).trans_le
        (Nat.pow_le_pow_right two_pos (List.length_take_le ..))
    · exact ih (fun b hb => h b (List.mem_of_mem_drop hb)) hn

/-- Fields of up to 31 bits fit (R246, R248). -/
theorem allFit_fields {w count : Nat} {bs : List Nat} (hw : w ≤ 31) (h : ∀ b ∈ bs, b < 2) :
    AllFit ((fields w count bs).map (fun n : Nat => (n : Int))) := by
  intro v hv
  obtain ⟨n, hn, rfl⟩ := List.mem_map.1 hv
  have hlt := (mem_fields_lt h hn).trans_le (Nat.pow_le_pow_right two_pos hw)
  omega

theorem allFit_packBits (vs : Poly) (w : Nat) : AllFit (packBits vs w) := by
  rw [packBits_eq_fields]
  refine allFit_fields (by decide) fun b hb => ?_
  rw [← valueBits_packBits] at hb
  exact valueBits_lt_two hb

theorem allFit_unpackBits (bs : Poly) {w : Nat} (hw : w ≤ 31) : AllFit (unpackBits bs w) := by
  rw [unpackBits_eq_fields]
  refine allFit_fields hw fun b hb => ?_
  obtain ⟨v, -, hv⟩ := List.mem_flatMap.1 hb
  exact bitsOf_lt_two hv

theorem Reduced.allFit {w : Word} {v : Poly} {m : Nat} (hm : s32 w = m) (h : Reduced m v) :
    AllFit v :=
  allFit_of_range (w := w) (by omega) (by omega) h.range

theorem allFit_pmod {w : Word} (hw : 1 ≤ s32 w) (p : Poly) : AllFit (pmod p (s32 w)) := by
  obtain ⟨-, hrange, -⟩ := residuesOf_pmod hw p
  exact allFit_of_range (w := w) (by omega) (by omega) hrange

theorem allFit_bmod {w : Word} (hw : 1 ≤ s32 w) (p : Poly) : AllFit (bmod p (s32 w)) := by
  obtain ⟨-, hrange, -⟩ := residuesOf_bmod hw p
  exact allFit_of_range (w := w) (by omega) (by omega) hrange

/-! ### Which errors a computation raises -/

/-- The computation ends with a value that satisfies `P`, with an error that `E` allows, or at an
unwritten source word. Where `Ends` and `Runs` leave the values open, a range of a value is here
what a later error rests on, so `bind` passes `P` on. -/
def Raises {α : Type} (E : ErrCode → Info → Prop) (P : α → Prop) : Except Stop α → Prop
  | .ok a => P a
  | .error (.error code info) => E code info
  | .error (.unwritten _) => True

theorem Raises.bind {α β : Type} {E : ErrCode → Info → Prop} {P : α → Prop} {Q : β → Prop}
    {x : Except Stop α} {f : α → Except Stop β} (hx : Raises E P x)
    (hf : ∀ a, P a → Raises E Q (f a)) : Raises E Q (x >>= f) := by
  cases x with
  | ok a => exact hf a hx
  | error e => cases e <;> exact hx

/-- Source B is zero modulo p, if it can be read (R306). -/
def DivisorZero (o : Operands) (m : Memory) : Prop :=
  ∀ g, m.readSeq (o.srcAddr .b) (o.srcLen .b) = .ok g → ∀ c ∈ g, c % o.modulus = 0

/-- Where OVERFLOW and DIV_BY_ZERO come from (R306, R308); the other codes are left open. -/
def BlamedOn (i : Instr) (divisorZero : Prop) : ErrCode → Info → Prop
  | .overflow, info => (i = .add ∨ i = .sub ∨ i = .conv) ∧ info = .d
  | .divByZero, info => i = .divp ∧ info = .b ∧ divisorZero
  | _, _ => True

theorem blamedOn_of_ne {i : Instr} {z : Prop} {code : ErrCode} {info : Info}
    (hover : code ≠ .overflow) (hzero : code ≠ .divByZero) : BlamedOn i z code info := by
  cases code
  case overflow => exact absurd rfl hover
  case divByZero => exact absurd rfl hzero
  all_goals trivial

section

variable {i : Instr} {z : Prop} {par : Params} {o : Operands} {m : Memory}

/-! ### Checks and sources -/

/-- A check of a scalar operand or of contents (R307). -/
theorem needRange_raises {p : Prop} {b : Bool} (hp : b = true → p) (info : Info) :
    Raises (BlamedOn i z) (fun _ => p) (need b .operandRange info) := by
  cases b with
  | false => trivial
  | true => exact hp rfl

theorem needMod_raises (lo : Int) :
    Raises (BlamedOn i z) (fun _ => lo ≤ s32 o.mod) (needMod o lo) :=
  needRange_raises of_decide_eq_true _

theorem needPow2Mod_raises :
    Raises (BlamedOn i z) (fun _ => ∃ k, 1 ≤ k ∧ s32 o.mod = 2 ^ k) (needPow2Mod o) :=
  needRange_raises (isPow2_iff o.mod).1 _

theorem needN_raises : Raises (BlamedOn i z) (fun _ => 1 ≤ o.degree) (needN par o) :=
  needRange_raises (fun h => of_decide_eq_true (Bool.and_eq_true_iff.1 h).1) _

theorem needW_raises : Raises (BlamedOn i z) (fun _ => o.fieldWidth ≤ 31) (needW o) :=
  needRange_raises (fun h => of_decide_eq_true (Bool.and_eq_true_iff.1 h).2) _

theorem checkSrc_raises (x : Src) :
    Raises (BlamedOn i z) (fun _ => True) (checkSrc par o x) := by
  rw [checkSrc]
  cases inBounds par (o.srcAddr x) (o.srcLen x) <;> trivial

theorem readSeq_raises (addr n : Nat) :
    Raises (BlamedOn i z) (fun p => m.readSeq addr n = .ok p) (m.readSeq addr n) := by
  cases h : m.readSeq addr n with
  | ok p => rfl
  | error e =>
    obtain ⟨w, rfl, -⟩ := Memory.readSeq_error h
    trivial

theorem readSrc_raises (x : Src) : Raises (BlamedOn i z) AllFit (readSrc par o m x) := by
  rcases readSrc_cases par o m x with ⟨p, hp, -, -, hholds⟩ | ⟨hout, -⟩ | ⟨w, hw, -⟩
  · rw [hp]
    exact allFit_of_holds hholds
  · rw [hout]
    trivial
  · rw [hw]
    trivial

/-- What is read of B is what its descriptor names. -/
theorem readSrcs_raises :
    Raises (BlamedOn i z)
      (fun x : Poly × Poly => m.readSeq (o.srcAddr .b) (o.srcLen .b) = .ok x.2)
      (readSrcs par o m) :=
  (checkSrc_raises .a).bind fun _ _ => (checkSrc_raises .b).bind fun _ _ =>
    (readSeq_raises _ _).bind fun _ _ => (readSeq_raises _ _).bind fun _ hq => hq

/-! ### `Finish` -/

/-- `Finish` on results that fit raises no OVERFLOW. -/
theorem finish_raises {d e : Option Poly} {regs : List (ResultReg × Int)} (hd : fitsSeq d = true)
    (he : fitsSeq e = true) (hregs : regs.all (fun w => fits32 w.2) = true) :
    Raises (BlamedOn i z) (fun _ => True) (finish par o d e regs) := by
  rcases finish_cases par o d e regs with ⟨hf, -⟩ | ⟨code, info, hf, -, -, hover, hzero⟩
  · rw [hf]
    trivial
  · rw [hf]
    refine blamedOn_of_ne (fun h => ?_) hzero
    rcases hover h with ⟨h, -⟩ | h | h
    · cases hd.symm.trans h
    · cases he.symm.trans h
    · cases hregs.symm.trans h

theorem finish_d_raises {d : Poly} (hd : AllFit d) :
    Raises (BlamedOn i z) (fun _ => True) (finish par o (some d) none []) :=
  finish_raises (fitsSeq_some.2 hd) rfl rfl

/-- `Finish` of ADD, SUB and CONV: OVERFLOW on D. -/
theorem finish_sum_raises (hi : i = .add ∨ i = .sub ∨ i = .conv) (d : Poly) :
    Raises (BlamedOn i z) (fun _ => True) (finish par o (some d) none []) := by
  by_cases hd : AllFit d
  · exact finish_d_raises hd
  · rw [finish_d_overflow hd]
    exact ⟨hi, rfl⟩

/-! ### The arithmetic -/

/-- The results of EGCD fit, by the bounds of R141. -/
theorem fits_egcd {w w' : Word} (h : 0 ≤ s32 w) (h' : 0 ≤ s32 w') :
    fits32 (egcd (s32 w).toNat (s32 w').toNat).1 = true ∧
      fits32 (egcd (s32 w).toNat (s32 w').toNat).2.1 = true ∧
      fits32 (egcd (s32 w).toNat (s32 w').toNat).2.2 = true := by
  obtain ⟨⟨g, x, y⟩, hegcd⟩ : ∃ r, egcd (s32 w).toNat (s32 w').toNat = r := ⟨_, rfl⟩
  obtain ⟨hgcd, -⟩ := egcd_bezout hegcd
  obtain ⟨hx, hy⟩ := egcd_bounds hegcd
  have hw := s32_le w
  have hw' := s32_le w'
  have hg : Nat.gcd (s32 w).toNat (s32 w').toNat ≤ max (s32 w).toNat (s32 w').toNat := by
    rcases (s32 w).toNat.eq_zero_or_pos with hzero | hpos
    · rw [hzero, Nat.gcd_zero_left]
      exact le_max_right _ _
    · exact (Nat.gcd_le_left _ hpos).trans (le_max_left _ _)
  rw [hegcd]
  refine ⟨fits32_of_abs_le ?_, fits32_of_abs_le (hx.trans (by omega)),
    fits32_of_abs_le (hy.trans (by omega))⟩
  rw [hgcd, Nat.abs_cast]
  omega

theorem modinv_raises (a : Int) {w : Word} (hw : 1 ≤ s32 w) :
    Raises (BlamedOn i z) (fun r => fits32 r = true) (modinv a (s32 w)) := by
  unfold modinv
  split
  · rfl
  · split
    split
    · next x _ _ _ =>
      have hle := s32_le w
      have hlo := Int.emod_nonneg x (show s32 w ≠ 0 by omega)
      have hhi := Int.emod_lt_of_pos x (show 0 < s32 w by omega)
      exact fits32_of_abs_le (abs_le.2 ⟨by omega, by omega⟩)
    · trivial

theorem divmodp_raises {w : Word} (hw : 2 ≤ s32 w) (f : Poly) {g : Poly}
    (hzero : (∀ c ∈ g, c % s32 w = 0) → BlamedOn i z .divByZero .b) :
    Raises (BlamedOn i z) (fun r => AllFit r.1 ∧ AllFit r.2) (divmodp f g (s32 w)) := by
  obtain ⟨m, hm, hm2⟩ := exists_modulus hw
  by_cases hnil : trim (pmod g (s32 w)) = []
  · rw [trim_pmod_eq_nil_iff] at hnil
    rw [divmodp_of_zero f hnil]
    exact hzero hnil
  · rw [hm] at hnil ⊢
    by_cases hgcd : Int.gcd ((trim (pmod g m)).headD 0) m = 1
    · have hg := reduced_trim_pmod (m := m) (by omega) g
      obtain ⟨c, p, hcons⟩ := List.exists_cons_of_ne_nil hnil
      have hpos : 0 ≤ (trim (pmod g m)).headD 0 := by
        rw [hcons] at hg ⊢
        exact hg.head_range.1.le
      obtain ⟨q, r, h, hq, hr, -⟩ := divReduced_spec hm2 (reduced_trim_pmod (by omega) f)
        (List.length_pos_iff.2 hnil) hpos hgcd
      rw [divmodp, h]
      exact ⟨hq.allFit hm, hr.allFit hm⟩
    · rw [divmodp_of_not_coprime hm2 f hnil hgcd]
      trivial

theorem FitsOrNone.raises {n : Nat} {r : Except Stop Poly} (h : FitsOrNone n r) :
    Raises (BlamedOn i z) AllFit r := by
  rcases h with ⟨v, rfl, -, hfit⟩ | rfl
  · exact hfit
  · trivial

end

/-! ### The bodies -/

/-- Every body: OVERFLOW and DIV_BY_ZERO come from where R306 and R308 say. -/
theorem bodyOf_raises (i : Instr) (par : Params) (o : Operands) (m : Memory) :
    Raises (BlamedOn i (DivisorZero o m)) (fun _ => True) (bodyOf i par o m) := by
  cases i with
  | nop => exact finish_raises rfl rfl rfl
  | egcd =>
    refine (needRange_raises of_decide_eq_true _).bind fun _ ha =>
      (needRange_raises of_decide_eq_true _).bind fun _ hb => finish_raises rfl rfl ?_
    simp [fits_egcd ha hb]
  | modinv =>
    exact (needMod_raises 1).bind fun _ hm => (needRange_raises (fun _ => trivial) _).bind
      fun _ _ => (modinv_raises _ hm).bind fun _ hr => finish_raises rfl rfl (by simp [hr])
  | trim =>
    exact (readSrc_raises .a).bind fun _ hp =>
      finish_d_raises fun v hv => hp v (mem_of_mem_trim hv)
  | add => exact readSrcs_raises.bind fun _ _ => finish_sum_raises (.inl rfl) _
  | sub => exact readSrcs_raises.bind fun _ _ => finish_sum_raises (.inr (.inl rfl)) _
  | conv =>
    exact needN_raises.bind fun _ _ => readSrcs_raises.bind fun _ _ =>
      finish_sum_raises (.inr (.inr rfl)) _
  | pmod =>
    exact (needMod_raises 1).bind fun _ hm => (readSrc_raises .a).bind fun p _ =>
      finish_d_raises (allFit_pmod hm p)
  | divp =>
    refine (needMod_raises 2).bind fun _ hm => readSrcs_raises.bind fun x hx =>
      (divmodp_raises hm _ fun hzero => ⟨rfl, rfl, fun g hg => ?_⟩).bind fun _ hr =>
        finish_raises (fitsSeq_some.2 hr.1) (fitsSeq_some.2 hr.2) rfl
    cases hg.symm.trans hx
    exact hzero
  | invp =>
    exact (needMod_raises 2).bind fun _ hm => needN_raises.bind fun _ hn =>
      (readSrc_raises .a).bind fun _ _ => (invpoly_fitsOrNone hm hn _).raises.bind fun _ hv =>
        finish_d_raises hv
  | inv2k =>
    exact needPow2Mod_raises.bind fun _ hq => needN_raises.bind fun _ hn =>
      (readSrc_raises .a).bind fun _ _ => (inv2k_fitsOrNone hq hn _).raises.bind fun _ hv =>
        finish_d_raises hv
  | bmod =>
    exact (needMod_raises 1).bind fun _ hm => (readSrc_raises .a).bind fun p _ =>
      finish_d_raises (allFit_bmod hm p)
  | b3enc =>
    refine (readSrc_raises .a).bind fun bs _ =>
      (needRange_raises (fun _ => trivial) _).bind fun _ _ => finish_d_raises ?_
    rw [b3encode_eq_minNumeral]
    exact allFit_minNumeral (by decide) (by decide) (.inr rfl)
  | b3dec =>
    refine (readSrc_raises .a).bind fun ts _ =>
      (needRange_raises (fun _ => trivial) _).bind fun _ _ => finish_d_raises ?_
    rw [b3decode_eq_minNumeral]
    exact allFit_minNumeral (by decide) (by decide) (.inl rfl)
  | pack =>
    exact needW_raises.bind fun _ _ => (readSrc_raises .a).bind fun _ _ =>
      finish_d_raises (allFit_packBits _ _)
  | unpack =>
    exact needW_raises.bind fun _ hw => (readSrc_raises .a).bind fun _ _ =>
      (needRange_raises (fun _ => trivial) _).bind fun _ _ =>
        finish_d_raises (allFit_unpackBits _ hw)

/-- The error of a completion is blamed on what R306 and R308 say. -/
theorem exec_blamedOn {i : Instr} {s t : State} (h : exec i s = .next t) (herr : t.err ≠ .none) :
    BlamedOn i (DivisorZero s.latch.ops s.dmem) t.err t.errInfo := by
  have hraises := bodyOf_raises i s.params s.latch.ops s.dmem
  rwa [(exec_failed h herr).2] at hraises

/-- Settles O34: `Finish` reports a result that does not fit, which only ADD, SUB and CONV have. -/
theorem overflowIsReportedByAddSubConvOnly : Obligations.OverflowIsReportedByAddSubConvOnly := by
  refine ⟨fun i s d hi hyields hfit => exec_of_error ?_, fun i s t h hover => ?_⟩
  · obtain ⟨hinvp, hinv2k⟩ : i ≠ .invp ∧ i ≠ .inv2k := by
      rcases hi with rfl | rfl | rfl <;> exact ⟨nofun, nofun⟩
    rw [bodyOf_of_yields hinvp hinv2k hyields]
    exact finish_d_overflow hfit _ _
  · have hblamed := exec_blamedOn h (by rw [hover]; nofun)
    rwa [hover] at hblamed

/-- Settles O35: `divmodp` stops at a divisor that is zero modulo p, and no other computation raises
DIV_BY_ZERO. -/
theorem divisionByZeroIsReportedByDivpOnly : Obligations.DivisionByZeroIsReportedByDivpOnly := by
  refine ⟨fun s f g hm hf hg hzero => exec_of_error ?_, fun i s t h hzero => ?_⟩
  · rw [bodyOf_divp_of_sources hm hf hg, divmodp_of_zero f hzero]
    rfl
  · have hblamed := exec_blamedOn h (by rw [hzero]; nofun)
    rw [hzero] at hblamed
    obtain ⟨hi, hinfo, hdivisor⟩ := hblamed
    refine ⟨hi, hinfo, fun g ⟨hlen, _, hholds⟩ => hdivisor g ?_⟩
    rw [← hlen]
    exact Memory.readSeq_of_holds hholds

end Sys2Proof.Machine
end

section
/-! SUPPORT. The bounds on the loops (70_reset_and_hazards.md R351): fuel beyond what the model gives a
loop changes nothing (log 10). -/

namespace Sys2Proof.Machine

open Sys2Proof

/-! ### The division loop (R171) -/

/-- Each pass shortens the remainder, so fuel above its length changes nothing. -/
theorem divLoop_congr_fuel {g : Poly} {inv p : Int} (hg : 1 ≤ g.length)
    (hinv : (g.headD 0 * inv - 1) % p = 0) (k : Nat) {n m : Nat} {q r : Poly} (hn : r.length < n)
    (hm : r.length < m) : divLoop g inv p k n q r = divLoop g inv p k m q r := by
  induction n generalizing m q r with
  | zero => omega
  | succ n ih =>
    obtain ⟨m, rfl⟩ := Nat.exists_eq_succ_of_ne_zero (show m ≠ 0 by omega)
    rcases lt_or_ge r.length g.length with hlen | hlen
    · rw [divLoop_done hlen, divLoop_done hlen]
    · have hshort := length_divRem_lt hg hinv hlen
      rw [divLoop_pass hlen, divLoop_pass hlen, ih (m := m) (by omega) (by omega)]

/-- Settles O56: the first argument of `egcd` and the remainder of a division get smaller with every
pass, and a number has as many digits as it takes divisions by the base to reach 0. -/
theorem arithmeticLoopsEndWithinTheirFuel : Obligations.ArithmeticLoopsEndWithinTheirFuel := by
  refine ⟨fun a b k => ?egcd, fun g0 inv p gs q r n k _ hinv => ?division, fun b n k hb => ?digits⟩
  case egcd => exact egcdGo_congr_fuel (by omega) a.lt_succ_self b
  case division =>
    exact divLoop_congr_fuel (g := g0 :: gs) (by simp) hinv n (by omega) r.length.lt_succ_self
  case digits =>
    rw [numDigits_eq_length_digits hb (n.le_add_right k), numDigits_eq_length_digits hb le_rfl]

/-! ### The loop of INVP (R202) -/

/-- A pass of the loop, where the division succeeds (R200). -/
theorem invLoop_of_divmodp {p : Nat} {f g q r : Poly} (hlen : 2 ≤ g.length)
    (hdiv : divmodp f g p = .ok (q, r)) (n fuel : Nat) (t1 t2 : Poly) :
    invLoop p n (fuel + 1) f g t1 t2 = invLoop p n fuel g r t2 (nextCofactor p n t1 t2 q) := by
  match g, hlen, hdiv with
  | c :: c' :: gs, _, hdiv =>
    simp only [invLoop, hdiv]
    rfl

/-- Every pass shortens g, and the loop stops at a constant or at a leading coefficient that is no
unit, so fuel above the length of g changes nothing. -/
theorem invLoop_congr_fuel {p n : Nat} (hp : 2 ≤ p) {f g t1 t2 : Poly} (hg : Reduced p g)
    {k m : Nat} (hk : g.length < k) (hm : g.length < m) :
    invLoop p n k f g t1 t2 = invLoop p n m f g t1 t2 := by
  induction k generalizing m f g t1 t2 with
  | zero => omega
  | succ k ih =>
    obtain ⟨m, rfl⟩ := Nat.exists_eq_succ_of_ne_zero (show m ≠ 0 by omega)
    by_cases hgcd : Int.gcd (g.headD 0) p = 1
    · rcases lt_or_ge g.length 2 with hlen | hlen
      · obtain ⟨c, rfl⟩ := eq_singleton_of_coprime hp hlen hgcd
        rfl
      · obtain ⟨q, r, hdiv, -, hr, hrlen, -⟩ := divmodp_spec hp f (g := g) (e := g.length - 1)
          (fun j _ _ => by omega) (by rwa [coef_length_pred])
        rw [invLoop_of_divmodp hlen hdiv, invLoop_of_divmodp hlen hdiv,
          ih (m := m) hr (by omega) (by omega)]
    · rw [invLoop_of_not_coprime hp hg hgcd, invLoop_of_not_coprime hp hg hgcd]

/-! ### The loop of INV2K (R205) -/

/-- A result the lifting loop has reached is kept by more fuel. -/
theorem henselLoop_add_fuel {f v : Poly} {q : Int} {n fuel : Nat} {g : Poly}
    (h : henselLoop f q n fuel g = .ok v) (k : Nat) : henselLoop f q n (fuel + k) g = .ok v := by
  induction fuel generalizing g with
  | zero => cases h
  | succ fuel ih =>
    rw [Nat.succ_add]
    simp only [henselLoop] at h ⊢
    split
    · next hdone => rwa [if_pos hdone] at h
    · next hdone =>
      rw [if_neg hdone] at h
      exact ih h

/-- Settles O57: `invpoly` starts with g no longer than its operand, and from an inverse modulo 2 the
lifting loop reaches a result. -/
theorem inversionLoopsEndWithinTheirFuel : Obligations.InversionLoopsEndWithinTheirFuel := by
  refine ⟨fun x p n k hp _ => ?invpoly, fun f g j n k hj hj30 hn h => ?lifting⟩
  case invpoly =>
    lift p to Nat using by omega
    have hp : 2 ≤ p := by omega
    have hlen : (trim (pmod x p)).length ≤ x.length := by simpa using trim_length_le (pmod x p)
    exact invLoop_congr_fuel hp (reduced_trim_pmod (by omega) x) (by omega) (by omega)
  case lifting =>
    obtain ⟨v, hv, -⟩ := inv2k_inverts hj hn hj30 h
    rw [inv2k, h, Nat.cast_pow, Nat.cast_ofNat] at hv
    exact (henselLoop_add_fuel hv k).trans hv.symm

end Sys2Proof.Machine
end

section
/-! SUPPORT. The two resets (70_reset_and_hazards.md R340 to R344): the state they leave, what becomes
of a running command, and what the commands do on the operands a reset leaves. -/

namespace Sys2Proof.Machine

open Sys2Proof

/-! ### The state after a reset -/

/-- Settles O6: no DMEM word is written, no command is in flight, and every register holds 0. -/
theorem resetMeetsTheInvariant : Obligations.ResetMeetsTheInvariant where
  params := by decide
  memory := rfl
  within := rfl
  words := rfl
  report := rfl
  flight := nofun
  dLength := Nat.zero_le _
  eLength := Nat.zero_le _

/-- No register is in DMEM, so after a hardware reset too every register reads its reset value. -/
theorem readReg_hardReset (s : State) (r : Reg) :
    s.hardReset.readReg r = resetValue s.params r := by
  rw [← readReg_softReset]
  cases r <;> rfl

/-- Settles O8: the write to CTRL is the soft reset with its response. -/
theorem bothResetsSetEveryRegisterToItsResetValue :
    Obligations.BothResetsSetEveryRegisterToItsResetValue := by
  refine fun s => ⟨fun v hv => ?soft, s.hardReset, rfl, readReg_hardReset s, rfl⟩
  rw [serve_writeCtrl, State.writeCtrl_reset hv]
  exact ⟨_, rfl, fun r => (readReg_respond _ _ r).trans (readReg_softReset s r), rfl, rfl, rfl, rfl⟩

/-- Settles O9: the host action is served ahead of the completion, and of the two states a reset can
leave only the hardware reset's has another DMEM. -/
theorem resetWhileBusyDiscardsTheCommand : Obligations.ResetWhileBusyDiscardsTheCommand := by
  intro s t i rest hbusy hturns hin hi h
  rw [hostActionsAreServedInArrivalOrder.1 s i rest hin (.inr hturns)] at h
  have hdmem : i ≠ .hardReset → t.dmem = s.dmem := fun hsoft => by
    rcases host_dmem h with hsame | hhard | ⟨hidle, -⟩
    · exact hsame
    · exact absurd hhard hsoft
    · cases hbusy.symm.trans hidle
  rcases reset_cases hi h with rfl | rfl <;>
    exact ⟨rfl, rfl, rfl, rfl, rfl, rfl, rfl, rfl, rfl, hdmem⟩

/-- A read of an unwritten word's offset is refused (R93, I2). -/
theorem serve_readWord_unwritten {s : State} {off : Offset} {i : Nat}
    (htarget : s.target off 4 = some (.word i)) (hw : s.dmem.readWord i = none) :
    s.serve (.read off 4) = .refused (.unwrittenDmem i) := by
  simp only [State.serve, htarget, hw]

/-- Settles O10: the hardware reset leaves DMEM empty and the engine idle, so the window's offset
names an unwritten word. -/
theorem hardResetLeavesNoDmemWordReadable : Obligations.HardResetLeavesNoDmemWordReadable :=
  fun s _ hparams hi => ⟨s.hardReset, rfl, rfl,
    serve_readWord_unwritten (target_word (s := s.hardReset) hparams rfl hi) rfl⟩

/-! ### Operand registers that are all 0 (R344) -/

/-- A descriptor with length 0 names the empty sequence, whatever DMEM holds (R92). -/
theorem sourceIs_nil {s : State} {x : Src} (h : s.latch.ops.srcLen x = 0) : SourceIs s x [] :=
  ⟨h.symm, .inl rfl, nofun⟩

/-- A command that yields the empty sequence writes D_LEN and no DMEM word (R61, R124). -/
theorem exec_of_yields_nil {i : Instr} {s : State} (hinvp : i ≠ .invp) (hinv2k : i ≠ .inv2k)
    (h : Yields i s []) :
    exec i s = .next { s with busy := false, done := true, err := .none, errInfo := .none,
                              dLen := 0 } := by
  rw [exec_eq_complete, bodyOf_of_yields hinvp hinv2k h,
    finish_d (d := []) nofun ⟨Nat.zero_le _, .inl rfl⟩]
  rfl

/-- Settles O11: empty sources yield empty results, egcd(0, 0) = (0, 0, 1), and 0 is out of the range
of MOD, RING_N and WIDTH. -/
theorem zeroOperandsSucceedOrReportTheirRange :
    Obligations.ZeroOperandsSucceedOrReportTheirRange := by
  intro s hzero
  have hmod : s32 s.latch.ops.mod = 0 := by rw [hzero]; rfl
  have hdegree : ¬ DegreeOk s := by rw [DegreeOk, hzero]; exact fun h => absurd h.1 (by decide)
  have hwidth : ¬ WidthOk s := by rw [WidthOk, hzero]; exact fun h => absurd h.1 (by decide)
  obtain ⟨-, -, hmod1, -, hconv, hmod2, -, hinv2k, -, hbits, -⟩ := operandRangeIsReportedRowByRow
  refine ⟨nopCompletesWithNoOtherEffect s, fun i hi => ?empty, ?egcd, hconv s hdegree,
    fun i hi => ?modulus, hbits s hwidth _ (by decide), hbits s hwidth _ (by decide)⟩
  case empty =>
    have ha : SourceIs s .a [] := sourceIs_nil (by rw [hzero]; rfl)
    have hb : SourceIs s .b [] := sourceIs_nil (by rw [hzero]; rfl)
    simp only [List.mem_cons, List.not_mem_nil, or_false] at hi
    rcases hi with rfl | rfl | rfl | rfl | rfl
    · exact exec_of_yields_nil nofun nofun ⟨trivial, [], ha, rfl, nofun⟩
    · exact exec_of_yields_nil nofun nofun ⟨trivial, [], [], ha, hb, nofun, le_rfl, nofun⟩
    · exact exec_of_yields_nil nofun nofun ⟨trivial, [], [], ha, hb, nofun, le_rfl, nofun⟩
    · exact exec_of_yields_nil nofun nofun ⟨trivial, [], ha, nofun, nofun, nofun, rfl⟩
    · exact exec_of_yields_nil nofun nofun ⟨trivial, [], ha, nofun, nofun, nofun, rfl⟩
  case egcd =>
    have ha : s32 s.latch.ops.sa = 0 := by rw [hzero]; rfl
    have hb : s32 s.latch.ops.sb = 0 := by rw [hzero]; rfl
    exact exec_egcd (g := 0) (x := 0) (y := 1) ha.ge hb.ge (by rw [ha, hb]; rfl) (by decide)
      (by decide) (by decide)
  case modulus =>
    have hpow : ¬ ∃ k, 1 ≤ k ∧ s32 s.latch.ops.mod = 2 ^ k := by
      rintro ⟨k, -, hk⟩
      exact pow_ne_zero k two_ne_zero (hk.symm.trans hmod)
    simp only [List.mem_cons, List.not_mem_nil, or_false] at hi
    rcases hi with rfl | rfl | rfl | rfl | rfl | rfl
    · exact hmod1 s (by omega) _ (by decide)
    · exact hmod2 s (by omega) _ (by decide)
    · exact hmod2 s (by omega) _ (by decide)
    · exact hinv2k s hpow
    · exact hmod1 s (by omega) _ (by decide)
    · exact hmod1 s (by omega) _ (by decide)

end Sys2Proof.Machine
end
